-- ==== Sys2Proof/Word.lean ====
section
/-!
DEFINITION. The word types of the block and their plainest arithmetic: the byte of the planes and of the wire
(spec/20_memory.md R61) and the 32-bit word of the command port and of the register space (spec/30_encoding.md R91).
-/

namespace Sys2Proof

/-- A byte: 8 bits, value 0 to 255 (R13). -/
abbrev Byte := BitVec 8

/-- A host command word or a register word: 32 bits (R69, R91). -/
abbrev Word := BitVec 32

/-- `ceil(a/b)`, the least integer not below `a/b` (R13). -/
def ceilDiv (a b : Nat) : Nat := (a + b - 1) / b

end Sys2Proof
end

