-- ==== Sys2Proof/Config.lean ====
section
/-!
DEFINITION. What is fixed for the life of the block: the implementation parameters of spec/00_scope.md R6 to R12, as
one record of plain data, and the values the spec leaves OPEN as constants without a body. Which configurations are
legal is in WellFormed.lean.
-/

namespace Sys2Proof

/-- The two calibrated panel revisions (R7). -/
inductive Rev where
  | revisionA
  | revisionB
  deriving DecidableEq, Repr, Inhabited

/-- The screen mode (R8, R30). -/
inductive ScreenMode where
  | mono
  | grey4
  deriving DecidableEq, Repr, Inhabited

/-- Which bit of a plane byte holds the lowest-numbered pixel (R9, R24). -/
inductive BitOrder where
  | msbFirst
  | lsbFirst
  deriving DecidableEq, Repr, Inhabited

/-- When the PLL step of `powerUp` is sent (R11, R154). -/
inductive PllPolicy where
  | always
  | grey4Only
  | never
  deriving DecidableEq, Repr, Inhabited

/-- The ten steps of `powerUp` (R183). -/
inductive PuStep where
  | booster
  | powerset
  | poweron
  | ponwait
  | panelset
  | pllctl
  | resolution
  | vcomdc
  | interval
  | luts
  deriving DecidableEq, Repr, Inhabited

/-- The two pixel planes (R22). -/
inductive PlaneId where
  | plane0
  | plane1
  deriving DecidableEq, Repr, Inhabited

/-- The only byte values the test pattern is drawn from: `0xaa`, `0x55`, `0xff` (R9, R134). -/
inductive PatternValue where
  | xAA
  | x55
  | xFF
  deriving DecidableEq, Repr, Inhabited

/-- The byte a test-pattern value stands for (R9). -/
def PatternValue.toByte : PatternValue → Byte
  | .xAA => 0xAA#8
  | .x55 => 0x55#8
  | .xFF => 0xFF#8

/-- One entry of `TEST_PATTERN`: a byte write to one plane (R9). -/
structure PatternByte where
  plane : PlaneId
  index : Nat
  value : PatternValue
  deriving DecidableEq, Repr, Inhabited

/-- A parameter with one value per panel revision, `X[REV]`. -/
structure PerRev (α : Type) where
  revA : α
  revB : α
  deriving DecidableEq, Repr, Inhabited

/-- `X[REV]`. -/
def PerRev.get {α : Type} (p : PerRev α) : Rev → α
  | .revisionA => p.revA
  | .revisionB => p.revB

/-- A parameter with one value per screen mode, `X[mode]`. -/
structure PerMode (α : Type) where
  mono : α
  grey4 : α
  deriving DecidableEq, Repr, Inhabited

/-- `X[mode]`. -/
def PerMode.get {α : Type} (p : PerMode α) : ScreenMode → α
  | .mono => p.mono
  | .grey4 => p.grey4

/-- An argument table `X_ARGS[REV][mode]` (R10). -/
abbrev RegArgs := PerRev (PerMode (List Byte))

/-- One set of the five look-up tables, `LUT[REV][mode][k]` (R10, R34). -/
structure LutSet where
  vcom : List Byte
  w2w : List Byte
  b2w : List Byte
  w2b : List Byte
  b2b : List Byte
  deriving DecidableEq, Repr, Inhabited

/-- The nineteen command bytes `OP_*` (R10), in the order of the table of R107. -/
structure OpBytes where
  booster : Byte
  powerset : Byte
  poweron : Byte
  panelset : Byte
  pllctl : Byte
  resolution : Byte
  vcomdc : Byte
  interval : Byte
  lutVcom : Byte
  lutW2w : Byte
  lutB2w : Byte
  lutW2b : Byte
  lutB2b : Byte
  plane0data : Byte
  plane1data : Byte
  refreshtrig : Byte
  datastop : Byte
  poweroff : Byte
  statusread : Byte
  deriving DecidableEq, Repr, Inhabited

/-- The nineteen command bytes as a list, in the order of R107. -/
def OpBytes.toList (o : OpBytes) : List Byte :=
  [o.booster, o.powerset, o.poweron, o.panelset, o.pllctl, o.resolution, o.vcomdc, o.interval] ++
  [o.lutVcom, o.lutW2w, o.lutB2w, o.lutW2b, o.lutB2b] ++
  [o.plane0data, o.plane1data, o.refreshtrig, o.datastop, o.poweroff, o.statusread]

/-- The configuration record (R6 to R12 and, for the base addresses, R69). -/
structure Config where
  /-- `W`, the panel width in pixels (R6). -/
  width : Nat
  /-- `H`, the panel height in pixels (R6). -/
  height : Nat
  /-- `REV` (R7). -/
  rev : Rev
  /-- `MODE0`, the mode given at construction (R8). -/
  mode0 : ScreenMode
  /-- `BIT_ORDER` (R9). -/
  bitOrder : BitOrder
  /-- `CLEAR_MARKS_FULL` (R9). -/
  clearMarksFull : Bool
  /-- `TEST_PATTERN` (R9). -/
  testPattern : List PatternByte
  /-- The nineteen `OP_*` (R10). -/
  ops : OpBytes
  /-- `BOOSTER_ARGS` (R10). -/
  boosterArgs : RegArgs
  /-- `POWERSET_ARGS` (R10). -/
  powersetArgs : RegArgs
  /-- `PANELSET_ARGS` (R10). -/
  panelsetArgs : RegArgs
  /-- `PLLCTL_ARGS` (R10). -/
  pllctlArgs : RegArgs
  /-- `VCOMDC_ARGS` (R10). -/
  vcomdcArgs : RegArgs
  /-- `INTERVAL_ARGS` (R10). -/
  intervalArgs : RegArgs
  /-- `INTERVAL_DEFAULT_ARGS` (R10). -/
  intervalDefaultArgs : PerRev (List Byte)
  /-- `VCOMDC_DEFAULT_ARGS` (R10). -/
  vcomdcDefaultArgs : PerRev (List Byte)
  /-- The LUT store, both modes (R34). -/
  lut : PerRev (PerMode LutSet)
  /-- `PU_ORDER[RevisionB]` (R11); RevisionA's is fixed. -/
  puOrderB : List PuStep
  /-- `PLL_POLICY` (R11). -/
  pllPolicy : PerRev PllPolicy
  /-- `QD_POWERUP` (R11). -/
  qdPowerup : Bool
  /-- `T_PON` in milliseconds (R12). -/
  tPon : PerRev Nat
  /-- `T_REFRESH` in milliseconds (R12). -/
  tRefresh : PerRev Nat
  /-- `T_QD` in milliseconds (R12). -/
  tQd : Nat
  /-- `BASE_CMD`; no rule reads it (R69). -/
  baseCmd : Nat
  /-- `BASE_REG`; no rule reads it (R69). -/
  baseReg : Nat
  /-- `BASE_P0`; no rule reads it (R69). -/
  baseP0 : Nat
  /-- `BASE_P1`; no rule reads it (R69). -/
  baseP1 : Nat
  deriving DecidableEq, Repr, Inhabited

/-- `N = ceil(W*H/8)`, the byte length of each plane (R6). -/
def Config.planeBytes (c : Config) : Nat := ceilDiv (c.width * c.height) 8

/-- `PU_ORDER[RevisionA]`, the document's listed order (R186). -/
def listedPuOrder : List PuStep :=
  [.booster, .powerset, .poweron, .ponwait, .panelset, .pllctl, .resolution, .vcomdc, .interval, .luts]

/-- `PU_ORDER[REV]` (R11, R186). -/
def Config.puOrder (c : Config) : List PuStep :=
  match c.rev with
  | .revisionA => listedPuOrder
  | .revisionB => c.puOrderB

/-- `T_RST`, fixed at 10 ms (R12). -/
def tRst : Nat := 10

/-- `T_TURN`, fixed at 2 ms (R12). -/
def tTurn : Nat := 2

/-! ## Free values
DESIGN CHOICE (log entries 2 and 6): each constant below has no body, so no proof can see what it is. The `open…`
constants are the values the spec leaves OPEN, for the one configuration that `State.reset` uses;
`freeStatusByte` is the byte the environment returns at the n-th status read. -/

/-- The byte the environment returns at the n-th status read: any byte, under no law (R188, U4). -/
opaque Config.freeStatusByte : Nat → Byte

/-- `REV` of the device (R7). -/
opaque Config.openRev : Rev
/-- `MODE0` of the device (R8). -/
opaque Config.openMode0 : ScreenMode
/-- `TEST_PATTERN` of the device, before the entries outside the planes are left out (R9). -/
opaque Config.openTestPattern : List PatternByte
/-- The nineteen `OP_*` of the device (R10). -/
opaque Config.openOps : OpBytes
/-- `BOOSTER_ARGS` of the device (R10). -/
opaque Config.openBoosterArgs : RegArgs
/-- `POWERSET_ARGS` of the device (R10). -/
opaque Config.openPowersetArgs : RegArgs
/-- `PANELSET_ARGS` of the device (R10). -/
opaque Config.openPanelsetArgs : RegArgs
/-- `PLLCTL_ARGS` of the device (R10). -/
opaque Config.openPllctlArgs : RegArgs
/-- `VCOMDC_ARGS` of the device (R10). -/
opaque Config.openVcomdcArgs : RegArgs
/-- `INTERVAL_ARGS` of the device (R10). -/
opaque Config.openIntervalArgs : RegArgs
/-- `INTERVAL_DEFAULT_ARGS` of the device (R10). -/
opaque Config.openIntervalDefaultArgs : PerRev (List Byte)
/-- `VCOMDC_DEFAULT_ARGS` of the device (R10). -/
opaque Config.openVcomdcDefaultArgs : PerRev (List Byte)
/-- The LUT store of the device (R10). -/
opaque Config.openLut : PerRev (PerMode LutSet)
/-- `PU_ORDER[RevisionB]` of the device, where it is a legal order (R186). -/
opaque Config.openPuOrderB : List PuStep
/-- Which revision of the device has `PLL_POLICY = Grey4Only` (R11). -/
opaque Config.openPllGrey4OnlyRev : Rev
/-- Whether the other revision's `PLL_POLICY` is `Always` (else `Never`) (R11). -/
opaque Config.openPllOtherAlways : Bool
/-- `T_PON` of the device, reduced into its range (R12). -/
opaque Config.openTPon : PerRev Nat
/-- `T_REFRESH` of the device, reduced into its range (R12). -/
opaque Config.openTRefresh : PerRev Nat
/-- `T_QD` of the device (R12). -/
opaque Config.openTQd : Nat
/-- `BASE_CMD`, `BASE_REG`, `BASE_P0`, `BASE_P1` of the device, in this order of the argument (R69). -/
opaque Config.openBase : Nat → Nat

end Sys2Proof
end

