-- ==== Sys2Proof/Syntax.lean ====
section
/-!
DEFINITION. The instructions: the ten host commands of spec/30_encoding.md R92 and the nineteen wire commands of
spec/30_encoding.md R107, one constructor per row of spec/opcode_table.json.
-/

namespace Sys2Proof

/-- The two uses of the VCOMDC and INTERVAL wire commands (R156, R157): the values `powerUp` writes, or the default
values `powerDown` restores. -/
inductive RegUse where
  | settings
  | defaults
  deriving DecidableEq, Repr

/-- An instruction of the block. -/
inductive Instr where
  /-- `CLEAR` (R130). -/
  | clear
  /-- `SETPIXEL x, y, c` (R131). -/
  | setpixel (x : BitVec 8) (y : BitVec 16) (c : BitVec 2)
  /-- `TESTPAT` (R134). -/
  | testpat
  /-- `SETMODE m` (R181). -/
  | setmode (m : ScreenMode)
  /-- `REFRESH f`, `f = true` for `fullCycle` (R211). -/
  | refresh (f : Bool)
  /-- `QUICKDRAW` (R212). -/
  | quickdraw
  /-- `RESETHW` (R180). -/
  | resethw
  /-- `POWERUP` (R182). -/
  | powerup
  /-- `POWERDOWN` (R187). -/
  | powerdown
  /-- `GETSTATUS` (R188). -/
  | getstatus
  /-- BOOSTER (R150). -/
  | booster
  /-- POWERSET (R151). -/
  | powerset
  /-- POWERON (R152). -/
  | poweron
  /-- PANELSET (R153). -/
  | panelset
  /-- PLLCTL (R154). -/
  | pllctl
  /-- RESOLUTION (R155). -/
  | resolution
  /-- VCOMDC (R156). -/
  | vcomdc (use : RegUse)
  /-- INTERVAL (R157). -/
  | interval (use : RegUse)
  /-- LUT_VCOM (R158). -/
  | lutVcom
  /-- LUT_W2W (R159). -/
  | lutW2w
  /-- LUT_B2W (R160). -/
  | lutB2w
  /-- LUT_W2B (R161). -/
  | lutW2b
  /-- LUT_B2B (R162). -/
  | lutB2b
  /-- PLANE0DATA (R163). -/
  | plane0data
  /-- PLANE1DATA (R164). -/
  | plane1data
  /-- REFRESHTRIG (R165). -/
  | refreshtrig
  /-- DATASTOP (R166). -/
  | datastop
  /-- POWEROFF (R167). -/
  | poweroff
  /-- STATUSREAD (R168). -/
  | statusread
  deriving DecidableEq, Repr

end Sys2Proof
end

