-- ==== Sys2Proof/WellFormed.lean ====
section
/-!
DEFINITION. The checks: which configurations are legal (spec/70_reset_and_hazards.md R264), the configuration paired
with its check, the device's configuration, and which instructions are well formed under a configuration.
-/

namespace Sys2Proof

/-- `1 <= W <= 255` and `1 <= H <= 65535` (R6, R265). -/
def Config.geometryOk (c : Config) : Bool :=
  decide (1 ≤ c.width) && decide (c.width ≤ 255) && decide (1 ≤ c.height) && decide (c.height ≤ 65535)

/-- `100 <= T_PON[REV] <= 200` and `900 <= T_REFRESH[REV] <= 1000`, for both revisions (R12). -/
def Config.delaysOk (c : Config) : Bool :=
  decide (100 ≤ c.tPon.revA) && decide (c.tPon.revA ≤ 200) &&
  decide (100 ≤ c.tPon.revB) && decide (c.tPon.revB ≤ 200) &&
  decide (900 ≤ c.tRefresh.revA) && decide (c.tRefresh.revA ≤ 1000) &&
  decide (900 ≤ c.tRefresh.revB) && decide (c.tRefresh.revB ≤ 1000)

/-- `S_PONWAIT` comes directly after `S_POWERON` (R186). -/
def waitFollowsPoweron : List PuStep → Bool
  | [] => false
  | [_] => false
  | a :: b :: rest => if a = PuStep.poweron then decide (b = PuStep.ponwait) else waitFollowsPoweron (b :: rest)

/-- A legal power-up order: a permutation of the ten steps that keeps `S_PONWAIT` directly after `S_POWERON` (R186). -/
def legalPuOrder (l : List PuStep) : Bool :=
  l.isPerm listedPuOrder && waitFollowsPoweron l

/-- Exactly one revision has `PLL_POLICY = Grey4Only` (R11). -/
def Config.pllOk (c : Config) : Bool :=
  xor (decide (c.pllPolicy.revA = PllPolicy.grey4Only)) (decide (c.pllPolicy.revB = PllPolicy.grey4Only))

/-- Every `TEST_PATTERN` index is below `N` (R134). -/
def Config.patternOk (c : Config) : Bool :=
  c.testPattern.all (fun e => decide (e.index < c.planeBytes))

/-- The well-formedness check of a configuration (R264). -/
def Config.wf (c : Config) : Bool :=
  c.geometryOk && c.delaysOk && legalPuOrder c.puOrderB && c.pllOk && c.patternOk

/-- A configuration together with the proof that it passes the check: a malformed one cannot be built (R264, U8). -/
structure LegalConfig where
  raw : Config
  ok : raw.wf = true
  deriving DecidableEq, Repr

/-- A configuration that fails the check is refused (R264). -/
def Config.check (c : Config) : Option LegalConfig :=
  if h : c.wf = true then some ⟨c, h⟩ else none

/-! ## The device's configuration -/

/-- Reduces any natural into `lo .. lo + span`, each value of which is reached. -/
def reduceInto (lo span n : Nat) : Nat := lo + n % (span + 1)

/-- The two policies, legal by construction: one revision is `Grey4Only`, the other `Always` or `Never` (R11). -/
def pllPolicyOf (grey4OnlyRev : Rev) (otherAlways : Bool) : PerRev PllPolicy :=
  let other := if otherAlways then PllPolicy.always else PllPolicy.never
  match grey4OnlyRev with
  | .revisionA => ⟨.grey4Only, other⟩
  | .revisionB => ⟨other, .grey4Only⟩

/-- `N` for the one geometry the document names, 128 × 296 (R22). -/
def namedPlaneBytes : Nat := ceilDiv (128 * 296) 8

/-- The configuration record of the device that `State.reset` describes: the one geometry the document names (R6), the
spec's defaults (R9, R11), and a free value for everything OPEN. DESIGN CHOICE, log entry 2. -/
def Config.deviceRecord : Config where
  width := 128
  height := 296
  rev := Config.openRev
  mode0 := Config.openMode0
  bitOrder := .msbFirst
  clearMarksFull := true
  testPattern := Config.openTestPattern.filter (fun e => decide (e.index < namedPlaneBytes))
  ops := Config.openOps
  boosterArgs := Config.openBoosterArgs
  powersetArgs := Config.openPowersetArgs
  panelsetArgs := Config.openPanelsetArgs
  pllctlArgs := Config.openPllctlArgs
  vcomdcArgs := Config.openVcomdcArgs
  intervalArgs := Config.openIntervalArgs
  intervalDefaultArgs := Config.openIntervalDefaultArgs
  vcomdcDefaultArgs := Config.openVcomdcDefaultArgs
  lut := Config.openLut
  puOrderB := if legalPuOrder Config.openPuOrderB then Config.openPuOrderB else listedPuOrder
  pllPolicy := pllPolicyOf Config.openPllGrey4OnlyRev Config.openPllOtherAlways
  qdPowerup := true
  tPon := ⟨reduceInto 100 100 Config.openTPon.revA, reduceInto 100 100 Config.openTPon.revB⟩
  tRefresh := ⟨reduceInto 900 100 Config.openTRefresh.revA, reduceInto 900 100 Config.openTRefresh.revB⟩
  tQd := Config.openTQd
  baseCmd := Config.openBase 0
  baseReg := Config.openBase 1
  baseP0 := Config.openBase 2
  baseP1 := Config.openBase 3

theorem reduceInto_ge (lo span n : Nat) : lo ≤ reduceInto lo span n := Nat.le_add_right _ _

theorem reduceInto_le (lo span n : Nat) : reduceInto lo span n ≤ lo + span := by
  have := Nat.mod_lt n (y := span + 1) (by omega)
  unfold reduceInto
  omega

theorem legalPuOrder_listed : legalPuOrder listedPuOrder = true := by decide

theorem pllPolicyOf_ok (r : Rev) (b : Bool) :
    xor (decide ((pllPolicyOf r b).revA = PllPolicy.grey4Only))
      (decide ((pllPolicyOf r b).revB = PllPolicy.grey4Only)) = true := by
  cases r <;> cases b <;> decide

theorem Config.deviceRecord_wf : Config.deviceRecord.wf = true := by
  have order : legalPuOrder Config.deviceRecord.puOrderB = true := by
    show legalPuOrder (if legalPuOrder Config.openPuOrderB then Config.openPuOrderB else listedPuOrder) = true
    split
    · assumption
    · exact legalPuOrder_listed
  have delays : Config.deviceRecord.delaysOk = true := by
    simp [Config.delaysOk, Config.deviceRecord, reduceInto_ge, reduceInto_le 100 100, reduceInto_le 900 100]
  have pattern : Config.deviceRecord.patternOk = true := by
    simp [Config.patternOk, Config.deviceRecord, Config.planeBytes, namedPlaneBytes, List.all_filter]
    exact fun e _ => (Bool.eq_false_or_eq_true _).symm
  have pll : Config.deviceRecord.pllOk = true := pllPolicyOf_ok _ _
  have geometry : Config.deviceRecord.geometryOk = true := by
    simp [Config.geometryOk, Config.deviceRecord]
  simp [Config.wf, order, delays, pattern, pll, geometry]

/-- The device's configuration, with its check. -/
def LegalConfig.device : LegalConfig := ⟨Config.deviceRecord, Config.deviceRecord_wf⟩

/-! ## Well-formed instructions -/

/-- The command byte of a wire command, a parameter (R107); `none` for a host command. -/
def Instr.commandByte (c : Config) : Instr → Option Byte
  | .clear => none
  | .setpixel _ _ _ => none
  | .testpat => none
  | .setmode _ => none
  | .refresh _ => none
  | .quickdraw => none
  | .resethw => none
  | .powerup => none
  | .powerdown => none
  | .getstatus => none
  | .booster => some c.ops.booster
  | .powerset => some c.ops.powerset
  | .poweron => some c.ops.poweron
  | .panelset => some c.ops.panelset
  | .pllctl => some c.ops.pllctl
  | .resolution => some c.ops.resolution
  | .vcomdc _ => some c.ops.vcomdc
  | .interval _ => some c.ops.interval
  | .lutVcom => some c.ops.lutVcom
  | .lutW2w => some c.ops.lutW2w
  | .lutB2w => some c.ops.lutB2w
  | .lutW2b => some c.ops.lutW2b
  | .lutB2b => some c.ops.lutB2b
  | .plane0data => some c.ops.plane0data
  | .plane1data => some c.ops.plane1data
  | .refreshtrig => some c.ops.refreshtrig
  | .datastop => some c.ops.datastop
  | .poweroff => some c.ops.poweroff
  | .statusread => some c.ops.statusread

/-- An instruction is well formed under a configuration when its code names it alone. Every host command is: its
operands have exactly the widths of R93 to R96. A wire command is when its command byte stands once among the nineteen
(the premise D13 recommends: nothing in the spec makes the nineteen bytes distinct, N3). -/
def Instr.wellFormed (c : Config) (i : Instr) : Bool :=
  match i.commandByte c with
  | none => true
  | some b => decide (c.ops.toList.count b = 1)

end Sys2Proof
end

