-- ==== Sys2Proof/Decode.lean ====
section
/-!
DEFINITION. Decoding and encoding: the host command word, format H32 (spec/30_encoding.md R91 to R97), and the command
byte of a wire transaction, format WIRE (R99, R107). Decoding is total and rejects by name. The encoder is written from
the same tables. `decodeTableWord` reads a word numbered as spec/opcode_table.json numbers it.
-/

namespace Sys2Proof

/-! ## The host command word -/

/-- Why a code names no instruction. -/
inductive Reject where
  /-- `cw[31:28]` is `0x0` or `0xB` to `0xF` (R97). -/
  | reservedOpcode
  /-- `cw[27:26]` is not 0 (R97). -/
  | reservedField
  /-- An operand bit that the command does not use is set (R97). -/
  | unusedOperandBits
  /-- The byte is none of the nineteen command bytes (R169). -/
  | unknownCommandByte
  /-- The default use is asked of a wire command that has only one (R156, R157). -/
  | noDefaultUse
  deriving DecidableEq, Repr

/-- The ten host commands without their operands (R92). -/
inductive HostOp where
  | clear
  | setpixel
  | testpat
  | setmode
  | refresh
  | quickdraw
  | resethw
  | powerup
  | powerdown
  | getstatus
  deriving DecidableEq, Repr

/-- One row of the table of R92. -/
structure HostRow where
  op : HostOp
  pattern : Word
  mask : Word
  deriving DecidableEq, Repr

/-- The table of R92. -/
def hostRows : List HostRow :=
  [⟨.clear, 0x10000000#32, 0xFFFFFFFF#32⟩,
   ⟨.setpixel, 0x20000000#32, 0xFC000000#32⟩,
   ⟨.testpat, 0x30000000#32, 0xFFFFFFFF#32⟩,
   ⟨.setmode, 0x40000000#32, 0xFFFFFFFE#32⟩,
   ⟨.refresh, 0x50000000#32, 0xFFFFFFFE#32⟩,
   ⟨.quickdraw, 0x60000000#32, 0xFFFFFFFF#32⟩,
   ⟨.resethw, 0x70000000#32, 0xFFFFFFFF#32⟩,
   ⟨.powerup, 0x80000000#32, 0xFFFFFFFF#32⟩,
   ⟨.powerdown, 0x90000000#32, 0xFFFFFFFF#32⟩,
   ⟨.getstatus, 0xA0000000#32, 0xFFFFFFFF#32⟩]

/-- A word selects the command of a row when `cw & mask = match` (R92). -/
def HostRow.selects (r : HostRow) (cw : Word) : Bool := cw &&& r.mask == r.pattern

/-- `opc = cw[31:28]` (R91). -/
def opcField (cw : Word) : BitVec 4 := cw.extractLsb' 28 4

/-- `rsv = cw[27:26]` (R91). -/
def rsvField (cw : Word) : BitVec 2 := cw.extractLsb' 26 2

/-- `c = cw[25:24]` (R91, R93). -/
def colorField (cw : Word) : BitVec 2 := cw.extractLsb' 24 2

/-- `y = cw[23:8]` (R91, R93). -/
def yField (cw : Word) : BitVec 16 := cw.extractLsb' 8 16

/-- `x = cw[7:0]` (R91, R93). -/
def xField (cw : Word) : BitVec 8 := cw.extractLsb' 0 8

/-- The flag `cw[0]` of SETMODE and REFRESH (R94, R95). -/
def flagField (cw : Word) : Bool := cw.getLsbD 0

/-- 0 selects Mono, 1 selects Grey4 (R94). -/
def ScreenMode.ofFlag (m : Bool) : ScreenMode := if m then .grey4 else .mono

/-- The coding of the mode: 0 Mono, 1 Grey4 (R30, R94). -/
def ScreenMode.flag : ScreenMode → Bool
  | .mono => false
  | .grey4 => true

/-- The instruction of a selected row, its operands taken from the word (R93 to R96). -/
def HostOp.build (op : HostOp) (cw : Word) : Instr :=
  match op with
  | .clear => .clear
  | .setpixel => .setpixel (xField cw) (yField cw) (colorField cw)
  | .testpat => .testpat
  | .setmode => .setmode (ScreenMode.ofFlag (flagField cw))
  | .refresh => .refresh (flagField cw)
  | .quickdraw => .quickdraw
  | .resethw => .resethw
  | .powerup => .powerup
  | .powerdown => .powerdown
  | .getstatus => .getstatus

/-- Which reason of R97 makes a word illegal that no row selects. -/
def hostReject (cw : Word) : Reject :=
  if opcField cw = 0#4 ∨ 0xB#4 ≤ opcField cw then .reservedOpcode
  else if rsvField cw ≠ 0#2 then .reservedField
  else .unusedOperandBits

/-- Decoding of a host command word (R91 to R97). -/
def decodeHost (cw : Word) : Except Reject Instr :=
  match hostRows.find? (fun r => r.selects cw) with
  | some r => .ok (r.op.build cw)
  | none => .error (hostReject cw)

/-! ## The command byte of a wire transaction -/

/-- The code of a wire command run alone: its command byte (R99), and which of its two argument lists the sub-sequence
on whose behalf it is sent selects (R156, R157). DESIGN CHOICE, log entry 10: the second part has no bits on the wire. -/
structure WireWord where
  op : Byte
  use : RegUse
  deriving DecidableEq, Repr

/-- The nineteen wire commands, in the order of the table of R107. -/
def wireInstrs : List Instr :=
  [.booster, .powerset, .poweron, .panelset, .pllctl, .resolution, .vcomdc .settings, .interval .settings] ++
  [.lutVcom, .lutW2w, .lutB2w, .lutW2b, .lutB2b] ++
  [.plane0data, .plane1data, .refreshtrig, .datastop, .poweroff, .statusread]

/-- The wire command with the other use, where it has two (R156, R157). -/
def withUse (i : Instr) (use : RegUse) : Except Reject Instr :=
  match use with
  | .settings => .ok i
  | .defaults =>
    if i = .vcomdc .settings then .ok (.vcomdc .defaults)
    else if i = .interval .settings then .ok (.interval .defaults)
    else .error .noDefaultUse

/-- Decoding of a wire command: the command of the table of R107 whose command byte it is. Where two commands have the
same byte, the first (DESIGN CHOICE, log entry 11). -/
def decodeWire (c : Config) (w : WireWord) : Except Reject Instr :=
  match wireInstrs.find? (fun i => i.commandByte c == some w.op) with
  | some i => withUse i w.use
  | none => .error .unknownCommandByte

/-! ## Encoding -/

/-- The code of an instruction: a host command word, or a wire command's code. -/
inductive Code where
  | host (cw : Word)
  | wire (w : WireWord)
  deriving DecidableEq, Repr

/-- The word of a host command: `opc`, `rsv`, `c`, `y`, `x` from bit 31 down (R91). -/
def hostWord (opc : BitVec 4) (c : BitVec 2) (y : BitVec 16) (x : BitVec 8) : Word :=
  opc ++ 0#2 ++ c ++ y ++ x

/-- The `x` field that holds only a flag (R94, R95). -/
def flagByte (b : Bool) : BitVec 8 := if b then 1#8 else 0#8

/-- Encoding (R91 to R96, R107), the codes of a well-formed instruction. -/
def encode (c : Config) (i : Instr) : Code :=
  match i with
  | .clear => .host (hostWord 0x1#4 0#2 0#16 0#8)
  | .setpixel x y col => .host (hostWord 0x2#4 col y x)
  | .testpat => .host (hostWord 0x3#4 0#2 0#16 0#8)
  | .setmode m => .host (hostWord 0x4#4 0#2 0#16 (flagByte m.flag))
  | .refresh f => .host (hostWord 0x5#4 0#2 0#16 (flagByte f))
  | .quickdraw => .host (hostWord 0x6#4 0#2 0#16 0#8)
  | .resethw => .host (hostWord 0x7#4 0#2 0#16 0#8)
  | .powerup => .host (hostWord 0x8#4 0#2 0#16 0#8)
  | .powerdown => .host (hostWord 0x9#4 0#2 0#16 0#8)
  | .getstatus => .host (hostWord 0xA#4 0#2 0#16 0#8)
  | .booster => .wire ⟨c.ops.booster, .settings⟩
  | .powerset => .wire ⟨c.ops.powerset, .settings⟩
  | .poweron => .wire ⟨c.ops.poweron, .settings⟩
  | .panelset => .wire ⟨c.ops.panelset, .settings⟩
  | .pllctl => .wire ⟨c.ops.pllctl, .settings⟩
  | .resolution => .wire ⟨c.ops.resolution, .settings⟩
  | .vcomdc u => .wire ⟨c.ops.vcomdc, u⟩
  | .interval u => .wire ⟨c.ops.interval, u⟩
  | .lutVcom => .wire ⟨c.ops.lutVcom, .settings⟩
  | .lutW2w => .wire ⟨c.ops.lutW2w, .settings⟩
  | .lutB2w => .wire ⟨c.ops.lutB2w, .settings⟩
  | .lutW2b => .wire ⟨c.ops.lutW2b, .settings⟩
  | .lutB2b => .wire ⟨c.ops.lutB2b, .settings⟩
  | .plane0data => .wire ⟨c.ops.plane0data, .settings⟩
  | .plane1data => .wire ⟨c.ops.plane1data, .settings⟩
  | .refreshtrig => .wire ⟨c.ops.refreshtrig, .settings⟩
  | .datastop => .wire ⟨c.ops.datastop, .settings⟩
  | .poweroff => .wire ⟨c.ops.poweroff, .settings⟩
  | .statusread => .wire ⟨c.ops.statusread, .settings⟩

/-- Decoding of either code. -/
def decode (c : Config) (code : Code) : Except Reject Instr :=
  match code with
  | .host cw => decodeHost cw
  | .wire w => decodeWire c w

/-- How a host command is written in a listing (R110): lower case, operands in decimal, separated by commas. A wire
command has no spelling of its own. -/
def listing (i : Instr) : Option String :=
  match i with
  | .clear => some "clear"
  | .setpixel x y c => some ("setpixel " ++ x.toNat.repr ++ ", " ++ y.toNat.repr ++ ", " ++ c.toNat.repr)
  | .testpat => some "testpat"
  | .setmode .mono => some "setmode mono"
  | .setmode .grey4 => some "setmode grey4"
  | .refresh true => some "refresh full"
  | .refresh false => some "refresh fast"
  | .quickdraw => some "quickdraw"
  | .resethw => some "resethw"
  | .powerup => some "powerup"
  | .powerdown => some "powerdown"
  | .getstatus => some "getstatus"
  | .booster => none
  | .powerset => none
  | .poweron => none
  | .panelset => none
  | .pllctl => none
  | .resolution => none
  | .vcomdc _ => none
  | .interval _ => none
  | .lutVcom => none
  | .lutW2w => none
  | .lutB2w => none
  | .lutW2b => none
  | .lutB2b => none
  | .plane0data => none
  | .plane1data => none
  | .refreshtrig => none
  | .datastop => none
  | .poweroff => none
  | .statusread => none

/-- The instruction the decoder reads from a word numbered as spec/opcode_table.json numbers it: 32 bits are a host
command word, 8 bits the command byte of a wire transaction under the device's configuration, whose command bytes are
free values; no other width is a row of the table. -/
def decodeTableWord (nbits w : Nat) : Option Instr :=
  if nbits = 32 then
    if w < 2 ^ 32 then (decodeHost (BitVec.ofNat 32 w)).toOption else none
  else if nbits = 8 then
    if w < 2 ^ 8 then (decodeWire LegalConfig.device.raw ⟨BitVec.ofNat 8 w, .settings⟩).toOption else none
  else none

end Sys2Proof
end

