-- ==== Sys2Proof/Machine/Dirty.lean ====
section
/-!
DEFINITION. The dirty rectangle: its four registers, the values `EMPTY` and `FULL`, and its update law
(spec/10_state.md R26 to R28, spec/40_framebuffer_ops.md R132, R136). The arithmetic is on naturals, so nothing wraps.
-/

namespace Sys2Proof.Machine

/-- The dirty rectangle, four registers with the widths of R26. -/
structure Dirty where
  minX : BitVec 8
  maxX : BitVec 9
  minY : BitVec 16
  maxY : BitVec 16
  deriving DecidableEq, Repr

/-- `x & ~7` on naturals: `8*floor(x/8)` (R13, R136). -/
def alignDown8 (x : Nat) : Nat := 8 * (x / 8)

/-- `EMPTY` (R27). -/
def Dirty.empty : Dirty := ⟨255#8, 0#9, 0xFFFF#16, 0#16⟩

/-- `FULL` of a geometry (R28). -/
def Dirty.full (w h : Nat) : Dirty :=
  ⟨0#8, BitVec.ofNat 9 (alignDown8 (w - 1) + 8), 0#16, BitVec.ofNat 16 h⟩

/-- The dirty rectangle that clearing leaves (R45, R130). -/
def Dirty.afterClear (c : Config) : Dirty :=
  if c.clearMarksFull then Dirty.full c.width c.height else Dirty.empty

/-- `dirtyEmpty`: `maxX = 0` (R27). -/
def Dirty.isEmpty (d : Dirty) : Bool := d.maxX == 0#9

/-- The update law of SETPIXEL (R132): the alignment is of `x`, in X only, and `maxX` is not clamped to the width. -/
def Dirty.touch (d : Dirty) (x y : Nat) : Dirty where
  minX := BitVec.ofNat 8 (min d.minX.toNat (alignDown8 x))
  maxX := BitVec.ofNat 9 (max d.maxX.toNat (alignDown8 x + 8))
  minY := BitVec.ofNat 16 (min d.minY.toNat y)
  maxY := BitVec.ofNat 16 (max d.maxY.toNat (y + 1))

end Sys2Proof.Machine
end

