-- ==== Sys2Proof/Machine/State.lean ====
section
/-!
DEFINITION. The state of the block (spec/10_state.md), as plain data, with its value after reset (R45), and the reasons
a step can stop. The last four fields are the model's own: the host's requests and the values returned to it, a wire
command to be run alone, and what the environment will answer.
-/

namespace Sys2Proof.Machine

/-- The protocol state (R32). `deepSleep` is never produced. -/
inductive PState where
  | uninitialized
  | poweredDown
  | poweredUp
  | deepSleep
  deriving DecidableEq, Repr

/-- The outcome of the most recent host command (R35). -/
inductive ResultCode where
  | ok
  | outOfBounds
  | illegalCommand
  deriving DecidableEq, Repr

/-- An event of the panel-side interface (R101). -/
inductive Event where
  /-- `RST(l)`: drive the controller's reset line to a level. -/
  | rst (level : Bool)
  /-- `SLEEP(n)`: ask the environment to wait `n` milliseconds. -/
  | sleep (ms : Nat)
  /-- `TS`: transaction start. -/
  | ts
  /-- `C(b)`: a byte in command framing. -/
  | c (b : Byte)
  /-- `D(b)`: a byte in data framing. -/
  | d (b : Byte)
  /-- `RD(v)`: a byte received in data framing. -/
  | rd (v : Byte)
  /-- `TE`: transaction end. -/
  | te
  deriving DecidableEq, Repr

/-- The sequencer's step position (R37): Idle, or the command being executed and how many of its events are emitted. -/
inductive SeqPc where
  | idle
  | running (cmd : Instr) (k : Nat)
  deriving DecidableEq, Repr

/-- A plane: the bytes that differ from the reset contents `0x00`, by index (R22, R45). -/
abbrev Memory := List Host.Cell

/-- What the host may ask of the block, one at a time: a write to the command port (R91), a read of a register or of a
plane window (R69), a reset (R260). -/
inductive Request where
  | command (cw : Word)
  | readReg (index : Nat)
  | readPlane (plane : PlaneId) (index : Nat)
  | reset
  deriving DecidableEq, Repr

/-- What a host read returns: a register word or a plane byte (R66, R69). -/
inductive Response where
  | reg (v : Word)
  | plane (v : Byte)
  deriving DecidableEq, Repr

/-- What the environment will answer (R270). DESIGN CHOICE, log entries 4 and 6. -/
structure Env where
  /-- How many more `SLEEP`s it completes; `none`: every one. -/
  sleeps : Option Nat
  /-- How many more status bytes it returns; `none`: every one. -/
  replies : Option Nat
  /-- How many status bytes it has returned: the counter of `Config.freeStatusByte`. -/
  draws : Nat
  deriving DecidableEq, Repr

/-- The state of the block. -/
structure State where
  /-- The configuration, fixed for the life of the block (R6 to R12); carried here as a constant (log entry 1). -/
  cfg : LegalConfig
  /-- Plane 0 (R22). -/
  p0 : Memory
  /-- Plane 1 (R22). -/
  p1 : Memory
  /-- The dirty rectangle (R26). -/
  dirty : Dirty
  /-- `screenMode` (R30). -/
  screenMode : ScreenMode
  /-- `initialized` (R31). -/
  initialized : Bool
  /-- `pstate` (R32). -/
  pstate : PState
  /-- `RESULT` (R35). -/
  result : ResultCode
  /-- `PANEL_STATUS` (R36). -/
  panelStatus : Byte
  /-- `seq_pc` (R37). -/
  seqPc : SeqPc
  /-- `OUT`, oldest first (R38). -/
  out : List Event
  /-- The model's own: the host's pending requests, oldest first (log entry 7). -/
  requests : List Request
  /-- The model's own: the values host reads have returned, oldest first (log entry 7). -/
  responses : List Response
  /-- The model's own: a wire command about to be run alone (log entry 9). -/
  wireFetch : Option WireWord
  /-- The model's own: what the environment will answer (log entries 4 and 6). -/
  env : Env
  deriving DecidableEq, Repr

/-- The reasons the machine stops with a fault: the spec has none. Both its exceptions are recorded in `RESULT` and the
block goes on (R230, R236); a wait that never ends is not a fault (R270, U20). -/
inductive Fault where
  deriving DecidableEq, Repr

/-- The reasons a step is refused. -/
inductive Refusal where
  /-- Raised by an arm of exec whose instruction has no meaning yet; safe. No arm is. -/
  | notModelled (mnemonic : String)
  /-- Raised by step for a host read of a register index above 4 or a plane index of N or more: "it has no step and
  returns no value" (R70, U9); safe. -/
  | readOutsideMap
  /-- Raised by step for a reset asked while a command runs: not defined (U10); safe. -/
  | resetWhileBusy
  /-- Raised by step for a wire command to be run alone whose code is none of the nineteen commands (R169); safe. -/
  | unknownWireCommand
  deriving DecidableEq, Repr

/-- The configuration record of a state. -/
abbrev State.conf (s : State) : Config := s.cfg.raw

/-- The state after reset with a legal configuration (R45, R112, R260). -/
def State.construct (c : LegalConfig) : State where
  cfg := c
  p0 := []
  p1 := []
  dirty := Dirty.afterClear c.raw
  screenMode := c.raw.mode0
  initialized := false
  pstate := .uninitialized
  result := .ok
  panelStatus := 0x00#8
  seqPc := .idle
  out := []
  requests := []
  responses := []
  wireFetch := none
  env := ⟨none, none, 0⟩

/-- Reset with a configuration record: a malformed one is refused (R264, U8). -/
def State.constructFrom (c : Config) : Option State := c.check.map State.construct

/-- The machine right after reset (R45), with the device's configuration (log entry 2). -/
def State.reset : State := State.construct LegalConfig.device

end Sys2Proof.Machine
end

