-- ==== Sys2Proof/Machine/Flags.lean ====
section
/-!
DEFINITION. The flag-like state and its codes: `RESULT`, `pstate`, the mode, the revision and the bit order as numbers,
and the five host-visible registers built of them (spec/10_state.md R30 to R43). The block has no arithmetic flags
(R47, R137).
-/

namespace Sys2Proof.Machine

/-- The coding of `RESULT` (R35, R230). -/
def ResultCode.code : ResultCode → BitVec 2
  | .ok => 0#2
  | .outOfBounds => 1#2
  | .illegalCommand => 2#2

/-- The coding of `pstate` (R32, R40). -/
def PState.code : PState → BitVec 2
  | .uninitialized => 0#2
  | .poweredDown => 1#2
  | .poweredUp => 2#2
  | .deepSleep => 3#2

/-- The coding of `REV` (R39). -/
def revBit : Rev → Bool
  | .revisionA => false
  | .revisionB => true

/-- The coding of `BIT_ORDER` (R39). -/
def bitOrderBit : BitOrder → Bool
  | .msbFirst => false
  | .lsbFirst => true

/-- REG index 0, `GEOM` (R39). -/
def State.geomReg (s : State) : Word :=
  0#6 ++ BitVec.ofBool (bitOrderBit s.conf.bitOrder) ++ BitVec.ofBool (revBit s.conf.rev) ++
    BitVec.ofNat 16 s.conf.height ++ BitVec.ofNat 8 s.conf.width

/-- REG index 1, `STATUS` (R40). -/
def State.statusReg (s : State) : Word :=
  0#26 ++ s.result.code ++ BitVec.ofBool s.screenMode.flag ++ BitVec.ofBool s.initialized ++ s.pstate.code

/-- REG index 2, `DIRTY_X` (R41). -/
def State.dirtyXReg (s : State) : Word := 0#7 ++ s.dirty.maxX ++ 0#8 ++ s.dirty.minX

/-- REG index 3, `DIRTY_Y` (R42). -/
def State.dirtyYReg (s : State) : Word := s.dirty.maxY ++ s.dirty.minY

/-- REG index 4, `PSTAT` (R43). -/
def State.pstatReg (s : State) : Word := 0#24 ++ s.panelStatus

end Sys2Proof.Machine
end

