-- ==== Sys2Proof/Machine/Operands.lean ====
section
/-!
DEFINITION. Operand forms: where a pixel's bit lies in the planes (spec/10_state.md R23, R24, spec/20_memory.md R62,
spec/40_framebuffer_ops.md R135), and the operand bytes of the wire commands (spec/30_encoding.md R107, R108), each
taken from the state's configuration and mode.
-/

namespace Sys2Proof.Machine

/-- The linear bit offset `o = x + y*W` (R23, R135), computed exactly. -/
def pixelOffset (w x y : Nat) : Nat := x + y * w

/-- The byte of a plane that holds bit offset `o` (R24). -/
def byteIndex (o : Nat) : Nat := o / 8

/-- `pmask(o)`, the single-bit mask of bit offset `o` inside its byte (R24). -/
def pmask (order : BitOrder) (o : Nat) : Byte :=
  match order with
  | .msbFirst => 0x80#8 >>> (o % 8)
  | .lsbFirst => 0x01#8 <<< (o % 8)

/-- Whether `(x, y)` lies inside the geometry (R131). -/
def inPanel (c : Config) (x y : Nat) : Bool := decide (x < c.width) && decide (y < c.height)

/-- An argument list `X_ARGS[REV][mode]` (R10), for the mode held in `screenMode` (R192). -/
def State.args (s : State) (t : RegArgs) : List Byte := (t.get s.conf.rev).get s.screenMode

/-- A default argument list `X_DEFAULT_ARGS[REV]` (R10). -/
def State.defaultArgs (s : State) (t : PerRev (List Byte)) : List Byte := t.get s.conf.rev

/-- The LUT set the sequencer sends: `LUT[REV][Grey4]` (R185). -/
def State.grey4Lut (s : State) : LutSet := (s.conf.lut.get s.conf.rev).grey4

/-- The three data bytes of RESOLUTION: the width, then the height high byte first (R108). -/
def resolutionBytes (c : Config) : List Byte :=
  [BitVec.ofNat 8 c.width, BitVec.ofNat 8 (c.height >>> 8), BitVec.ofNat 8 (c.height &&& 0xFF)]

/-- Whether the PLL step is sent in the current mode (R154). -/
def State.pllSent (s : State) : Bool :=
  match s.conf.pllPolicy.get s.conf.rev with
  | .always => true
  | .grey4Only => decide (s.screenMode = .grey4)
  | .never => false

/-- The argument list of VCOMDC in one of its two uses (R156). -/
def State.vcomdcArgs (s : State) : RegUse → List Byte
  | .settings => s.args s.conf.vcomdcArgs
  | .defaults => s.defaultArgs s.conf.vcomdcDefaultArgs

/-- The argument list of INTERVAL in one of its two uses (R157). -/
def State.intervalArgs (s : State) : RegUse → List Byte
  | .settings => s.args s.conf.intervalArgs
  | .defaults => s.defaultArgs s.conf.intervalDefaultArgs

end Sys2Proof.Machine
end

