-- ==== Sys2Proof/Machine/Ops.lean ====
section
/-!
DEFINITION. The named operations over memory and registers: reading and writing a plane, setting a pixel's bit, reading
a pixel, the register space, emitting events, ending a command, and raising an exception.
-/

namespace Sys2Proof.Machine

/-! ## Plane memory (spec/20_memory.md R61, R66) -/

/-- The byte at an index; a byte that is not listed reads as the reset contents `0x00` (R45). -/
def Memory.read (m : Memory) (i : Nat) : Byte :=
  match m with
  | [] => 0x00#8
  | (a, v) :: rest => if a = i then v else Memory.read rest i

/-- Writing one byte; writing `0x00` leaves no entry. -/
def Memory.write (m : Memory) (i : Nat) (v : Byte) : Memory :=
  match m with
  | [] => if v = 0x00#8 then [] else [(i, v)]
  | (a, b) :: rest =>
    if i < a then (if v = 0x00#8 then (a, b) :: rest else (i, v) :: (a, b) :: rest)
    else if i = a then (if v = 0x00#8 then rest else (i, v) :: rest)
    else (a, b) :: Memory.write rest i v

/-- The canonical form from an address on: addresses rising, no entry `0x00`. -/
def Memory.wfFrom (lo : Nat) (m : Memory) : Bool :=
  match m with
  | [] => true
  | (a, v) :: rest => decide (lo ≤ a) && decide (v ≠ 0x00#8) && Memory.wfFrom (a + 1) rest

/-- The canonical form of a plane, in which equal planes are equal lists. -/
def Memory.wf (m : Memory) : Bool := Memory.wfFrom 0 m

/-- Every listed byte lies below `n` (R61). -/
def Memory.within (n : Nat) (m : Memory) : Bool := m.all (fun e => decide (e.1 < n))

/-- The bytes `P[0] .. P[n-1]`, ascending (R78). -/
def Memory.bytes (m : Memory) (n : Nat) : List Byte := (List.range n).map (fun i => m.read i)

/-- Sets or clears the bits of a mask in one byte (R131). -/
def Memory.setBits (m : Memory) (i : Nat) (mask : Byte) (b : Bool) : Memory :=
  m.write i (if b then m.read i ||| mask else m.read i &&& ~~~mask)

/-- One of the two planes. -/
def State.plane (s : State) : PlaneId → Memory
  | .plane0 => s.p0
  | .plane1 => s.p1

/-- Writes one whole byte of one plane (R134). -/
def State.writePlane (s : State) (p : PlaneId) (i : Nat) (v : Byte) : State :=
  match p with
  | .plane0 => { s with p0 := s.p0.write i v }
  | .plane1 => { s with p1 := s.p1.write i v }

/-- `N` (R6). -/
def State.planeBytes (s : State) : Nat := s.conf.planeBytes

/-! ## Pixels -/

/-- Writes a colour's two bits at a pixel inside the geometry: plane 0 takes bit 0, plane 1 bit 1 (R131). -/
def State.writePixel (s : State) (x y : Nat) (color : BitVec 2) : State :=
  let o := pixelOffset s.conf.width x y
  let mask := pmask s.conf.bitOrder o
  { s with
    p0 := s.p0.setBits (byteIndex o) mask (color.getLsbD 0)
    p1 := s.p1.setBits (byteIndex o) mask (color.getLsbD 1) }

/-- Whether the bit at a bit offset of a plane is set (R24, R138). -/
def Memory.bitAt (m : Memory) (order : BitOrder) (o : Nat) : Bool :=
  decide (m.read (byteIndex o) &&& pmask order o ≠ 0x00#8)

/-- `getPixel(x, y) = b0 + 2*b1`, the host's computation over the plane windows (R138). -/
def State.getPixel (s : State) (x y : Nat) : Nat :=
  let o := pixelOffset s.conf.width x y
  (s.p0.bitAt s.conf.bitOrder o).toNat + 2 * (s.p1.bitAt s.conf.bitOrder o).toNat

/-! ## Register space (spec/10_state.md R39 to R43) -/

/-- The register at an index, 0 to 4; any other index is outside the map (R69, R70). -/
def State.readReg (s : State) (index : Nat) : Option Word :=
  match index with
  | 0 => some s.geomReg
  | 1 => some s.statusReg
  | 2 => some s.dirtyXReg
  | 3 => some s.dirtyYReg
  | 4 => some s.pstatReg
  | _ => none

/-- The byte at an index of a plane window; an index of `N` or more is outside the map (R69, R70). -/
def State.readWindow (s : State) (p : PlaneId) (index : Nat) : Option Byte :=
  if index < s.planeBytes then some ((s.plane p).read index) else none

/-! ## The event stream and the step position -/

/-- Emitting `n` events adds `n` to the step position of a running command (R37). -/
def SeqPc.advance (pc : SeqPc) (n : Nat) : SeqPc :=
  match pc with
  | .idle => .idle
  | .running cmd k => .running cmd (k + n)

/-- Appends events to `OUT` (R13, R38, R74). -/
def State.emit (s : State) (es : List Event) : State :=
  { s with out := s.out ++ es, seqPc := s.seqPc.advance es.length }

/-- `CMD(op, bs)`, one whole transaction (R101). -/
def transaction (op : Byte) (bs : List Byte) : List Event :=
  [Event.ts, Event.c op] ++ bs.map Event.d ++ [Event.te]

/-! ## Ending a command -/

/-- The end of a command that raises nothing: `RESULT <- OK` (R236) and `seq_pc <- Idle` (R37). -/
def State.complete (s : State) : State := { s with result := .ok, seqPc := .idle }

/-- Raising an exception: `RESULT <- code`, `seq_pc <- Idle`, nothing else; there is no vector, no saved state and no
mode change (R236). Nothing returns from it: the block is Idle and accepts its next command (R237). -/
def raise (code : ResultCode) (s : State) : State := { s with result := code, seqPc := .idle }

/-! ## The environment's answers (spec/70_reset_and_hazards.md R270) -/

/-- One completed `SLEEP`, or `none` if the environment completes no more. -/
def Env.takeSleep (e : Env) : Option Env :=
  match e.sleeps with
  | none => some e
  | some 0 => none
  | some (n + 1) => some { e with sleeps := some n }

/-- One returned status byte, or `none` if the environment returns no more. -/
def Env.takeReply (e : Env) : Option Env :=
  match e.replies with
  | none => some { e with draws := e.draws + 1 }
  | some 0 => none
  | some (n + 1) => some { e with replies := some n, draws := e.draws + 1 }

/-- The byte the next status read receives: any byte (R188). -/
def Env.nextReply (e : Env) : Byte := Config.freeStatusByte e.draws

/-- Whether the environment completes at least `n` more `SLEEP`s. -/
def Env.completes (e : Env) (n : Nat) : Bool :=
  match e.sleeps with
  | none => true
  | some m => decide (n ≤ m)

/-- Whether the environment returns at least `n` more status bytes. -/
def Env.answers (e : Env) (n : Nat) : Bool :=
  match e.replies with
  | none => true
  | some m => decide (n ≤ m)

/-- The environment after it has completed `n` `SLEEP`s and returned `r` status bytes. -/
def Env.after (e : Env) (n r : Nat) : Env :=
  { sleeps := e.sleeps.map (fun m => m - n), replies := e.replies.map (fun m => m - r), draws := e.draws + r }

end Sys2Proof.Machine
end

