-- ==== Sys2Proof/Machine/Sequencer.lean ====
section
/-!
DEFINITION. How the sequencer runs a command (spec/10_state.md R37, spec/42_driver_ops.md R190 to R192): a list of
actions, done in order. Only two of them wait on the environment: a `SLEEP` until it completes, and a status read until
the byte arrives (spec/70_reset_and_hazards.md R270). A command whose wait is not answered stays running, at the step
position it has reached.
-/

namespace Sys2Proof.Machine

/-- What a sequence is made of: emitted events, the two waits, and the state writes of the sub-sequences. -/
inductive Action where
  /-- Emit a list of events. -/
  | emit (es : List Event)
  /-- Emit `SLEEP(ms)` and wait until the environment completes it (R241). -/
  | sleep (ms : Nat)
  /-- Wait until the environment returns a status byte (R188). -/
  | awaitReply
  /-- The end of `powerUp`: `pstate <- PoweredUp`, `initialized <- true` (R183). -/
  | poweredUp
  /-- The end of `powerDown`: `if pstate = PoweredUp: pstate <- PoweredDown` (R187). -/
  | poweredDown
  /-- The end of RESETHW: `pstate <- PoweredDown`, `initialized <- false` (R180). -/
  | hardwareReset
  /-- The dirty reset of `txPlanes` (R213). -/
  | dirtyEmpty
  /-- `PANEL_STATUS <- v` (R188). -/
  | latchStatus (v : Byte)
  /-- `RESULT <- OK`. -/
  | resultOk
  deriving DecidableEq, Repr

/-- How an action ends: done, or waiting on the environment. -/
inductive Progress where
  | done (s : State)
  | waiting (s : State)
  deriving DecidableEq, Repr

/-- `pstate` at the end of `powerDown` (R187, R189). -/
def PState.afterPowerDown : PState → PState
  | .poweredUp => .poweredDown
  | .uninitialized => .uninitialized
  | .poweredDown => .poweredDown
  | .deepSleep => .deepSleep

/-- One action. -/
def Action.perform (a : Action) (s : State) : Progress :=
  match a with
  | .emit es => .done (s.emit es)
  | .sleep ms =>
    match s.env.takeSleep with
    | some e => .done { s.emit [Event.sleep ms] with env := e }
    | none => .waiting (s.emit [Event.sleep ms])
  | .awaitReply =>
    match s.env.takeReply with
    | some e => .done { s with env := e }
    | none => .waiting s
  | .poweredUp => .done { s with pstate := .poweredUp, initialized := true }
  | .poweredDown => .done { s with pstate := s.pstate.afterPowerDown }
  | .hardwareReset => .done { s with pstate := .poweredDown, initialized := false }
  | .dirtyEmpty => .done { s with dirty := Dirty.empty }
  | .latchStatus v => .done { s with panelStatus := v }
  | .resultOk => .done { s with result := .ok }

/-- The actions in order; after the last one the block is Idle (R37). -/
def runActions (as : List Action) (s : State) : State :=
  match as with
  | [] => { s with seqPc := .idle }
  | a :: rest =>
    match a.perform s with
    | .done s' => runActions rest s'
    | .waiting s' => s'

/-- Accepting a command sets `seq_pc <- (cmd, 0)` and then its actions run (R37). -/
def runCommand (cmd : Instr) (as : List Action) (s : State) : State :=
  runActions as { s with seqPc := .running cmd 0 }

end Sys2Proof.Machine
end

