-- ==== Sys2Proof/Machine/Wire.lean ====
section
/-!
DEFINITION. The nineteen wire commands (spec/41_wire_commands.md): for each, the events it emits, and its meaning as an
instruction of its own. A wire command changes no state of the block but the event stream; the state changes belong to
the sub-sequence that emits it. The mode is the value of `screenMode` (R192).
-/

namespace Sys2Proof.Machine

/-- A transaction that is sent only in Grey4 mode (R158 to R162, R185). -/
def grey4Only (s : State) (es : List Event) : List Event :=
  if s.screenMode = .grey4 then es else []

/-- The data bytes of PLANE0DATA (R163, R210). -/
def plane0Payload (s : State) : List Byte :=
  match s.screenMode with
  | .grey4 => s.p0.bytes s.planeBytes
  | .mono => List.replicate s.planeBytes 0x00#8

/-- The events of BOOSTER (R150). -/
def boosterEvents (s : State) : List Event :=
  transaction s.conf.ops.booster (s.args s.conf.boosterArgs)

/-- The events of POWERSET (R151). -/
def powersetEvents (s : State) : List Event :=
  transaction s.conf.ops.powerset (s.args s.conf.powersetArgs)

/-- The events of POWERON (R152). No data bytes. -/
def poweronEvents (s : State) : List Event :=
  transaction s.conf.ops.poweron []

/-- The events of PANELSET (R153). -/
def panelsetEvents (s : State) : List Event :=
  transaction s.conf.ops.panelset (s.args s.conf.panelsetArgs)

/-- The events of PLLCTL (R154). When the policy does not allow it, nothing at all. -/
def pllctlEvents (s : State) : List Event :=
  if s.pllSent then transaction s.conf.ops.pllctl (s.args s.conf.pllctlArgs) else []

/-- The events of RESOLUTION (R155). -/
def resolutionEvents (s : State) : List Event :=
  transaction s.conf.ops.resolution (resolutionBytes s.conf)

/-- The events of VCOMDC (R156). Two uses. -/
def vcomdcEvents (use : RegUse) (s : State) : List Event :=
  transaction s.conf.ops.vcomdc (s.vcomdcArgs use)

/-- The events of INTERVAL (R157). Two uses. -/
def intervalEvents (use : RegUse) (s : State) : List Event :=
  transaction s.conf.ops.interval (s.intervalArgs use)

/-- The events of LUT_VCOM (R158). Grey4 only. -/
def lutVcomEvents (s : State) : List Event :=
  grey4Only s (transaction s.conf.ops.lutVcom s.grey4Lut.vcom)

/-- The events of LUT_W2W (R159). Grey4 only. -/
def lutW2wEvents (s : State) : List Event :=
  grey4Only s (transaction s.conf.ops.lutW2w s.grey4Lut.w2w)

/-- The events of LUT_B2W (R160). Grey4 only. -/
def lutB2wEvents (s : State) : List Event :=
  grey4Only s (transaction s.conf.ops.lutB2w s.grey4Lut.b2w)

/-- The events of LUT_W2B (R161). Grey4 only. -/
def lutW2bEvents (s : State) : List Event :=
  grey4Only s (transaction s.conf.ops.lutW2b s.grey4Lut.w2b)

/-- The events of LUT_B2B (R162). Grey4 only. -/
def lutB2bEvents (s : State) : List Event :=
  grey4Only s (transaction s.conf.ops.lutB2b s.grey4Lut.b2b)

/-- The events of PLANE0DATA (R163). Real bits in Grey4, a zero fill of the same length in Mono. -/
def plane0dataEvents (s : State) : List Event :=
  transaction s.conf.ops.plane0data (plane0Payload s)

/-- The events of PLANE1DATA (R164). Real bits in both modes. -/
def plane1dataEvents (s : State) : List Event :=
  transaction s.conf.ops.plane1data (s.p1.bytes s.planeBytes)

/-- The events of REFRESHTRIG (R165). No data bytes. -/
def refreshtrigEvents (s : State) : List Event :=
  transaction s.conf.ops.refreshtrig []

/-- The events of DATASTOP (R166). No data bytes. -/
def datastopEvents (s : State) : List Event :=
  transaction s.conf.ops.datastop []

/-- The events of POWEROFF (R167). No data bytes. -/
def poweroffEvents (s : State) : List Event :=
  transaction s.conf.ops.poweroff []

/-- The events of STATUSREAD before the environment answers (R104, R168). -/
def statusreadRequest (s : State) : List Event := [Event.ts, Event.c s.conf.ops.statusread]

/-- The events of STATUSREAD once it has received `v` (R104, R168). -/
def statusreadReply (v : Byte) : List Event := [Event.rd v, Event.te]

/-- The actions of STATUSREAD that receives `v` (R168). -/
def statusreadActions (v : Byte) (s : State) : List Action :=
  [.emit (statusreadRequest s), .awaitReply, .emit (statusreadReply v)]

/-- BOOSTER (R150). -/
def execBooster (s : State) : Host.Outcome State Fault Refusal :=
  .next (runCommand .booster [.emit (boosterEvents s)] s)

/-- POWERSET (R151). -/
def execPowerset (s : State) : Host.Outcome State Fault Refusal :=
  .next (runCommand .powerset [.emit (powersetEvents s)] s)

/-- POWERON (R152). -/
def execPoweron (s : State) : Host.Outcome State Fault Refusal :=
  .next (runCommand .poweron [.emit (poweronEvents s)] s)

/-- PANELSET (R153). -/
def execPanelset (s : State) : Host.Outcome State Fault Refusal :=
  .next (runCommand .panelset [.emit (panelsetEvents s)] s)

/-- PLLCTL (R154). -/
def execPllctl (s : State) : Host.Outcome State Fault Refusal :=
  .next (runCommand .pllctl [.emit (pllctlEvents s)] s)

/-- RESOLUTION (R155). -/
def execResolution (s : State) : Host.Outcome State Fault Refusal :=
  .next (runCommand .resolution [.emit (resolutionEvents s)] s)

/-- VCOMDC (R156). -/
def execVcomdc (use : RegUse) (s : State) : Host.Outcome State Fault Refusal :=
  .next (runCommand (.vcomdc use) [.emit (vcomdcEvents use s)] s)

/-- INTERVAL (R157). -/
def execInterval (use : RegUse) (s : State) : Host.Outcome State Fault Refusal :=
  .next (runCommand (.interval use) [.emit (intervalEvents use s)] s)

/-- LUT_VCOM (R158). -/
def execLutVcom (s : State) : Host.Outcome State Fault Refusal :=
  .next (runCommand .lutVcom [.emit (lutVcomEvents s)] s)

/-- LUT_W2W (R159). -/
def execLutW2w (s : State) : Host.Outcome State Fault Refusal :=
  .next (runCommand .lutW2w [.emit (lutW2wEvents s)] s)

/-- LUT_B2W (R160). -/
def execLutB2w (s : State) : Host.Outcome State Fault Refusal :=
  .next (runCommand .lutB2w [.emit (lutB2wEvents s)] s)

/-- LUT_W2B (R161). -/
def execLutW2b (s : State) : Host.Outcome State Fault Refusal :=
  .next (runCommand .lutW2b [.emit (lutW2bEvents s)] s)

/-- LUT_B2B (R162). -/
def execLutB2b (s : State) : Host.Outcome State Fault Refusal :=
  .next (runCommand .lutB2b [.emit (lutB2bEvents s)] s)

/-- PLANE0DATA (R163). -/
def execPlane0data (s : State) : Host.Outcome State Fault Refusal :=
  .next (runCommand .plane0data [.emit (plane0dataEvents s)] s)

/-- PLANE1DATA (R164). -/
def execPlane1data (s : State) : Host.Outcome State Fault Refusal :=
  .next (runCommand .plane1data [.emit (plane1dataEvents s)] s)

/-- REFRESHTRIG (R165). -/
def execRefreshtrig (s : State) : Host.Outcome State Fault Refusal :=
  .next (runCommand .refreshtrig [.emit (refreshtrigEvents s)] s)

/-- DATASTOP (R166). -/
def execDatastop (s : State) : Host.Outcome State Fault Refusal :=
  .next (runCommand .datastop [.emit (datastopEvents s)] s)

/-- POWEROFF (R167). -/
def execPoweroff (s : State) : Host.Outcome State Fault Refusal :=
  .next (runCommand .poweroff [.emit (poweroffEvents s)] s)

/-- STATUSREAD (R168): the received byte goes into the event stream; `PANEL_STATUS` is written by GETSTATUS alone (R36). -/
def execStatusread (s : State) : Host.Outcome State Fault Refusal :=
  .next (runCommand .statusread (statusreadActions s.env.nextReply s) s)

end Sys2Proof.Machine
end

