-- ==== Sys2Proof/Machine/Driver.lean ====
section
/-!
DEFINITION. The sequencer commands RESETHW, SETMODE, POWERUP, POWERDOWN, GETSTATUS and the sub-sequences `powerUp` and
`powerDown` (spec/42_driver_ops.md).
-/

namespace Sys2Proof.Machine

/-- RESETHW's actions: idle high, active low, release high, each level held for `T_RST` (R180). -/
def resethwActions : List Action :=
  [.emit [Event.rst true], .sleep tRst, .emit [Event.rst false], .sleep tRst, .emit [Event.rst true], .sleep tRst,
   .hardwareReset, .resultOk]

/-- RESETHW (R180). -/
def execResethw (s : State) : Host.Outcome State Fault Refusal :=
  .next (runCommand .resethw resethwActions s)

/-- SETMODE (R181). -/
def execSetmode (m : ScreenMode) (s : State) : Host.Outcome State Fault Refusal :=
  .next { s with screenMode := m }.complete

/-- Step `S_LUTS`: five transactions in Grey4, nothing in Mono (R185). -/
def lutsActions (s : State) : List Action :=
  [.emit (lutVcomEvents s), .emit (lutW2wEvents s), .emit (lutB2wEvents s), .emit (lutW2bEvents s),
   .emit (lutB2bEvents s)]

/-- What each step of `powerUp` does (R183). -/
def puStepActions (s : State) (step : PuStep) : List Action :=
  match step with
  | .booster => [.emit (boosterEvents s)]
  | .powerset => [.emit (powersetEvents s)]
  | .poweron => [.emit (poweronEvents s)]
  | .ponwait => [.sleep (s.conf.tPon.get s.conf.rev)]
  | .panelset => [.emit (panelsetEvents s)]
  | .pllctl => [.emit (pllctlEvents s)]
  | .resolution => [.emit (resolutionEvents s)]
  | .vcomdc => [.emit (vcomdcEvents .settings s)]
  | .interval => [.emit (intervalEvents .settings s)]
  | .luts => lutsActions s

/-- Sub-sequence `powerUp`: the steps in `PU_ORDER[REV]`, then the state writes (R183, R186). -/
def powerUpActions (s : State) : List Action :=
  s.conf.puOrder.flatMap (puStepActions s) ++ [.poweredUp]

/-- Sub-sequence `powerDown`: three transactions in every `pstate`, then the state write (R187). -/
def powerDownActions (s : State) : List Action :=
  [.emit (intervalEvents .defaults s), .emit (vcomdcEvents .defaults s), .emit (poweroffEvents s), .poweredDown]

/-- POWERUP (R182). -/
def execPowerup (s : State) : Host.Outcome State Fault Refusal :=
  .next (runCommand .powerup (powerUpActions s ++ [.resultOk]) s)

/-- POWERDOWN (R187). -/
def execPowerdown (s : State) : Host.Outcome State Fault Refusal :=
  .next (runCommand .powerdown (powerDownActions s ++ [.resultOk]) s)

/-- GETSTATUS's actions when the byte received is `v` (R188). -/
def getstatusActions (v : Byte) (s : State) : List Action :=
  statusreadActions v s ++ [.latchStatus v, .resultOk]

/-- GETSTATUS (R188): the byte is a free value of each read. -/
def execGetstatus (s : State) : Host.Outcome State Fault Refusal :=
  .next (runCommand .getstatus (getstatusActions s.env.nextReply s) s)

end Sys2Proof.Machine
end

