-- ==== Sys2Proof/Machine/Framebuffer.lean ====
section
/-!
DEFINITION. The framebuffer commands CLEAR, SETPIXEL and TESTPAT (spec/40_framebuffer_ops.md). None of them emits an
event or reads sequencer state.
-/

namespace Sys2Proof.Machine

/-- CLEAR (R130): both planes all zero, the dirty rectangle as `CLEAR_MARKS_FULL` says. -/
def execClear (s : State) : Host.Outcome State Fault Refusal :=
  .next { s with p0 := [], p1 := [], dirty := Dirty.afterClear s.conf }.complete

/-- SETPIXEL (R131, R132, R133): the bounds check comes before anything is written. -/
def execSetpixel (x : BitVec 8) (y : BitVec 16) (c : BitVec 2) (s : State) : Host.Outcome State Fault Refusal :=
  .next (if inPanel s.conf x.toNat y.toNat then
    { s.writePixel x.toNat y.toNat c with dirty := s.dirty.touch x.toNat y.toNat }.complete
  else raise .outOfBounds s)

/-- The byte writes of `TEST_PATTERN`, in list order (R134). -/
def writePattern (pattern : List PatternByte) (s : State) : State :=
  pattern.foldl (fun t e => t.writePlane e.plane e.index e.value.toByte) s

/-- TESTPAT (R134). -/
def execTestpat (s : State) : Host.Outcome State Fault Refusal :=
  .next { writePattern s.conf.testPattern s with dirty := Dirty.full s.conf.width s.conf.height }.complete

end Sys2Proof.Machine
end

