-- ==== Sys2Proof/Machine/Refresh.lean ====
section
/-!
DEFINITION. The transmission commands REFRESH and QUICKDRAW and the sub-sequence `txPlanes` (spec/43_refresh_ops.md).
-/

namespace Sys2Proof.Machine

/-- Sub-sequence `txPlanes`: both planes whole, the turnaround delay between them, then the dirty reset (R210, R213). -/
def txPlanesActions (s : State) : List Action :=
  [.emit (plane0dataEvents s), .sleep tTurn, .emit (plane1dataEvents s), .dirtyEmpty]

/-- REFRESH's actions (R211). -/
def refreshActions (f : Bool) (s : State) : List Action :=
  powerUpActions s ++ txPlanesActions s ++
  [.emit (refreshtrigEvents s), .sleep (s.conf.tRefresh.get s.conf.rev)] ++
  (if f then powerDownActions s else []) ++ [.resultOk]

/-- REFRESH (R211). -/
def execRefresh (f : Bool) (s : State) : Host.Outcome State Fault Refusal :=
  .next (runCommand (.refresh f) (refreshActions f s) s)

/-- QUICKDRAW's actions (R212). -/
def quickdrawActions (s : State) : List Action :=
  (if s.conf.qdPowerup then powerUpActions s else []) ++ txPlanesActions s ++
  [.emit (datastopEvents s), .sleep s.conf.tQd, .resultOk]

/-- QUICKDRAW (R212). -/
def execQuickdraw (s : State) : Host.Outcome State Fault Refusal :=
  .next (runCommand .quickdraw (quickdrawActions s) s)

end Sys2Proof.Machine
end

