-- ==== Sys2Proof/Machine/Dispatch.lean ====
section
/-!
DEFINITION. One arm per instruction, each one direct call of its meaning.
-/

namespace Sys2Proof.Machine

def exec (i : Instr) (s : State) : Host.Outcome State Fault Refusal :=
  match i with
  | .clear => Sys2Proof.Machine.execClear s
  | .setpixel x y c => Sys2Proof.Machine.execSetpixel x y c s
  | .testpat => Sys2Proof.Machine.execTestpat s
  | .setmode m => Sys2Proof.Machine.execSetmode m s
  | .refresh f => Sys2Proof.Machine.execRefresh f s
  | .quickdraw => Sys2Proof.Machine.execQuickdraw s
  | .resethw => Sys2Proof.Machine.execResethw s
  | .powerup => Sys2Proof.Machine.execPowerup s
  | .powerdown => Sys2Proof.Machine.execPowerdown s
  | .getstatus => Sys2Proof.Machine.execGetstatus s
  | .booster => Sys2Proof.Machine.execBooster s
  | .powerset => Sys2Proof.Machine.execPowerset s
  | .poweron => Sys2Proof.Machine.execPoweron s
  | .panelset => Sys2Proof.Machine.execPanelset s
  | .pllctl => Sys2Proof.Machine.execPllctl s
  | .resolution => Sys2Proof.Machine.execResolution s
  | .vcomdc use => Sys2Proof.Machine.execVcomdc use s
  | .interval use => Sys2Proof.Machine.execInterval use s
  | .lutVcom => Sys2Proof.Machine.execLutVcom s
  | .lutW2w => Sys2Proof.Machine.execLutW2w s
  | .lutB2w => Sys2Proof.Machine.execLutB2w s
  | .lutW2b => Sys2Proof.Machine.execLutW2b s
  | .lutB2b => Sys2Proof.Machine.execLutB2b s
  | .plane0data => Sys2Proof.Machine.execPlane0data s
  | .plane1data => Sys2Proof.Machine.execPlane1data s
  | .refreshtrig => Sys2Proof.Machine.execRefreshtrig s
  | .datastop => Sys2Proof.Machine.execDatastop s
  | .poweroff => Sys2Proof.Machine.execPoweroff s
  | .statusread => Sys2Proof.Machine.execStatusread s

end Sys2Proof.Machine
end

