-- ==== Sys2Proof/Machine/HostPort.lean ====
section
/-!
DEFINITION. The host's side of the block: serving a register or plane read, and resetting the block
(spec/20_memory.md R68 to R70, spec/70_reset_and_hazards.md R260), and fetching the next command word.
-/

namespace Sys2Proof.Machine

/-- A register read: the value is returned and nothing of the block changes (R68); outside the map it is refused (R70). -/
def serveReadReg (index : Nat) (s : State) : Host.Outcome State Fault Refusal :=
  match s.readReg index with
  | some v => .next { s with responses := s.responses ++ [.reg v] }
  | none => .refused .readOutsideMap

/-- A plane window read: the value is returned and nothing of the block changes (R68); outside the map it is refused
(R70). -/
def serveReadPlane (p : PlaneId) (index : Nat) (s : State) : Host.Outcome State Fault Refusal :=
  match s.readWindow p index with
  | some v => .next { s with responses := s.responses ++ [.plane v] }
  | none => .refused .readOutsideMap

/-- A second reset is the same as the first: every piece of the block's state back to R45, `OUT` started again (R260).
What the host has asked and been answered, and what the environment will answer, are not the block's. -/
def resetBlock (s : State) : State :=
  { State.construct s.cfg with requests := s.requests, responses := s.responses, env := s.env }

/-- A command word waiting at the head of the host's requests, decoded (R91, R97), with the state that has taken it. -/
def takeCommand (cw : Word) (rest : List Request) (s : State) : Except Reject Instr × State :=
  (decodeHost cw, { s with requests := rest })

end Sys2Proof.Machine
end

