-- ==== Sys2Proof/Machine/Trace.lean ====
section
/-!
DEFINITION. Reading the event stream: the well-formedness of R101, the transactions a decoder of `OUT` finds (R102), the
delays it requests (R275), the waits it holds (R270), and the line-level view of R106.
-/

namespace Sys2Proof.Machine

/-- Where a reader of the stream stands: outside transactions, after `TS`, or after the command byte. -/
inductive BusPhase where
  | outside
  | opened
  | framed
  deriving DecidableEq, Repr

/-- What may come next (R101): one `C` directly after `TS`, then only `D` or `RD` up to `TE`; `RST` and `SLEEP` only
outside transactions; `none` for anything else. -/
def BusPhase.step (p : BusPhase) (e : Event) : Option BusPhase :=
  match p, e with
  | .outside, .rst _ => some .outside
  | .outside, .sleep _ => some .outside
  | .outside, .ts => some .opened
  | .opened, .c _ => some .framed
  | .framed, .d _ => some .framed
  | .framed, .rd _ => some .framed
  | .framed, .te => some .outside
  | _, _ => none

/-- Reading a stream from a phase on; `none` where it is not well formed. -/
def scanFrom (p : BusPhase) (es : List Event) : Option BusPhase :=
  match es with
  | [] => some p
  | e :: rest =>
    match p.step e with
    | some q => scanFrom q rest
    | none => none

/-- A well-formed stream of whole transactions (R101). -/
def traceWf (es : List Event) : Bool := scanFrom .outside es == some .outside

/-- A transaction as a reader of the stream finds it: its command byte and the bytes sent in data framing (R102). -/
structure Transaction where
  op : Byte
  data : List Byte
  deriving DecidableEq, Repr

/-- The bytes sent in data framing up to the first `TE` (R102). -/
def dataUpToEnd (es : List Event) : List Byte :=
  match es with
  | [] => []
  | .te :: _ => []
  | .d b :: rest => b :: dataUpToEnd rest
  | .rst _ :: rest => dataUpToEnd rest
  | .sleep _ :: rest => dataUpToEnd rest
  | .ts :: rest => dataUpToEnd rest
  | .c _ :: rest => dataUpToEnd rest
  | .rd _ :: rest => dataUpToEnd rest

/-- The transactions of a stream, in order: each command byte with the data bytes up to its `TE` (R102). -/
def transactionsOf (es : List Event) : List Transaction :=
  match es with
  | [] => []
  | .c op :: rest => ⟨op, dataUpToEnd rest⟩ :: transactionsOf rest
  | .rst _ :: rest => transactionsOf rest
  | .sleep _ :: rest => transactionsOf rest
  | .ts :: rest => transactionsOf rest
  | .d _ :: rest => transactionsOf rest
  | .rd _ :: rest => transactionsOf rest
  | .te :: rest => transactionsOf rest

/-- The sum of the delays a stream requests, in milliseconds (R275). -/
def requestedDelay (es : List Event) : Nat :=
  match es with
  | [] => 0
  | .sleep n :: rest => n + requestedDelay rest
  | .rst _ :: rest => requestedDelay rest
  | .ts :: rest => requestedDelay rest
  | .c _ :: rest => requestedDelay rest
  | .d _ :: rest => requestedDelay rest
  | .rd _ :: rest => requestedDelay rest
  | .te :: rest => requestedDelay rest

/-- Whether an event asks for a delay (R101). -/
def Event.isSleep (e : Event) : Bool :=
  match e with
  | .sleep _ => true
  | .rst _ => false
  | .ts => false
  | .c _ => false
  | .d _ => false
  | .rd _ => false
  | .te => false

/-- Whether an event is a received byte (R101). -/
def Event.isReceived (e : Event) : Bool :=
  match e with
  | .rd _ => true
  | .rst _ => false
  | .sleep _ => false
  | .ts => false
  | .c _ => false
  | .d _ => false
  | .te => false

/-- How many delays a stream asks for: the `SLEEP`s the environment has to complete (R270). -/
def sleepsIn (es : List Event) : Nat := es.countP Event.isSleep

/-- How many bytes a stream has received: the status bytes the environment has returned (R270). -/
def receivedIn (es : List Event) : Nat := es.countP Event.isReceived

/-! ## The lines (R106) -/

/-- What the block does to its panel-side lines (R106). -/
inductive LineAction where
  /-- Set the `DATA` line: active means data framing. -/
  | setData (active : Bool)
  /-- Set the `SELECT` line. -/
  | setSelect (active : Bool)
  /-- Drive `RESET` to a level. -/
  | setReset (level : Bool)
  /-- Hand a byte to the transport. -/
  | send (b : Byte)
  /-- Clock one byte and receive `v`. -/
  | receive (v : Byte)
  /-- Wait in milliseconds. -/
  | wait (ms : Nat)
  deriving DecidableEq, Repr

/-- Setting `DATA` active before the first byte in data framing of a transaction (R106). -/
def enterData (active : Bool) : List LineAction := if active then [] else [.setData true]

/-- The line-level refinement of a stream (R106), from a state of the `DATA` line on. -/
def linesFrom (dataActive : Bool) (es : List Event) : List LineAction :=
  match es with
  | [] => []
  | .rst l :: rest => .setReset l :: linesFrom dataActive rest
  | .sleep n :: rest => .wait n :: linesFrom dataActive rest
  | .ts :: rest => .setData false :: .setSelect true :: linesFrom false rest
  | .c b :: rest => .send b :: linesFrom dataActive rest
  | .d b :: rest => enterData dataActive ++ .send b :: linesFrom true rest
  | .rd v :: rest => enterData dataActive ++ .receive v :: linesFrom true rest
  | .te :: rest => .setSelect false :: linesFrom dataActive rest

/-- What the block has done to its lines since reset (R106). -/
def State.lines (s : State) : List LineAction := linesFrom false s.out

end Sys2Proof.Machine
end

