-- ==== Sys2Proof/Machine/Step.lean ====
section
/-!
DEFINITION. One step of the block: while Idle it takes the host's oldest request and serves it whole
(spec/10_state.md R37, spec/20_memory.md R67, R72); while a command waits on the environment for ever it does nothing
(spec/70_reset_and_hazards.md R270).
-/

namespace Sys2Proof.Machine

/-- Running a decoded host command; an illegal word raises `IllegalCommand` (R97, R233). -/
def runDecoded (d : Except Reject Instr × State) : Host.Outcome State Fault Refusal :=
  match d.1 with
  | .ok i => exec i d.2
  | .error _ => .next (raise .illegalCommand d.2)

/-- Running a wire command alone (log entry 9); a code that names none is refused (R169). -/
def runWire (w : WireWord) (s : State) : Host.Outcome State Fault Refusal :=
  match decodeWire s.conf w with
  | .ok i => exec i { s with wireFetch := none }
  | .error _ => .refused .unknownWireCommand

/-- Serving the host's oldest request while Idle; with none, the block stays as it is. -/
def serveRequest (s : State) : Host.Outcome State Fault Refusal :=
  match s.requests with
  | [] => .next s
  | .command cw :: rest => runDecoded (takeCommand cw rest s)
  | .readReg i :: rest => serveReadReg i { s with requests := rest }
  | .readPlane p i :: rest => serveReadPlane p i { s with requests := rest }
  | .reset :: rest => .next (resetBlock { s with requests := rest })

/-- While a command runs, nothing is accepted: a word or a read waits (R91, U10), and a reset is not defined (U10). -/
def stepBusy (s : State) : Host.Outcome State Fault Refusal :=
  match s.requests with
  | .reset :: _ => .refused .resetWhileBusy
  | _ => .next s

/-- One step. -/
def step (s : State) : Host.Outcome State Fault Refusal :=
  match s.seqPc with
  | .running _ _ => stepBusy s
  | .idle =>
    match s.wireFetch with
    | some w => runWire w s
    | none => serveRequest s

/-- The state in which the very next step fetches and runs the word `w`: 8 bits are a wire command run alone (log entry
9), 32 bits a command word the host writes (log entry 8). -/
def State.withFetchWord (s : State) (nbits w : Nat) : State :=
  if nbits = 8 then { s with seqPc := .idle, wireFetch := some ⟨BitVec.ofNat 8 w, .settings⟩ }
  else { s with seqPc := .idle, wireFetch := none, requests := .command (BitVec.ofNat 32 w) :: s.requests }

end Sys2Proof.Machine
end

