-- ==== Sys2Proof/Safety.lean ====
section
/-!
DEFINITION. The terms claims use: the invariant of the block, what each step of `powerUp` and each sub-sequence sends as
the spec's tables list it, the end values of `pstate` and `initialized`, and running several instructions in a row.
-/

namespace Sys2Proof.Machine

/-! ## The invariant -/

/-- Both planes are in canonical form and lie within `N` bytes (R22, R61). -/
def planesOk (s : State) : Prop :=
  s.p0.wf = true ∧ s.p1.wf = true ∧ s.p0.within s.planeBytes = true ∧ s.p1.within s.planeBytes = true

/-- The dirty rectangle is `EMPTY`, or it is not empty, aligned to 8 in X, and inside `FULL` (R26 to R28, R132). -/
def dirtyOk (s : State) : Prop :=
  s.dirty = Dirty.empty ∨
    (s.dirty.minX.toNat % 8 = 0 ∧ s.dirty.maxX.toNat % 8 = 0 ∧
      s.dirty.minX.toNat < s.dirty.maxX.toNat ∧ s.dirty.maxX.toNat ≤ 8 * ((s.conf.width - 1) / 8) + 8 ∧
      s.dirty.minY.toNat < s.dirty.maxY.toNat ∧ s.dirty.maxY.toNat ≤ s.conf.height)

/-- The event stream is well formed: whole transactions while Idle, and well formed so far while a command waits
(R101). -/
def streamOk (s : State) : Prop :=
  match s.seqPc with
  | .idle => scanFrom .outside s.out = some .outside
  | .running _ _ => (scanFrom .outside s.out).isSome = true

/-- A command is running only because the environment answers no more (R270). -/
def waitsOnEnvironment (s : State) : Prop :=
  match s.seqPc with
  | .idle => True
  | .running _ _ => s.env.sleeps = some 0 ∨ s.env.replies = some 0

/-- The invariant of the block. -/
structure Inv (s : State) : Prop where
  planes : planesOk s
  dirty : dirtyOk s
  stream : streamOk s
  waits : waitsOnEnvironment s
  /-- `DeepSleep` is never produced (R32). -/
  noDeepSleep : s.pstate ≠ .deepSleep

/-! ## What the sub-sequences send -/

/-- What the table of R183 says each step of `powerUp` emits. -/
def puStepEvents (s : State) (step : PuStep) : List Event :=
  let c := s.conf
  match step with
  | .booster => transaction c.ops.booster ((c.boosterArgs.get c.rev).get s.screenMode)
  | .powerset => transaction c.ops.powerset ((c.powersetArgs.get c.rev).get s.screenMode)
  | .poweron => transaction c.ops.poweron []
  | .ponwait => [Event.sleep (c.tPon.get c.rev)]
  | .panelset => transaction c.ops.panelset ((c.panelsetArgs.get c.rev).get s.screenMode)
  | .pllctl =>
    if c.pllPolicy.get c.rev = .always ∨ (c.pllPolicy.get c.rev = .grey4Only ∧ s.screenMode = .grey4)
    then transaction c.ops.pllctl ((c.pllctlArgs.get c.rev).get s.screenMode) else []
  | .resolution =>
    transaction c.ops.resolution
      [BitVec.ofNat 8 c.width, BitVec.ofNat 8 (c.height / 256), BitVec.ofNat 8 (c.height % 256)]
  | .vcomdc => transaction c.ops.vcomdc ((c.vcomdcArgs.get c.rev).get s.screenMode)
  | .interval => transaction c.ops.interval ((c.intervalArgs.get c.rev).get s.screenMode)
  | .luts =>
    if s.screenMode = .grey4 then
      transaction c.ops.lutVcom (c.lut.get c.rev).grey4.vcom ++
      transaction c.ops.lutW2w (c.lut.get c.rev).grey4.w2w ++
      transaction c.ops.lutB2w (c.lut.get c.rev).grey4.b2w ++
      transaction c.ops.lutW2b (c.lut.get c.rev).grey4.w2b ++
      transaction c.ops.lutB2b (c.lut.get c.rev).grey4.b2b
    else []

/-- What `powerUp` emits: the steps in `PU_ORDER[REV]` (R183, R186). -/
def powerUpEvents (s : State) : List Event := s.conf.puOrder.flatMap (puStepEvents s)

/-- What `powerDown` emits (R187). -/
def powerDownEvents (s : State) : List Event :=
  let c := s.conf
  transaction c.ops.interval (c.intervalDefaultArgs.get c.rev) ++
  transaction c.ops.vcomdc (c.vcomdcDefaultArgs.get c.rev) ++
  transaction c.ops.poweroff []

/-- The bytes `P[0] .. P[N-1]` of a plane (R78). -/
def planeList (s : State) (p : PlaneId) : List Byte :=
  (List.range s.planeBytes).map (fun i => (s.plane p).read i)

/-- The data bytes sent for plane 0: its real bits in Grey4, `N` zero bytes in Mono (R163, R210). -/
def plane0Sent (s : State) : List Byte :=
  if s.screenMode = .grey4 then planeList s .plane0 else List.replicate s.planeBytes 0x00#8

/-- What `txPlanes` emits (R210). -/
def txPlanesEvents (s : State) : List Event :=
  transaction s.conf.ops.plane0data (plane0Sent s) ++ [Event.sleep 2] ++
  transaction s.conf.ops.plane1data (planeList s .plane1)

/-- What REFRESH emits (R211). -/
def refreshEvents (f : Bool) (s : State) : List Event :=
  powerUpEvents s ++ txPlanesEvents s ++
  transaction s.conf.ops.refreshtrig [] ++ [Event.sleep (s.conf.tRefresh.get s.conf.rev)] ++
  (if f then powerDownEvents s else [])

/-- What QUICKDRAW emits (R212). -/
def quickdrawEvents (s : State) : List Event :=
  (if s.conf.qdPowerup then powerUpEvents s else []) ++ txPlanesEvents s ++
  transaction s.conf.ops.datastop [] ++ [Event.sleep s.conf.tQd]

/-- The command bytes of the transactions one step of `powerUp` sends (R170). -/
def puStepOps (s : State) (step : PuStep) : List Byte :=
  let c := s.conf
  match step with
  | .booster => [c.ops.booster]
  | .powerset => [c.ops.powerset]
  | .poweron => [c.ops.poweron]
  | .ponwait => []
  | .panelset => [c.ops.panelset]
  | .pllctl =>
    if c.pllPolicy.get c.rev = .always ∨ (c.pllPolicy.get c.rev = .grey4Only ∧ s.screenMode = .grey4)
    then [c.ops.pllctl] else []
  | .resolution => [c.ops.resolution]
  | .vcomdc => [c.ops.vcomdc]
  | .interval => [c.ops.interval]
  | .luts =>
    if s.screenMode = .grey4
    then [c.ops.lutVcom, c.ops.lutW2w, c.ops.lutB2w, c.ops.lutW2b, c.ops.lutB2b] else []

/-- The command bytes `powerUp` sends, in order (R170). -/
def powerUpOps (s : State) : List Byte := s.conf.puOrder.flatMap (puStepOps s)

/-! ## The protocol state machine -/

/-- `pstate` after a completed instruction, as the table of R189 says. -/
def pstateAfter (i : Instr) (s : State) : PState :=
  match i with
  | .resethw => .poweredDown
  | .powerup => .poweredUp
  | .refresh f => if f then .poweredDown else .poweredUp
  | .quickdraw => if s.conf.qdPowerup then .poweredUp else s.pstate
  | .powerdown => if s.pstate = .poweredUp then .poweredDown else s.pstate
  | _ => s.pstate

/-- `initialized` after a completed instruction, as the table of R189 says. -/
def initializedAfter (i : Instr) (s : State) : Bool :=
  match i with
  | .resethw => false
  | .powerup => true
  | .refresh _ => true
  | .quickdraw => if s.conf.qdPowerup then true else s.initialized
  | _ => s.initialized

/-- The delay an instruction requests, as the table of R275 says. -/
def delayOf (i : Instr) (s : State) : Nat :=
  match i with
  | .resethw => 30
  | .powerup => s.conf.tPon.get s.conf.rev
  | .refresh _ => s.conf.tPon.get s.conf.rev + 2 + s.conf.tRefresh.get s.conf.rev
  | .quickdraw => 2 + s.conf.tQd + (if s.conf.qdPowerup then s.conf.tPon.get s.conf.rev else 0)
  | _ => 0

/-- The host commands (R90), as against the wire commands. -/
def isHostCommand (i : Instr) : Bool :=
  match i with
  | .clear => true
  | .setpixel _ _ _ => true
  | .testpat => true
  | .setmode _ => true
  | .refresh _ => true
  | .quickdraw => true
  | .resethw => true
  | .powerup => true
  | .powerdown => true
  | .getstatus => true
  | .booster => false
  | .powerset => false
  | .poweron => false
  | .panelset => false
  | .pllctl => false
  | .resolution => false
  | .vcomdc _ => false
  | .interval _ => false
  | .lutVcom => false
  | .lutW2w => false
  | .lutB2w => false
  | .lutW2b => false
  | .lutB2b => false
  | .plane0data => false
  | .plane1data => false
  | .refreshtrig => false
  | .datastop => false
  | .poweroff => false
  | .statusread => false

/-- The framebuffer commands (R139). -/
def isFramebufferCommand (i : Instr) : Bool :=
  match i with
  | .clear => true
  | .setpixel _ _ _ => true
  | .testpat => true
  | .setmode _ => false
  | .refresh _ => false
  | .quickdraw => false
  | .resethw => false
  | .powerup => false
  | .powerdown => false
  | .getstatus => false
  | .booster => false
  | .powerset => false
  | .poweron => false
  | .panelset => false
  | .pllctl => false
  | .resolution => false
  | .vcomdc _ => false
  | .interval _ => false
  | .lutVcom => false
  | .lutW2w => false
  | .lutB2w => false
  | .lutW2b => false
  | .lutB2b => false
  | .plane0data => false
  | .plane1data => false
  | .refreshtrig => false
  | .datastop => false
  | .poweroff => false
  | .statusread => false

/-- A run of several instructions, stopping where one stops. -/
def execAll (is : List Instr) (s : State) : Host.Outcome State Fault Refusal :=
  match is with
  | [] => .next s
  | i :: rest =>
    match exec i s with
    | .next t => execAll rest t
    | .fault r => .fault r
    | .refused r => .refused r

end Sys2Proof.Machine
end

