-- ==== Sys2Proof/Certificates/Slice0/Obligations.lean ====
section
/-!
DEFINITION. The statements for the provers, from the numbered rules of spec/.

Where a statement needs the environment, `s.env.completes n` says that it completes at least n more `SLEEP`s and
`s.env.answers n` that it returns at least n more status bytes (R270); `s.env.after n r` is the environment after it has
done so many. A statement of the form `exec i s = .next { s with … }` says the whole result and the whole frame.
-/

open Sys2Proof Sys2Proof.Machine

/-! ## Encoding -/

/-- A few words written out from the table of R92 decode to the commands they stand for (95_test_vectors.md T1). -/
def Obligations.HostWordsDecodeAsWritten : Prop :=
  decodeHost 0x10000000#32 = .ok .clear ∧
  decodeHost 0x2101277F#32 = .ok (.setpixel 127#8 295#16 1#2) ∧
  decodeHost 0x2200020A#32 = .ok (.setpixel 10#8 2#16 2#2) ∧
  decodeHost 0x30000000#32 = .ok .testpat ∧
  decodeHost 0x40000001#32 = .ok (.setmode .grey4) ∧
  decodeHost 0x50000001#32 = .ok (.refresh true) ∧
  decodeHost 0x50000000#32 = .ok (.refresh false) ∧
  decodeHost 0xA0000000#32 = .ok .getstatus

/-- R92: the table's match and mask values, how a word selects a row, the row's command is what the word decodes to, and
no word selects two rows. -/
def Obligations.EachWordSelectsAtMostOneRow : Prop :=
  (hostRows.map (fun r => (r.op, r.pattern, r.mask)) =
    [(.clear, 0x10000000#32, 0xFFFFFFFF#32), (.setpixel, 0x20000000#32, 0xFC000000#32),
     (.testpat, 0x30000000#32, 0xFFFFFFFF#32), (.setmode, 0x40000000#32, 0xFFFFFFFE#32),
     (.refresh, 0x50000000#32, 0xFFFFFFFE#32), (.quickdraw, 0x60000000#32, 0xFFFFFFFF#32),
     (.resethw, 0x70000000#32, 0xFFFFFFFF#32), (.powerup, 0x80000000#32, 0xFFFFFFFF#32),
     (.powerdown, 0x90000000#32, 0xFFFFFFFF#32), (.getstatus, 0xA0000000#32, 0xFFFFFFFF#32)]) ∧
  (∀ r ∈ hostRows, ∀ cw : Word, (r.selects cw = true ↔ cw &&& r.mask = r.pattern) ∧
    (r.selects cw = true → decodeHost cw = .ok (r.op.build cw))) ∧
  (∀ r ∈ hostRows, ∀ r' ∈ hostRows, ∀ cw : Word, r.selects cw = true → r'.selects cw = true → r = r')

/-- R93 to R95: the operands are the fields of the word, as numbers: of every SETPIXEL word `x`, `y` and `c`, of every
SETMODE word the mode, of every REFRESH word the flag. -/
def Obligations.OperandsAreTheFieldsOfTheWord : Prop :=
  ∀ cw : Word,
    (cw.toNat / 2 ^ 26 = 8 → ∃ x y c, decodeHost cw = .ok (.setpixel x y c) ∧
      x.toNat = cw.toNat % 2 ^ 8 ∧ y.toNat = cw.toNat / 2 ^ 8 % 2 ^ 16 ∧ c.toNat = cw.toNat / 2 ^ 24 % 2 ^ 2) ∧
    (cw.toNat / 2 = 0x20000000 →
      decodeHost cw = .ok (.setmode (if cw.toNat % 2 = 1 then .grey4 else .mono))) ∧
    (cw.toNat / 2 = 0x28000000 → decodeHost cw = .ok (.refresh (cw.toNat % 2 == 1)))

/-- For every well-formed instruction, host command or wire command, under every configuration: decoding its code gives
it back, with every operand. That a wire command has a code of its own, its command byte with its use, is the model's
choice (log entry 10). -/
def Obligations.DecodeOfEncodeIsTheInstruction : Prop :=
  ∀ (c : Config) (i : Instr), i.wellFormed c = true → decode c (encode c i) = .ok i

/-- Every code that decodes has one meaning: encoding what it decodes to gives the code back. For the command words this
is R92's table. Of a wire command the code is the model's choice: its command byte with its use beside it (log entry 10),
and where several commands have one byte, it decodes to the first of them (log entry 11). -/
def Obligations.EncodeOfDecodedCodeIsTheCode : Prop :=
  ∀ (c : Config) (code : Code) (i : Instr), decode c code = .ok i → encode c i = code

/-- R97, R233: exactly the reserved words are illegal, and an illegal word raises `IllegalCommand`: no state of the block
changes but `RESULT`, and no event is emitted, whatever the coordinates in the word. -/
def Obligations.IllegalWordsRaiseIllegalCommand : Prop :=
  (∀ cw : Word, (∃ r, decodeHost cw = .error r) ↔
    (cw.extractLsb' 28 4 = 0x0#4 ∨ 0xB#4 ≤ cw.extractLsb' 28 4) ∨
    cw.extractLsb' 26 2 ≠ 0#2 ∨
    (cw.extractLsb' 28 4 ∈ [0x1#4, 0x3#4, 0x6#4, 0x7#4, 0x8#4, 0x9#4, 0xA#4] ∧ cw.extractLsb' 0 28 ≠ 0#28) ∨
    (cw.extractLsb' 28 4 ∈ [0x4#4, 0x5#4] ∧ cw.extractLsb' 1 27 ≠ 0#27)) ∧
  (∀ (s : State) (cw : Word) (rest : List Request) (r : Reject), s.seqPc = .idle → s.wireFetch = none →
    s.requests = .command cw :: rest → decodeHost cw = .error r →
    step s = .next { s with requests := rest, result := .illegalCommand })

/-! ## Steps -/

/-- A step runs the decoded command: while Idle, with a command word as the host's oldest request, step is exec of the
command it decodes to, with that request taken. -/
def Obligations.StepRunsTheDecodedCommand : Prop :=
  ∀ (s : State) (cw : Word) (rest : List Request) (i : Instr), s.seqPc = .idle → s.wireFetch = none →
    s.requests = .command cw :: rest → decodeHost cw = .ok i → step s = exec i { s with requests := rest }

/-- The model's choice (log entry 9): a wire command to be run alone is run by the next step; a code that names none is
refused. -/
def Obligations.StepRunsTheWireCommand : Prop :=
  (∀ (s : State) (w : WireWord) (i : Instr), s.seqPc = .idle → s.wireFetch = some w →
    decodeWire s.conf w = .ok i → step s = exec i { s with wireFetch := none }) ∧
  (∀ (s : State) (w : WireWord) (r : Reject), s.seqPc = .idle → s.wireFetch = some w →
    decodeWire s.conf w = .error r → step s = .refused .unknownWireCommand)

/-- R68, R70: a host read returns the register or the plane byte and changes nothing of the block; a read outside the map
is refused. -/
def Obligations.HostReadsReturnValuesAndChangeNothing : Prop :=
  ∀ (s : State) (rest : List Request), s.seqPc = .idle → s.wireFetch = none →
    (∀ (n : Nat) (v : Word), s.requests = .readReg n :: rest → n < 5 →
      [s.geomReg, s.statusReg, s.dirtyXReg, s.dirtyYReg, s.pstatReg][n]? = some v →
      step s = .next { s with requests := rest, responses := s.responses ++ [.reg v] }) ∧
    (∀ n : Nat, s.requests = .readReg n :: rest → 5 ≤ n → step s = .refused .readOutsideMap) ∧
    (∀ (p : PlaneId) (n : Nat), s.requests = .readPlane p n :: rest → n < s.planeBytes →
      step s = .next { s with requests := rest, responses := s.responses ++ [.plane ((s.plane p).read n)] }) ∧
    (∀ (p : PlaneId) (n : Nat), s.requests = .readPlane p n :: rest → s.planeBytes ≤ n →
      step s = .refused .readOutsideMap)

/-- The model's choice (log entry 7): an Idle block that is asked nothing stays as it is. -/
def Obligations.IdleBlockWithoutRequestStays : Prop :=
  ∀ s : State, s.seqPc = .idle → s.wireFetch = none → s.requests = [] → step s = .next s

/-- R260: a second reset is the same as the first: all of the block's state at the values of R45, `OUT` started again.
The model's own fields keep what the host and the environment have (log entry 12). -/
def Obligations.SecondResetIsTheSameAsTheFirst : Prop :=
  ∀ (s : State) (rest : List Request), s.seqPc = .idle → s.wireFetch = none → s.requests = .reset :: rest →
    step s = .next { State.construct s.cfg with requests := rest, responses := s.responses, env := s.env }

/-- While a command runs the block accepts nothing: a word or a read waits, and it stays as it is (R91, R270, U10, U20);
a reset asked then is not defined and is refused (U10). -/
def Obligations.BusyBlockAcceptsNothing : Prop :=
  (∀ (s : State) (cmd : Instr) (k : Nat), s.seqPc = .running cmd k →
    (∀ rest, s.requests ≠ .reset :: rest) → step s = .next s) ∧
  (∀ (s : State) (cmd : Instr) (k : Nat) (rest : List Request), s.seqPc = .running cmd k →
    s.requests = .reset :: rest → step s = .refused .resetWhileBusy)

/-! ## Registers -/

/-- R39 to R43: each register as a number, its unlisted bits 0; index 5 and above name no register; no step changes
`GEOM`. -/
def Obligations.RegistersShowTheState : Prop :=
  ∀ s : State,
    (∃ v, s.readReg 0 = some v ∧ v.toNat = s.conf.width + 2 ^ 8 * s.conf.height +
      (if s.conf.rev = .revisionB then 2 ^ 24 else 0) + (if s.conf.bitOrder = .lsbFirst then 2 ^ 25 else 0)) ∧
    (∃ v, s.readReg 1 = some v ∧ v.toNat =
      (match s.pstate with | .uninitialized => 0 | .poweredDown => 1 | .poweredUp => 2 | .deepSleep => 3) +
      (if s.initialized then 4 else 0) + (if s.screenMode = .grey4 then 8 else 0) +
      16 * (match s.result with | .ok => 0 | .outOfBounds => 1 | .illegalCommand => 2)) ∧
    (∃ v, s.readReg 2 = some v ∧ v.toNat = s.dirty.minX.toNat + 2 ^ 16 * s.dirty.maxX.toNat) ∧
    (∃ v, s.readReg 3 = some v ∧ v.toNat = s.dirty.minY.toNat + 2 ^ 16 * s.dirty.maxY.toNat) ∧
    (∃ v, s.readReg 4 = some v ∧ v.toNat = s.panelStatus.toNat) ∧
    (∀ n, 5 ≤ n → s.readReg n = none) ∧
    (∀ t, step s = .next t → t.readReg 0 = s.readReg 0)

/-! ## Framebuffer commands -/

/-- R130: CLEAR zeroes both planes, pad bits included, so every pixel reads 0; the dirty rectangle becomes `FULL` or
`EMPTY` as `CLEAR_MARKS_FULL` says; `RESULT <- OK`; nothing else changes and no event is emitted. -/
def Obligations.ClearZeroesThePlanes : Prop :=
  decodeHost 0x10000000#32 = .ok .clear ∧
  ∀ s : State, ∃ t, exec .clear s = .next t ∧
    (∀ i, t.p0.read i = 0x00#8 ∧ t.p1.read i = 0x00#8) ∧
    (∀ x y, t.getPixel x y = 0) ∧
    (s.conf.clearMarksFull = true →
      t.dirty.minX.toNat = 0 ∧ t.dirty.maxX.toNat = (s.conf.width - 1) - (s.conf.width - 1) % 8 + 8 ∧
      t.dirty.minY.toNat = 0 ∧ t.dirty.maxY.toNat = s.conf.height) ∧
    (s.conf.clearMarksFull = false → t.dirty = ⟨255#8, 0#9, 0xFFFF#16, 0#16⟩) ∧
    t = { s with p0 := t.p0, p1 := t.p1, dirty := t.dirty, result := .ok, seqPc := .idle }

/-- R131: inside the geometry SETPIXEL sets or clears the pixel's bit in the one byte of each plane that holds it, by
bit 0 and bit 1 of the colour, whatever the mode, and widens the dirty rectangle by the aligned cell; `RESULT <- OK`;
nothing else changes. Outside it, `OutOfBounds` is raised and nothing else changes. The planes are in canonical form
(part of `Inv`). -/
def Obligations.SetpixelWritesOneBitOfEachPlane : Prop :=
  ∀ (s : State) (x : BitVec 8) (y : BitVec 16) (c : BitVec 2),
    decodeHost (0x2#4 ++ 0#2 ++ c ++ y ++ x) = .ok (.setpixel x y c) ∧
    (s.p0.wf = true → s.p1.wf = true → x.toNat < s.conf.width → y.toNat < s.conf.height →
      ∃ (t : State) (o i : Nat) (m : Byte), exec (.setpixel x y c) s = .next t ∧
        o = x.toNat + y.toNat * s.conf.width ∧ i = o / 8 ∧
        m = (match s.conf.bitOrder with | .msbFirst => 0x80#8 >>> (o % 8) | .lsbFirst => 0x01#8 <<< (o % 8)) ∧
        t.p0.read i = (if c.getLsbD 0 then s.p0.read i ||| m else s.p0.read i &&& ~~~m) ∧
        t.p1.read i = (if c.getLsbD 1 then s.p1.read i ||| m else s.p1.read i &&& ~~~m) ∧
        (∀ j, j ≠ i → t.p0.read j = s.p0.read j ∧ t.p1.read j = s.p1.read j) ∧
        t.dirty.minX.toNat = min s.dirty.minX.toNat (x.toNat - x.toNat % 8) ∧
        t.dirty.maxX.toNat = max s.dirty.maxX.toNat (x.toNat - x.toNat % 8 + 8) ∧
        t.dirty.minY.toNat = min s.dirty.minY.toNat y.toNat ∧
        t.dirty.maxY.toNat = max s.dirty.maxY.toNat (y.toNat + 1) ∧
        t = { s with p0 := t.p0, p1 := t.p1, dirty := t.dirty, result := .ok, seqPc := .idle }) ∧
    (s.conf.width ≤ x.toNat ∨ s.conf.height ≤ y.toNat →
      exec (.setpixel x y c) s = .next { s with result := .outOfBounds, seqPc := .idle })

/-- R133, R231: SETPIXEL with `x >= W` or `y >= H` raises `OutOfBounds`: both planes, the dirty rectangle and all other
state are unchanged, only `RESULT` is written; and it raises it in no other case. -/
def Obligations.SetpixelOutsideRaisesOutOfBounds : Prop :=
  ∀ (s : State) (x : BitVec 8) (y : BitVec 16) (c : BitVec 2),
    (s.conf.width ≤ x.toNat ∨ s.conf.height ≤ y.toNat →
      exec (.setpixel x y c) s = .next { s with result := .outOfBounds, seqPc := .idle }) ∧
    (∀ t, exec (.setpixel x y c) s = .next t → t.result = .outOfBounds →
      s.conf.width ≤ x.toNat ∨ s.conf.height ≤ y.toNat)

/-- R138: after SETPIXEL the pixel reads back as the colour written, and every other pixel is unchanged. The planes are
in canonical form (part of `Inv`). -/
def Obligations.PixelReadsBackAsWritten : Prop :=
  ∀ (s : State) (x : BitVec 8) (y : BitVec 16) (c : BitVec 2),
    s.p0.wf = true → s.p1.wf = true → x.toNat < s.conf.width → y.toNat < s.conf.height →
    ∃ t, exec (.setpixel x y c) s = .next t ∧ t.getPixel x.toNat y.toNat = c.toNat ∧
      ∀ x' y', x' < s.conf.width → y' < s.conf.height → (x', y') ≠ (x.toNat, y.toNat) →
        t.getPixel x' y' = s.getPixel x' y'

/-- R25: no SETPIXEL writes a pad bit, a bit offset of `W*H` or more, of either plane. The planes are in canonical form
(part of `Inv`). -/
def Obligations.SetpixelWritesNoPadBit : Prop :=
  ∀ (s t : State) (x : BitVec 8) (y : BitVec 16) (c : BitVec 2) (o : Nat),
    s.p0.wf = true → s.p1.wf = true → exec (.setpixel x y c) s = .next t → s.conf.width * s.conf.height ≤ o →
      t.p0.bitAt s.conf.bitOrder o = s.p0.bitAt s.conf.bitOrder o ∧
      t.p1.bitAt s.conf.bitOrder o = s.p1.bitAt s.conf.bitOrder o

/-- R135: for every legal geometry the offset of an in-range pixel is below `W*H` and needs 24 bits, its byte lies below
`N`, and the map from pixels to offsets is a bijection onto `0 .. W*H - 1`, with the inverse given. -/
def Obligations.PixelOffsetsAreABijection : Prop :=
  ∀ c : LegalConfig,
    (∀ x y, pixelOffset c.raw.width x y = x + y * c.raw.width ∧
      byteIndex (pixelOffset c.raw.width x y) = (x + y * c.raw.width) / 8) ∧
    (∀ x y, x < c.raw.width → y < c.raw.height →
      pixelOffset c.raw.width x y < c.raw.width * c.raw.height ∧
      pixelOffset c.raw.width x y < 2 ^ 24 ∧
      byteIndex (pixelOffset c.raw.width x y) < c.raw.planeBytes ∧
      x = pixelOffset c.raw.width x y % c.raw.width ∧ y = pixelOffset c.raw.width x y / c.raw.width) ∧
    (∀ o, o < c.raw.width * c.raw.height →
      o % c.raw.width < c.raw.width ∧ o / c.raw.width < c.raw.height ∧
      pixelOffset c.raw.width (o % c.raw.width) (o / c.raw.width) = o)

/-- R132: the update law of one in-range SETPIXEL; after any sequence of in-range SETPIXELs from the empty rectangle, the dirty rectangle is the least one that is
byte-aligned in X, exact in Y and covers every touched pixel; from the full rectangle it stays full. -/
def Obligations.DirtyRectangleIsTheMinimalBox : Prop :=
  (∀ (s t : State) (x : BitVec 8) (y : BitVec 16) (c : BitVec 2), x.toNat < s.conf.width → y.toNat < s.conf.height →
    exec (.setpixel x y c) s = .next t →
    t.dirty.minX.toNat = min s.dirty.minX.toNat (x.toNat - x.toNat % 8) ∧
    t.dirty.maxX.toNat = max s.dirty.maxX.toNat (x.toNat - x.toNat % 8 + 8) ∧
    t.dirty.minY.toNat = min s.dirty.minY.toNat y.toNat ∧
    t.dirty.maxY.toNat = max s.dirty.maxY.toNat (y.toNat + 1)) ∧
  ∀ (s : State) (ps : List (BitVec 8 × BitVec 16 × BitVec 2)), ps ≠ [] →
    (∀ p ∈ ps, p.1.toNat < s.conf.width ∧ p.2.1.toNat < s.conf.height) →
    ∃ t, execAll (ps.map (fun p => .setpixel p.1 p.2.1 p.2.2)) s = .next t ∧
      (s.dirty = Dirty.empty →
        (∀ p ∈ ps, t.dirty.minX.toNat ≤ p.1.toNat - p.1.toNat % 8 ∧ p.1.toNat - p.1.toNat % 8 + 8 ≤ t.dirty.maxX.toNat ∧
          t.dirty.minY.toNat ≤ p.2.1.toNat ∧ p.2.1.toNat + 1 ≤ t.dirty.maxY.toNat) ∧
        (∃ p ∈ ps, t.dirty.minX.toNat = p.1.toNat - p.1.toNat % 8) ∧
        (∃ p ∈ ps, t.dirty.maxX.toNat = p.1.toNat - p.1.toNat % 8 + 8) ∧
        (∃ p ∈ ps, t.dirty.minY.toNat = p.2.1.toNat) ∧
        (∃ p ∈ ps, t.dirty.maxY.toNat = p.2.1.toNat + 1)) ∧
      (s.dirty = Dirty.full s.conf.width s.conf.height → t.dirty = s.dirty)

/-- R27: the values of `EMPTY`; it is the identity of the update law; and in every state that meets the invariant,
`maxX = 0` exactly when the rectangle is `EMPTY`. -/
def Obligations.EmptyRectangleIsTheIdentity : Prop :=
  Dirty.empty = ⟨255#8, 0#9, 0xFFFF#16, 0#16⟩ ∧
  (∀ x y, x ≤ 255 → y < 65535 →
    (Dirty.empty.touch x y).minX.toNat = x - x % 8 ∧ (Dirty.empty.touch x y).maxX.toNat = x - x % 8 + 8 ∧
    (Dirty.empty.touch x y).minY.toNat = y ∧ (Dirty.empty.touch x y).maxY.toNat = y + 1) ∧
  (∀ s : State, Inv s → (s.dirty.maxX = 0#9 ↔ s.dirty = Dirty.empty))

/-- R134: TESTPAT writes the entries of `TEST_PATTERN` in list order, so a byte holds the last value listed for it, and a
byte not listed keeps its value; every entry lies inside the planes; the dirty rectangle becomes `FULL`; `RESULT <- OK`;
nothing else changes. The planes are in canonical form (part of `Inv`). -/
def Obligations.TestpatWritesItsPattern : Prop :=
  decodeHost 0x30000000#32 = .ok .testpat ∧
  ∀ s : State, s.p0.wf = true → s.p1.wf = true → ∃ t, exec .testpat s = .next t ∧
    (∀ e ∈ s.conf.testPattern, e.index < s.planeBytes) ∧
    (∀ (p : PlaneId) (i : Nat), (t.plane p).read i =
      match (s.conf.testPattern.filter (fun e => decide (e.plane = p ∧ e.index = i))).getLast? with
      | some e => (match e.value with | .xAA => 0xAA#8 | .x55 => 0x55#8 | .xFF => 0xFF#8)
      | none => (s.plane p).read i) ∧
    t.dirty.minX.toNat = 0 ∧ t.dirty.maxX.toNat = (s.conf.width - 1) - (s.conf.width - 1) % 8 + 8 ∧
    t.dirty.minY.toNat = 0 ∧ t.dirty.maxY.toNat = s.conf.height ∧
    t = { s with p0 := t.p0, p1 := t.p1, dirty := t.dirty, result := .ok, seqPc := .idle }

/-- R139: the framebuffer commands always end Idle, emit no event, and change nothing outside the planes, the dirty
rectangle and `RESULT`; a failing one changes only `RESULT`; what they do reads no sequencer state. -/
def Obligations.FramebufferCommandsStayInTheFramebuffer : Prop :=
  ∀ i : Instr, isFramebufferCommand i = true →
    (∀ s : State, ∃ t, exec i s = .next t ∧
      t = { s with p0 := t.p0, p1 := t.p1, dirty := t.dirty, result := t.result, seqPc := .idle } ∧
      (t.result ≠ .ok → t = { s with result := t.result, seqPc := .idle })) ∧
    (∀ s s' t t' : State, s.cfg = s'.cfg → s.p0 = s'.p0 → s.p1 = s'.p1 → s.dirty = s'.dirty →
      exec i s = .next t → exec i s' = .next t' →
      t.p0 = t'.p0 ∧ t.p1 = t'.p1 ∧ t.dirty = t'.dirty ∧ t.result = t'.result)

/-! ## Sequencer commands -/

/-- R180: RESETHW emits the three levels of the reset line, each held for 10 ms, then sets `pstate` to PoweredDown and
clears `initialized`, in every `pstate`; nothing else changes; a second one leaves the same state. -/
def Obligations.ResethwPulsesTheResetLine : Prop :=
  decodeHost 0x70000000#32 = .ok .resethw ∧
  (∀ s : State, s.env.completes 3 = true → exec .resethw s = .next { s with
    out := s.out ++ [.rst true, .sleep 10, .rst false, .sleep 10, .rst true, .sleep 10]
    pstate := .poweredDown
    initialized := false
    result := .ok
    seqPc := .idle
    env := s.env.after 3 0 }) ∧
  (∀ s : State, s.env.completes 6 = true → ∃ t u, exec .resethw s = .next t ∧ exec .resethw t = .next u ∧
    { u with out := t.out, env := t.env } = t)

/-- R181: SETMODE writes `screenMode` and `RESULT`, emits nothing and changes nothing else. -/
def Obligations.SetmodeWritesTheMode : Prop :=
  decodeHost 0x40000000#32 = .ok (.setmode .mono) ∧ decodeHost 0x40000001#32 = .ok (.setmode .grey4) ∧
  ∀ (m : ScreenMode) (s : State),
    exec (.setmode m) s = .next { s with screenMode := m, result := .ok, seqPc := .idle }

/-- R182, R183: POWERUP emits what the table of R183 says of each step, in `PU_ORDER[REV]`, in every `pstate`, then sets
`pstate` to PoweredUp and `initialized`; it waits for one `SLEEP`; nothing else changes. -/
def Obligations.PowerupSendsTheStepsInOrder : Prop :=
  decodeHost 0x80000000#32 = .ok .powerup ∧
  ∀ s : State, s.env.completes 1 = true → exec .powerup s = .next { s with
    out := s.out ++ powerUpEvents s
    pstate := .poweredUp
    initialized := true
    result := .ok
    seqPc := .idle
    env := s.env.after 1 0 }

/-- R183 to R186 for RevisionA: what POWERUP appends to `OUT`, in Mono without LUTs, and in Grey4 with the five tables in
the order VCOM, W2W, B2W, W2B, B2B, when the PLL step is Grey4-only and the environment completes the settle delay
(95_test_vectors.md T32, T33). -/
def Obligations.PowerUpStreamOfRevisionA : Prop :=
  ∀ s : State, s.conf.rev = .revisionA → s.conf.pllPolicy.revA = .grey4Only → s.env.completes 1 = true →
    ∃ t, exec .powerup s = .next t ∧ t.seqPc = .idle ∧
    (s.screenMode = .mono → t.out = s.out ++ (
      transaction s.conf.ops.booster s.conf.boosterArgs.revA.mono ++
      transaction s.conf.ops.powerset s.conf.powersetArgs.revA.mono ++
      transaction s.conf.ops.poweron [] ++ [.sleep s.conf.tPon.revA] ++
      transaction s.conf.ops.panelset s.conf.panelsetArgs.revA.mono ++
      transaction s.conf.ops.resolution
        [BitVec.ofNat 8 s.conf.width, BitVec.ofNat 8 (s.conf.height / 256), BitVec.ofNat 8 (s.conf.height % 256)] ++
      transaction s.conf.ops.vcomdc s.conf.vcomdcArgs.revA.mono ++
      transaction s.conf.ops.interval s.conf.intervalArgs.revA.mono)) ∧
    (s.screenMode = .grey4 → t.out = s.out ++ (
      transaction s.conf.ops.booster s.conf.boosterArgs.revA.grey4 ++
      transaction s.conf.ops.powerset s.conf.powersetArgs.revA.grey4 ++
      transaction s.conf.ops.poweron [] ++ [.sleep s.conf.tPon.revA] ++
      transaction s.conf.ops.panelset s.conf.panelsetArgs.revA.grey4 ++
      transaction s.conf.ops.pllctl s.conf.pllctlArgs.revA.grey4 ++
      transaction s.conf.ops.resolution
        [BitVec.ofNat 8 s.conf.width, BitVec.ofNat 8 (s.conf.height / 256), BitVec.ofNat 8 (s.conf.height % 256)] ++
      transaction s.conf.ops.vcomdc s.conf.vcomdcArgs.revA.grey4 ++
      transaction s.conf.ops.interval s.conf.intervalArgs.revA.grey4 ++
      transaction s.conf.ops.lutVcom s.conf.lut.revA.grey4.vcom ++
      transaction s.conf.ops.lutW2w s.conf.lut.revA.grey4.w2w ++
      transaction s.conf.ops.lutB2w s.conf.lut.revA.grey4.b2w ++
      transaction s.conf.ops.lutW2b s.conf.lut.revA.grey4.w2b ++
      transaction s.conf.ops.lutB2b s.conf.lut.revA.grey4.b2b))

/-- R186, R266: in every legal configuration `powerUp` does each of the ten steps exactly once, RevisionA in the listed
order, with the settle delay of 100 to 200 ms directly after the power-on command; and in what each command that performs
`powerUp` appends to `OUT`, the power-on transaction is followed at once by that delay, whether or not the environment
completes it. That a `SLEEP` the environment never completes stands in `OUT` too is the model's choice (log entry 5). -/
def Obligations.PowerOnIsFollowedByItsSettleDelay : Prop :=
  ∀ s : State, s.conf.puOrder.Perm listedPuOrder ∧
    (∃ before after, s.conf.puOrder = before ++ [.poweron, .ponwait] ++ after) ∧
    (s.conf.rev = .revisionA → s.conf.puOrder =
      [.booster, .powerset, .poweron, .ponwait, .panelset, .pllctl, .resolution, .vcomdc, .interval, .luts]) ∧
    100 ≤ s.conf.tPon.get s.conf.rev ∧ s.conf.tPon.get s.conf.rev ≤ 200 ∧
    ∀ i : Instr, (i = .powerup ∨ (∃ f, i = .refresh f) ∨ (i = .quickdraw ∧ s.conf.qdPowerup = true)) →
      ∃ t before after, exec i s = .next t ∧ t.out = s.out ++
        (before ++ [.ts, .c s.conf.ops.poweron, .te, .sleep (s.conf.tPon.get s.conf.rev)] ++ after)

/-- R187: POWERDOWN sends INTERVAL and VCOMDC with the default values and then POWEROFF, in every `pstate`; `pstate`
goes from PoweredUp to PoweredDown and is else unchanged; `initialized` and everything else is unchanged. -/
def Obligations.PowerdownRestoresDefaultsAndPowersOff : Prop :=
  decodeHost 0x90000000#32 = .ok .powerdown ∧
  ∀ s : State, exec .powerdown s = .next { s with
    out := s.out ++ (transaction s.conf.ops.interval (s.conf.intervalDefaultArgs.get s.conf.rev) ++
      transaction s.conf.ops.vcomdc (s.conf.vcomdcDefaultArgs.get s.conf.rev) ++ transaction s.conf.ops.poweroff [])
    pstate := if s.pstate = .poweredUp then .poweredDown else s.pstate
    result := .ok
    seqPc := .idle }

/-- R188: GETSTATUS emits the status read with the byte the environment returns, a free value, and latches that byte in
`PANEL_STATUS`; `pstate`, `initialized` and everything else is unchanged, in every `pstate`. -/
def Obligations.GetstatusLatchesTheReturnedByte : Prop :=
  decodeHost 0xA0000000#32 = .ok .getstatus ∧
  ∀ s : State, s.env.answers 1 = true → exec .getstatus s = .next { s with
    out := s.out ++ [.ts, .c s.conf.ops.statusread, .rd (Config.freeStatusByte s.env.draws), .te]
    panelStatus := Config.freeStatusByte s.env.draws
    result := .ok
    seqPc := .idle
    env := s.env.after 0 1 }

/-! ## Transmission commands -/

/-- R211: REFRESH performs `powerUp`, `txPlanes`, REFRESHTRIG and its settle delay, and with `f` also `powerDown`; it
leaves the dirty rectangle `EMPTY`, `initialized` set and `pstate` PoweredDown or PoweredUp; nothing else changes. -/
def Obligations.RefreshTransmitsAndTriggers : Prop :=
  decodeHost 0x50000000#32 = .ok (.refresh false) ∧ decodeHost 0x50000001#32 = .ok (.refresh true) ∧
  ∀ (f : Bool) (s : State), s.env.completes 3 = true → exec (.refresh f) s = .next { s with
    out := s.out ++ refreshEvents f s
    dirty := ⟨255#8, 0#9, 0xFFFF#16, 0#16⟩
    pstate := if f then .poweredDown else .poweredUp
    initialized := true
    result := .ok
    seqPc := .idle
    env := s.env.after 3 0 }

/-- R212: QUICKDRAW performs `powerUp` if `QD_POWERUP`, then `txPlanes`, DATASTOP and its delay; it leaves the dirty
rectangle `EMPTY`; `pstate` and `initialized` change only with `powerUp`; nothing else changes. -/
def Obligations.QuickdrawTransmitsAndStops : Prop :=
  decodeHost 0x60000000#32 = .ok .quickdraw ∧
  ∀ s : State, s.env.completes (if s.conf.qdPowerup then 3 else 2) = true → exec .quickdraw s = .next { s with
    out := s.out ++ quickdrawEvents s
    dirty := ⟨255#8, 0#9, 0xFFFF#16, 0#16⟩
    pstate := if s.conf.qdPowerup then .poweredUp else s.pstate
    initialized := if s.conf.qdPowerup then true else s.initialized
    result := .ok
    seqPc := .idle
    env := s.env.after (if s.conf.qdPowerup then 3 else 2) 0 }

/-- R214, R215: in every REFRESH and QUICKDRAW the two plane transactions come one after the other, each with exactly `N`
data bytes: in Grey4 those of PLANE0DATA are plane 0 byte for byte, in Mono they are all zero; those of PLANE1DATA are
plane 1 byte for byte. -/
def Obligations.PlaneTransactionsCarryThePlanes : Prop :=
  ∀ (i : Instr) (s : State), (i = .quickdraw ∨ ∃ f, i = .refresh f) → s.env.completes 3 = true →
    ∃ t new before bs0 bs1 after, exec i s = .next t ∧ t.out = s.out ++ new ∧
      transactionsOf new =
        before ++ [⟨s.conf.ops.plane0data, bs0⟩, ⟨s.conf.ops.plane1data, bs1⟩] ++ after ∧
      bs0.length = s.planeBytes ∧ bs1.length = s.planeBytes ∧
      (s.screenMode = .grey4 → ∀ j, j < s.planeBytes → bs0[j]? = some (s.p0.read j)) ∧
      (s.screenMode = .mono → ∀ b ∈ bs0, b = 0x00#8) ∧
      (∀ j, j < s.planeBytes → bs1[j]? = some (s.p1.read j))

/-- R170: which wire commands each host command sends, by command byte and in order. -/
def Obligations.HostCommandsSendTheirWireCommands : Prop :=
  ∀ (i : Instr) (s : State), isHostCommand i = true → s.env.completes 3 = true → s.env.answers 1 = true →
    ∃ t new, exec i s = .next t ∧ t.out = s.out ++ new ∧
      (transactionsOf new).map Transaction.op =
        match i with
        | .powerup => powerUpOps s
        | .powerdown => [s.conf.ops.interval, s.conf.ops.vcomdc, s.conf.ops.poweroff]
        | .refresh f => powerUpOps s ++ [s.conf.ops.plane0data, s.conf.ops.plane1data, s.conf.ops.refreshtrig] ++
            (if f then [s.conf.ops.interval, s.conf.ops.vcomdc, s.conf.ops.poweroff] else [])
        | .quickdraw => (if s.conf.qdPowerup then powerUpOps s else []) ++
            [s.conf.ops.plane0data, s.conf.ops.plane1data, s.conf.ops.datastop]
        | .getstatus => [s.conf.ops.statusread]
        | _ => []

/-- R165, R212: where the nineteen command bytes differ (the premise of D13), QUICKDRAW never emits the refresh trigger
and never the power-off command. -/
def Obligations.QuickdrawNeverTriggersARefresh : Prop :=
  ∀ s t : State, s.conf.ops.toList.Nodup → exec .quickdraw s = .next t →
    ∃ new, t.out = s.out ++ new ∧ .c s.conf.ops.refreshtrig ∉ new ∧ .c s.conf.ops.poweroff ∉ new

/-! ## Wire commands
That a wire command can be run alone is the model's choice (log entry 9): what it sends is the spec's. -/

/-- R99, R101: `CMD(op, bs)` is start, one command byte, the data bytes, end: `k + 3` events for `k` data bytes; with no
data bytes it is `[TS, C(op), TE]`. -/
def Obligations.CmdExpandsToItsEvents : Prop :=
  ∀ (op : Byte) (bs : List Byte),
    transaction op bs = .ts :: .c op :: (bs.map Event.d ++ [.te]) ∧
    (transaction op bs).length = bs.length + 3 ∧ transaction op [] = [.ts, .c op, .te] ∧
    traceWf (transaction op bs) = true ∧ transactionsOf (transaction op bs) = [⟨op, bs⟩]

/-- R106: the line-level refinement of each kind of event, whatever stands on the `DATA` line before it and whatever
events follow. `CMD(op, bs)`: `DATA` inactive, `SELECT` active, the command byte, `DATA` active before the first data byte
if there is one, the data bytes, `SELECT` inactive. The status-read form: `DATA` active before the byte is received.
`RST(l)` drives `RESET` to `l`, and `SLEEP(n)` moves no line. `DATA` keeps its level to the next `TS`. Last, what this
comes to on the lines when RESETHW is run. That the lines are a
view of the events, with `DATA` inactive before the first, is the model's choice (log entry 21). -/
def Obligations.CmdDrivesTheLines : Prop :=
  (∀ (active : Bool) (op : Byte) (bs : List Byte) (rest : List Event),
    linesFrom active (transaction op bs ++ rest) =
      [.setData false, .setSelect true, .send op] ++ (if bs = [] then [] else [.setData true]) ++
      bs.map LineAction.send ++ [.setSelect false] ++ linesFrom (decide (bs ≠ [])) rest) ∧
  (∀ (active : Bool) (op v : Byte) (rest : List Event),
    linesFrom active ([.ts, .c op, .rd v, .te] ++ rest) =
      [.setData false, .setSelect true, .send op, .setData true, .receive v, .setSelect false] ++
      linesFrom true rest) ∧
  (∀ (active level : Bool) (ms : Nat) (rest : List Event),
    linesFrom active (.rst level :: rest) = .setReset level :: linesFrom active rest ∧
    linesFrom active (.sleep ms :: rest) = .wait ms :: linesFrom active rest) ∧
  (∀ s : State, s.env.completes 3 = true → ∃ t, exec .resethw s = .next t ∧
    t.lines = s.lines ++ [.setReset true, .wait 10, .setReset false, .wait 10, .setReset true, .wait 10])

/-- R150, R151, R153, each run alone (log entry 9): BOOSTER, POWERSET and PANELSET are one transaction each, with the argument list of the revision
and the mode; they change nothing but the stream. -/
def Obligations.SettingsCommandsSendTheirArguments : Prop :=
  ∀ s : State,
    exec .booster s = .next { s with
      seqPc := .idle
      out := s.out ++ transaction s.conf.ops.booster ((s.conf.boosterArgs.get s.conf.rev).get s.screenMode) } ∧
    exec .powerset s = .next { s with
      seqPc := .idle
      out := s.out ++ transaction s.conf.ops.powerset ((s.conf.powersetArgs.get s.conf.rev).get s.screenMode) } ∧
    exec .panelset s = .next { s with
      seqPc := .idle
      out := s.out ++ transaction s.conf.ops.panelset ((s.conf.panelsetArgs.get s.conf.rev).get s.screenMode) }

/-- R156, R157, each run alone (log entry 9): the two uses of VCOMDC and of INTERVAL: the argument list of the revision and the mode, or the default
list of the revision; they change nothing but the stream. -/
def Obligations.VcomdcAndIntervalHaveTwoUses : Prop :=
  ∀ s : State,
    exec (.vcomdc .settings) s = .next { s with
      seqPc := .idle
      out := s.out ++ transaction s.conf.ops.vcomdc ((s.conf.vcomdcArgs.get s.conf.rev).get s.screenMode) } ∧
    exec (.vcomdc .defaults) s = .next { s with
      seqPc := .idle
      out := s.out ++ transaction s.conf.ops.vcomdc (s.conf.vcomdcDefaultArgs.get s.conf.rev) } ∧
    exec (.interval .settings) s = .next { s with
      seqPc := .idle
      out := s.out ++ transaction s.conf.ops.interval ((s.conf.intervalArgs.get s.conf.rev).get s.screenMode) } ∧
    exec (.interval .defaults) s = .next { s with
      seqPc := .idle
      out := s.out ++ transaction s.conf.ops.interval (s.conf.intervalDefaultArgs.get s.conf.rev) }

/-- R152, R165, R166, R167, each run alone (log entry 9): POWERON, REFRESHTRIG, DATASTOP and POWEROFF are a command byte and no data bytes; they change
nothing but the stream. -/
def Obligations.ParameterlessCommandsSendOneByte : Prop :=
  ∀ s : State,
    exec .poweron s = .next { s with seqPc := .idle, out := s.out ++ [.ts, .c s.conf.ops.poweron, .te] } ∧
    exec .refreshtrig s = .next { s with seqPc := .idle, out := s.out ++ [.ts, .c s.conf.ops.refreshtrig, .te] } ∧
    exec .datastop s = .next { s with seqPc := .idle, out := s.out ++ [.ts, .c s.conf.ops.datastop, .te] } ∧
    exec .poweroff s = .next { s with seqPc := .idle, out := s.out ++ [.ts, .c s.conf.ops.poweroff, .te] }

/-- R154, run alone (log entry 9): PLLCTL is sent iff the policy is Always, or Grey4Only in Grey4; when it is not, nothing at all is emitted; it
changes nothing but the stream. -/
def Obligations.PllctlIsSentByPolicy : Prop :=
  ∀ s : State,
    (s.conf.pllPolicy.get s.conf.rev = .always ∨
        (s.conf.pllPolicy.get s.conf.rev = .grey4Only ∧ s.screenMode = .grey4) →
      exec .pllctl s = .next { s with
        seqPc := .idle
        out := s.out ++ transaction s.conf.ops.pllctl ((s.conf.pllctlArgs.get s.conf.rev).get s.screenMode) }) ∧
    (¬ (s.conf.pllPolicy.get s.conf.rev = .always ∨
        (s.conf.pllPolicy.get s.conf.rev = .grey4Only ∧ s.screenMode = .grey4)) →
      exec .pllctl s = .next { s with seqPc := .idle })

/-- R108, R155, run alone (log entry 9): RESOLUTION carries three data bytes, the width and then the height high byte first, the same in both
modes; the three bytes are the whole numbers, for every legal geometry; it changes nothing but the stream. -/
def Obligations.ResolutionSendsTheGeometry : Prop :=
  ∀ s : State, ∃ w hi lo : Byte,
    w.toNat = s.conf.width ∧ 256 * hi.toNat + lo.toNat = s.conf.height ∧
    exec .resolution s = .next { s with
      seqPc := .idle
      out := s.out ++ [.ts, .c s.conf.ops.resolution, .d w, .d hi, .d lo, .te] }

/-- R158 to R162, each run alone (log entry 9): each LUT command sends its Grey4 table of the revision in Grey4 mode and nothing in Mono; it changes
nothing but the stream. -/
def Obligations.LutCommandsSendTheirTablesInGrey4 : Prop :=
  ∀ s : State,
    (s.screenMode = .grey4 →
      exec .lutVcom s = .next { s with
        seqPc := .idle
        out := s.out ++ transaction s.conf.ops.lutVcom (s.conf.lut.get s.conf.rev).grey4.vcom } ∧
      exec .lutW2w s = .next { s with
        seqPc := .idle
        out := s.out ++ transaction s.conf.ops.lutW2w (s.conf.lut.get s.conf.rev).grey4.w2w } ∧
      exec .lutB2w s = .next { s with
        seqPc := .idle
        out := s.out ++ transaction s.conf.ops.lutB2w (s.conf.lut.get s.conf.rev).grey4.b2w } ∧
      exec .lutW2b s = .next { s with
        seqPc := .idle
        out := s.out ++ transaction s.conf.ops.lutW2b (s.conf.lut.get s.conf.rev).grey4.w2b } ∧
      exec .lutB2b s = .next { s with
        seqPc := .idle
        out := s.out ++ transaction s.conf.ops.lutB2b (s.conf.lut.get s.conf.rev).grey4.b2b }) ∧
    (s.screenMode = .mono →
      ∀ i ∈ [Instr.lutVcom, .lutW2w, .lutB2w, .lutW2b, .lutB2b], exec i s = .next { s with seqPc := .idle })

/-- R163, R164, each run alone (log entry 9): PLANE0DATA sends plane 0 in Grey4 and `N` zero bytes in Mono, PLANE1DATA sends plane 1 in both modes, in
ascending index order; they change nothing but the stream. -/
def Obligations.PlaneCommandsSendThePlanes : Prop :=
  ∀ s : State,
    (s.screenMode = .grey4 → exec .plane0data s = .next { s with
      seqPc := .idle
      out := s.out ++ transaction s.conf.ops.plane0data ((List.range s.planeBytes).map (fun j => s.p0.read j)) }) ∧
    (s.screenMode = .mono → exec .plane0data s = .next { s with
      seqPc := .idle
      out := s.out ++ transaction s.conf.ops.plane0data (List.replicate s.planeBytes 0x00#8) }) ∧
    exec .plane1data s = .next { s with
      seqPc := .idle
      out := s.out ++ transaction s.conf.ops.plane1data ((List.range s.planeBytes).map (fun j => s.p1.read j)) }

/-- R104, R168, run alone (log entry 9): STATUSREAD is start, the command byte, the byte the environment returns (a free value), end; it changes
nothing but the stream. -/
def Obligations.StatusreadReceivesOneByte : Prop :=
  ∀ s : State, s.env.answers 1 = true → exec .statusread s = .next { s with
    seqPc := .idle
    env := s.env.after 0 1
    out := s.out ++ [.ts, .c s.conf.ops.statusread, .rd (Config.freeStatusByte s.env.draws), .te] }

/-! ## Waiting on the environment -/

/-- R270 (log entry 5): no instruction passes a wait that is not answered. One that has ended emitted no more `SLEEP`s
than the environment completes and received no more bytes than it returns, and has used up exactly so many answers. One
that has not ended stands at a `SLEEP`, or at a status read's byte, with exactly the answers before it used up and no
other to come; and no later step takes it on. RESETHW with no `SLEEP` completed stops at its first, two events on;
GETSTATUS with no byte returned stops inside its transaction, two events on. -/
def Obligations.UnansweredWaitsAreNotPassed : Prop :=
  (∀ (i : Instr) (s t : State), exec i s = .next t → ∃ new, t.out = s.out ++ new ∧
    (t.seqPc = .idle →
      s.env.completes (sleepsIn new) = true ∧ s.env.answers (receivedIn new) = true ∧
      t.env = s.env.after (sleepsIn new) (receivedIn new)) ∧
    (t.seqPc ≠ .idle →
      (∃ passed ms, new = passed ++ [.sleep ms] ∧
        s.env.sleeps = some (sleepsIn passed) ∧ s.env.answers (receivedIn passed) = true ∧
        t.env = s.env.after (sleepsIn passed) (receivedIn passed)) ∨
      (∃ passed, new = passed ++ [.ts, .c s.conf.ops.statusread] ∧
        s.env.replies = some (receivedIn passed) ∧ s.env.completes (sleepsIn passed) = true ∧
        t.env = s.env.after (sleepsIn passed) (receivedIn passed)))) ∧
  (∀ s t : State, s.seqPc ≠ .idle → step s = .next t → t = s) ∧
  ∀ s : State,
    (s.env.sleeps = some 0 → exec .resethw s = .next { s with
      out := s.out ++ [.rst true, .sleep 10]
      seqPc := .running .resethw 2 }) ∧
    (s.env.replies = some 0 → exec .getstatus s = .next { s with
      out := s.out ++ [.ts, .c s.conf.ops.statusread]
      seqPc := .running .getstatus 2 })

/-- R37, R270 (log entry 5): an instruction ends Idle, or it is still running, at a step position equal to the number of events it has
emitted, because the environment does not complete the `SLEEP` it has just emitted or does not return the byte of the
status read it has just begun. -/
def Obligations.InstructionsWaitOnlyOnTheEnvironment : Prop :=
  ∀ (i cmd : Instr) (k : Nat) (s t : State), exec i s = .next t → t.seqPc = .running cmd k →
    cmd = i ∧ ∃ es, t.out = s.out ++ es ∧ es.length = k ∧
      ((t.env.sleeps = some 0 ∧ ∃ ms, es.getLast? = some (.sleep ms)) ∨
       (t.env.replies = some 0 ∧ es.getLast? = some (.c s.conf.ops.statusread)))

/-- R190: every instruction terminates provided every `SLEEP` completes and the status byte is returned, from every
state. -/
def Obligations.EveryInstructionEndsWhenTheEnvironmentAnswers : Prop :=
  ∀ (i : Instr) (s : State), s.env.completes 3 = true → s.env.answers 1 = true →
    ∃ t, exec i s = .next t ∧ t.seqPc = .idle

/-! ## Rules about all instructions -/

/-- R189: `pstate` and `initialized` at reset, after every instruction that has ended and after a failing one, as the
table of R189 says; DeepSleep is never entered. -/
def Obligations.ProtocolStateFollowsItsTable : Prop :=
  (∀ c : LegalConfig, (State.construct c).pstate = .uninitialized ∧ (State.construct c).initialized = false) ∧
  (∀ (s : State) (code : ResultCode), (raise code s).pstate = s.pstate ∧ (raise code s).initialized = s.initialized) ∧
  ∀ (i : Instr) (s t : State), exec i s = .next t → t.seqPc = .idle →
    t.pstate = pstateAfter i s ∧ t.initialized = initializedAfter i s ∧
    (s.pstate ≠ .deepSleep → t.pstate ≠ .deepSleep)

/-- R46, R193, R216: only the framebuffer commands write the planes; of the others only REFRESH and QUICKDRAW write the
dirty rectangle; only SETMODE writes `screenMode` and only GETSTATUS writes `PANEL_STATUS`; no instruction changes the
configuration, the host's requests or the values returned to it. Also while a command is still running. -/
def Obligations.EachStateHasItsWriters : Prop :=
  ∀ (i : Instr) (s t : State), exec i s = .next t →
    (isFramebufferCommand i = false → t.p0 = s.p0 ∧ t.p1 = s.p1) ∧
    (isFramebufferCommand i = false → i ≠ .quickdraw → (∀ f, i ≠ .refresh f) → t.dirty = s.dirty) ∧
    ((∀ m, i ≠ .setmode m) → t.screenMode = s.screenMode) ∧
    (i ≠ .getstatus → t.panelStatus = s.panelStatus) ∧
    t.cfg = s.cfg ∧ t.requests = s.requests ∧ t.responses = s.responses ∧ t.wireFetch = s.wireFetch

/-- R236, R237: every host command that ends writes `RESULT`: OK, or OutOfBounds for a SETPIXEL outside the geometry and
for nothing else; a wire command leaves it. -/
def Obligations.ResultIsThatOfTheLastCommand : Prop :=
  ∀ (i : Instr) (s t : State), exec i s = .next t → t.seqPc = .idle →
    (isHostCommand i = true →
      (t.result = .ok ∧ ∀ x y c, i = .setpixel x y c → x.toNat < s.conf.width ∧ y.toNat < s.conf.height) ∨
      (t.result = .outOfBounds ∧ ∃ x y c, i = .setpixel x y c ∧
        (s.conf.width ≤ x.toNat ∨ s.conf.height ≤ y.toNat))) ∧
    (isHostCommand i = false → t.result = s.result)

/-- R38, R74: a step never changes the configuration, and `OUT` only grows, except at a reset, which starts it again. -/
def Obligations.StreamOnlyGrows : Prop :=
  ∀ s t : State, step s = .next t →
    t.cfg = s.cfg ∧ (s.out <+: t.out ∨ ∃ rest, s.requests = .reset :: rest ∧ t.out = [])

/-- R275: the delay each instruction requests when it ends, as the table of R275 says, with its bounds. -/
def Obligations.RequestedDelaysAreThoseOfTheTable : Prop :=
  (∀ (i : Instr) (s t : State), exec i s = .next t → t.seqPc = .idle →
    ∃ new, t.out = s.out ++ new ∧ requestedDelay new = delayOf i s) ∧
  (∀ (f : Bool) (s : State), 100 ≤ delayOf .powerup s ∧ delayOf .powerup s ≤ 200 ∧
    1002 ≤ delayOf (.refresh f) s ∧ delayOf (.refresh f) s ≤ 1202)

/-- R47, R189: no command reads `RESULT`, `initialized`, `pstate`, `PANEL_STATUS` or the dirty rectangle to decide what
it emits: two states that differ only there emit the same events and end at the same step position. -/
def Obligations.RecordsNeverChangeTheStream : Prop :=
  ∀ (i : Instr) (s : State) (p : PState) (b : Bool) (r : ResultCode) (v : Byte) (d : Dirty),
    ∃ t u new, exec i s = .next t ∧
      exec i { s with pstate := p, initialized := b, result := r, panelStatus := v, dirty := d } = .next u ∧
      t.out = s.out ++ new ∧ u.out = s.out ++ new ∧ t.seqPc = u.seqPc

/-! ## Reset and the invariant -/

/-- R45: every piece of state after reset, for every legal configuration; `State.reset` is one of these states. -/
def Obligations.ResetValuesAreThoseOfTheTable : Prop :=
  (∀ c : LegalConfig,
    (∀ i, (State.construct c).p0.read i = 0x00#8 ∧ (State.construct c).p1.read i = 0x00#8) ∧
    (State.construct c).dirty =
      (if c.raw.clearMarksFull then Dirty.full c.raw.width c.raw.height else Dirty.empty) ∧
    (State.construct c).screenMode = c.raw.mode0 ∧ (State.construct c).initialized = false ∧
    (State.construct c).pstate = .uninitialized ∧ (State.construct c).result = .ok ∧
    (State.construct c).panelStatus = 0x00#8 ∧ (State.construct c).seqPc = .idle ∧ (State.construct c).out = []) ∧
  ∃ c, State.reset = State.construct c

/-- R264, for both revisions (log entry 14): a block is constructed exactly from the configurations that meet the listed conditions, and then has that
configuration and its reset state; any other is refused. -/
def Obligations.MalformedConfigurationsAreRefused : Prop :=
  ∀ c : Config,
    ((State.constructFrom c).isSome = true ↔
      1 ≤ c.width ∧ c.width ≤ 255 ∧ 1 ≤ c.height ∧ c.height ≤ 65535 ∧
      (∀ r, 100 ≤ c.tPon.get r ∧ c.tPon.get r ≤ 200 ∧ 900 ≤ c.tRefresh.get r ∧ c.tRefresh.get r ≤ 1000) ∧
      c.puOrderB.Perm [.booster, .powerset, .poweron, .ponwait, .panelset, .pllctl, .resolution, .vcomdc, .interval,
        .luts] ∧
      (∃ before after, c.puOrderB = before ++ [.poweron, .ponwait] ++ after) ∧
      (∃ r, c.pllPolicy.get r = .grey4Only ∧ ∀ r', c.pllPolicy.get r' = .grey4Only → r' = r) ∧
      (∀ e ∈ c.testPattern, 8 * e.index < c.width * c.height)) ∧
    (∀ s, State.constructFrom c = some s → s.conf = c ∧ s = State.construct s.cfg)

/-- The invariant holds at reset, for every legal configuration, `State.reset`'s among them. -/
def Obligations.ResetMeetsTheInvariant : Prop :=
  (∀ c : LegalConfig, Inv (State.construct c)) ∧ Inv State.reset

/-- R101 and the rest of `Inv`: from every state that meets the invariant, not only from runs, every step leads to one
that meets it: the planes stay canonical and inside `N` bytes, the dirty rectangle stays `EMPTY` or aligned and inside
`FULL`, the event stream stays well formed, a command runs on only while the environment is silent, and DeepSleep is
never entered. -/
def Obligations.StepKeepsTheInvariant : Prop :=
  ∀ s t : State, Inv s → step s = .next t → Inv t
end

