-- ==== Sys2Proof/Laws/Decode.lean ====
section
/-!
SUPPORT. The bits of a host command word, and what a row of the table of R92 says of them.
-/

namespace Sys2Proof

/-- The bits of a host command word, field by field (R91). -/
theorem getLsbD_hostWord (opc : BitVec 4) (c : BitVec 2) (y : BitVec 16) (x : BitVec 8) (i : Nat) :
    (hostWord opc c y x).getLsbD i =
      if i < 8 then x.getLsbD i else if i < 24 then y.getLsbD (i - 8) else if i < 26 then c.getLsbD (i - 24)
      else if i < 28 then false else opc.getLsbD (i - 28) := by
  unfold hostWord
  simp only [BitVec.getLsbD_append]
  by_cases h1 : i < 8
  · simp [h1]
  · by_cases h2 : i < 24
    · have h2' : i - 8 < 16 := by omega
      simp [h1, h2, h2']
    · have h2' : ¬ i - 8 < 16 := by omega
      by_cases h3 : i < 26
      · have h3' : i - 8 - 16 < 2 := by omega
        have e : i - 8 - 16 = i - 24 := by omega
        simp [h1, h2, h2', h3, e] at h3' ⊢
        omega
      · have h3' : ¬ i - 8 - 16 < 2 := by omega
        by_cases h4 : i < 28
        · have h4' : i - 8 - 16 - 2 < 2 := by omega
          simp [h1, h2, h2', h3, h3', h4, h4']
        · have h4' : ¬ i - 8 - 16 - 2 < 2 := by omega
          have e : i - 8 - 16 - 2 - 2 = i - 28 := by omega
          simp [h1, h2, h2', h3, h3', h4, h4', e]

/-- A row selects a word when every masked bit is the pattern's (R92). -/
theorem selects_iff (r : HostRow) (cw : Word) : r.selects cw = true ↔
   ∀ i, i < 32 → (cw.getLsbD i && r.mask.getLsbD i) = r.pattern.getLsbD i := by
  simp only [HostRow.selects, beq_iff_eq]
  constructor
  · intro h i _; rw [← h]; simp
  · intro h; apply BitVec.eq_of_getLsbD_eq; intro i hi; simpa using h i hi

/-- The number a concatenation of bit vectors stands for. -/
theorem toNat_append_add {n m : Nat} (x : BitVec n) (y : BitVec m) :
    (x ++ y).toNat = x.toNat * 2 ^ m + y.toNat := by
  rw [BitVec.toNat_append, Nat.mul_comm, Nat.shiftLeft_eq, Nat.mul_comm, ← Nat.two_pow_add_eq_or_of_lt y.isLt]

/-! ## The fields of a word built from them (R91, R93) -/

@[simp] theorem opcField_hostWord (opc : BitVec 4) (c : BitVec 2) (y : BitVec 16) (x : BitVec 8) :
    opcField (hostWord opc c y x) = opc := by
  apply BitVec.eq_of_getLsbD_eq
  intro i hi
  simp only [opcField, BitVec.getLsbD_extractLsb', getLsbD_hostWord]
  interval_cases i <;> simp

@[simp] theorem rsvField_hostWord (opc : BitVec 4) (c : BitVec 2) (y : BitVec 16) (x : BitVec 8) :
    rsvField (hostWord opc c y x) = 0#2 := by
  apply BitVec.eq_of_getLsbD_eq
  intro i hi
  simp only [rsvField, BitVec.getLsbD_extractLsb', getLsbD_hostWord]
  interval_cases i <;> simp

@[simp] theorem colorField_hostWord (opc : BitVec 4) (c : BitVec 2) (y : BitVec 16) (x : BitVec 8) :
    colorField (hostWord opc c y x) = c := by
  apply BitVec.eq_of_getLsbD_eq
  intro i hi
  simp only [colorField, BitVec.getLsbD_extractLsb', getLsbD_hostWord]
  interval_cases i <;> simp

@[simp] theorem yField_hostWord (opc : BitVec 4) (c : BitVec 2) (y : BitVec 16) (x : BitVec 8) :
    yField (hostWord opc c y x) = y := by
  apply BitVec.eq_of_getLsbD_eq
  intro i hi
  simp only [yField, BitVec.getLsbD_extractLsb', getLsbD_hostWord]
  interval_cases i <;> simp

@[simp] theorem xField_hostWord (opc : BitVec 4) (c : BitVec 2) (y : BitVec 16) (x : BitVec 8) :
    xField (hostWord opc c y x) = x := by
  apply BitVec.eq_of_getLsbD_eq
  intro i hi
  simp only [xField, BitVec.getLsbD_extractLsb', getLsbD_hostWord]
  interval_cases i <;> simp

@[simp] theorem flagField_hostWord (opc : BitVec 4) (c : BitVec 2) (y : BitVec 16) (f : Bool) :
    flagField (hostWord opc c y (flagByte f)) = f := by
  simp only [flagField, getLsbD_hostWord]
  cases f <;> simp [flagByte]

@[simp] theorem ofFlag_flag (m : ScreenMode) : ScreenMode.ofFlag m.flag = m := by cases m <;> rfl

end Sys2Proof
end

