-- ==== Sys2Proof/Laws/State.lean ====
section
/-!
SUPPORT. One lemma per field for each named update of State, each true by rfl, so that no later proof unfolds one.
-/

namespace Sys2Proof.Machine

/-! ## emit -/

@[simp] theorem emit_cfg (s : State) (es : List Event) :
    (s.emit es).cfg = s.cfg := rfl
@[simp] theorem emit_p0 (s : State) (es : List Event) :
    (s.emit es).p0 = s.p0 := rfl
@[simp] theorem emit_p1 (s : State) (es : List Event) :
    (s.emit es).p1 = s.p1 := rfl
@[simp] theorem emit_dirty (s : State) (es : List Event) :
    (s.emit es).dirty = s.dirty := rfl
@[simp] theorem emit_screenMode (s : State) (es : List Event) :
    (s.emit es).screenMode = s.screenMode := rfl
@[simp] theorem emit_initialized (s : State) (es : List Event) :
    (s.emit es).initialized = s.initialized := rfl
@[simp] theorem emit_pstate (s : State) (es : List Event) :
    (s.emit es).pstate = s.pstate := rfl
@[simp] theorem emit_result (s : State) (es : List Event) :
    (s.emit es).result = s.result := rfl
@[simp] theorem emit_panelStatus (s : State) (es : List Event) :
    (s.emit es).panelStatus = s.panelStatus := rfl
@[simp] theorem emit_seqPc (s : State) (es : List Event) :
    (s.emit es).seqPc = s.seqPc.advance es.length := rfl
@[simp] theorem emit_out (s : State) (es : List Event) :
    (s.emit es).out = s.out ++ es := rfl
@[simp] theorem emit_requests (s : State) (es : List Event) :
    (s.emit es).requests = s.requests := rfl
@[simp] theorem emit_responses (s : State) (es : List Event) :
    (s.emit es).responses = s.responses := rfl
@[simp] theorem emit_wireFetch (s : State) (es : List Event) :
    (s.emit es).wireFetch = s.wireFetch := rfl
@[simp] theorem emit_env (s : State) (es : List Event) :
    (s.emit es).env = s.env := rfl

/-! ## complete -/

@[simp] theorem complete_cfg (s : State) :
    s.complete.cfg = s.cfg := rfl
@[simp] theorem complete_p0 (s : State) :
    s.complete.p0 = s.p0 := rfl
@[simp] theorem complete_p1 (s : State) :
    s.complete.p1 = s.p1 := rfl
@[simp] theorem complete_dirty (s : State) :
    s.complete.dirty = s.dirty := rfl
@[simp] theorem complete_screenMode (s : State) :
    s.complete.screenMode = s.screenMode := rfl
@[simp] theorem complete_initialized (s : State) :
    s.complete.initialized = s.initialized := rfl
@[simp] theorem complete_pstate (s : State) :
    s.complete.pstate = s.pstate := rfl
@[simp] theorem complete_result (s : State) :
    s.complete.result = .ok := rfl
@[simp] theorem complete_panelStatus (s : State) :
    s.complete.panelStatus = s.panelStatus := rfl
@[simp] theorem complete_seqPc (s : State) :
    s.complete.seqPc = .idle := rfl
@[simp] theorem complete_out (s : State) :
    s.complete.out = s.out := rfl
@[simp] theorem complete_requests (s : State) :
    s.complete.requests = s.requests := rfl
@[simp] theorem complete_responses (s : State) :
    s.complete.responses = s.responses := rfl
@[simp] theorem complete_wireFetch (s : State) :
    s.complete.wireFetch = s.wireFetch := rfl
@[simp] theorem complete_env (s : State) :
    s.complete.env = s.env := rfl

/-! ## raise -/

@[simp] theorem raise_cfg (code : ResultCode) (s : State) :
    (raise code s).cfg = s.cfg := rfl
@[simp] theorem raise_p0 (code : ResultCode) (s : State) :
    (raise code s).p0 = s.p0 := rfl
@[simp] theorem raise_p1 (code : ResultCode) (s : State) :
    (raise code s).p1 = s.p1 := rfl
@[simp] theorem raise_dirty (code : ResultCode) (s : State) :
    (raise code s).dirty = s.dirty := rfl
@[simp] theorem raise_screenMode (code : ResultCode) (s : State) :
    (raise code s).screenMode = s.screenMode := rfl
@[simp] theorem raise_initialized (code : ResultCode) (s : State) :
    (raise code s).initialized = s.initialized := rfl
@[simp] theorem raise_pstate (code : ResultCode) (s : State) :
    (raise code s).pstate = s.pstate := rfl
@[simp] theorem raise_result (code : ResultCode) (s : State) :
    (raise code s).result = code := rfl
@[simp] theorem raise_panelStatus (code : ResultCode) (s : State) :
    (raise code s).panelStatus = s.panelStatus := rfl
@[simp] theorem raise_seqPc (code : ResultCode) (s : State) :
    (raise code s).seqPc = .idle := rfl
@[simp] theorem raise_out (code : ResultCode) (s : State) :
    (raise code s).out = s.out := rfl
@[simp] theorem raise_requests (code : ResultCode) (s : State) :
    (raise code s).requests = s.requests := rfl
@[simp] theorem raise_responses (code : ResultCode) (s : State) :
    (raise code s).responses = s.responses := rfl
@[simp] theorem raise_wireFetch (code : ResultCode) (s : State) :
    (raise code s).wireFetch = s.wireFetch := rfl
@[simp] theorem raise_env (code : ResultCode) (s : State) :
    (raise code s).env = s.env := rfl

/-! ## writePixel -/

@[simp] theorem writePixel_cfg (s : State) (x y : Nat) (c : BitVec 2) :
    (s.writePixel x y c).cfg = s.cfg := rfl
@[simp] theorem writePixel_p0 (s : State) (x y : Nat) (c : BitVec 2) :
    (s.writePixel x y c).p0 = s.p0.setBits (byteIndex (pixelOffset s.conf.width x y))
      (pmask s.conf.bitOrder (pixelOffset s.conf.width x y)) (c.getLsbD 0) := rfl
@[simp] theorem writePixel_p1 (s : State) (x y : Nat) (c : BitVec 2) :
    (s.writePixel x y c).p1 = s.p1.setBits (byteIndex (pixelOffset s.conf.width x y))
      (pmask s.conf.bitOrder (pixelOffset s.conf.width x y)) (c.getLsbD 1) := rfl
@[simp] theorem writePixel_dirty (s : State) (x y : Nat) (c : BitVec 2) :
    (s.writePixel x y c).dirty = s.dirty := rfl
@[simp] theorem writePixel_screenMode (s : State) (x y : Nat) (c : BitVec 2) :
    (s.writePixel x y c).screenMode = s.screenMode := rfl
@[simp] theorem writePixel_initialized (s : State) (x y : Nat) (c : BitVec 2) :
    (s.writePixel x y c).initialized = s.initialized := rfl
@[simp] theorem writePixel_pstate (s : State) (x y : Nat) (c : BitVec 2) :
    (s.writePixel x y c).pstate = s.pstate := rfl
@[simp] theorem writePixel_result (s : State) (x y : Nat) (c : BitVec 2) :
    (s.writePixel x y c).result = s.result := rfl
@[simp] theorem writePixel_panelStatus (s : State) (x y : Nat) (c : BitVec 2) :
    (s.writePixel x y c).panelStatus = s.panelStatus := rfl
@[simp] theorem writePixel_seqPc (s : State) (x y : Nat) (c : BitVec 2) :
    (s.writePixel x y c).seqPc = s.seqPc := rfl
@[simp] theorem writePixel_out (s : State) (x y : Nat) (c : BitVec 2) :
    (s.writePixel x y c).out = s.out := rfl
@[simp] theorem writePixel_requests (s : State) (x y : Nat) (c : BitVec 2) :
    (s.writePixel x y c).requests = s.requests := rfl
@[simp] theorem writePixel_responses (s : State) (x y : Nat) (c : BitVec 2) :
    (s.writePixel x y c).responses = s.responses := rfl
@[simp] theorem writePixel_wireFetch (s : State) (x y : Nat) (c : BitVec 2) :
    (s.writePixel x y c).wireFetch = s.wireFetch := rfl
@[simp] theorem writePixel_env (s : State) (x y : Nat) (c : BitVec 2) :
    (s.writePixel x y c).env = s.env := rfl

/-! ## resetBlock -/

@[simp] theorem resetBlock_cfg (s : State) :
    (resetBlock s).cfg = s.cfg := rfl
@[simp] theorem resetBlock_p0 (s : State) :
    (resetBlock s).p0 = [] := rfl
@[simp] theorem resetBlock_p1 (s : State) :
    (resetBlock s).p1 = [] := rfl
@[simp] theorem resetBlock_dirty (s : State) :
    (resetBlock s).dirty = Dirty.afterClear s.conf := rfl
@[simp] theorem resetBlock_screenMode (s : State) :
    (resetBlock s).screenMode = s.conf.mode0 := rfl
@[simp] theorem resetBlock_initialized (s : State) :
    (resetBlock s).initialized = false := rfl
@[simp] theorem resetBlock_pstate (s : State) :
    (resetBlock s).pstate = .uninitialized := rfl
@[simp] theorem resetBlock_result (s : State) :
    (resetBlock s).result = .ok := rfl
@[simp] theorem resetBlock_panelStatus (s : State) :
    (resetBlock s).panelStatus = 0x00#8 := rfl
@[simp] theorem resetBlock_seqPc (s : State) :
    (resetBlock s).seqPc = .idle := rfl
@[simp] theorem resetBlock_out (s : State) :
    (resetBlock s).out = [] := rfl
@[simp] theorem resetBlock_requests (s : State) :
    (resetBlock s).requests = s.requests := rfl
@[simp] theorem resetBlock_responses (s : State) :
    (resetBlock s).responses = s.responses := rfl
@[simp] theorem resetBlock_wireFetch (s : State) :
    (resetBlock s).wireFetch = none := rfl
@[simp] theorem resetBlock_env (s : State) :
    (resetBlock s).env = s.env := rfl

/-! ## construct -/

@[simp] theorem construct_cfg (c : LegalConfig) :
    (State.construct c).cfg = c := rfl
@[simp] theorem construct_p0 (c : LegalConfig) :
    (State.construct c).p0 = [] := rfl
@[simp] theorem construct_p1 (c : LegalConfig) :
    (State.construct c).p1 = [] := rfl
@[simp] theorem construct_dirty (c : LegalConfig) :
    (State.construct c).dirty = Dirty.afterClear c.raw := rfl
@[simp] theorem construct_screenMode (c : LegalConfig) :
    (State.construct c).screenMode = c.raw.mode0 := rfl
@[simp] theorem construct_initialized (c : LegalConfig) :
    (State.construct c).initialized = false := rfl
@[simp] theorem construct_pstate (c : LegalConfig) :
    (State.construct c).pstate = .uninitialized := rfl
@[simp] theorem construct_result (c : LegalConfig) :
    (State.construct c).result = .ok := rfl
@[simp] theorem construct_panelStatus (c : LegalConfig) :
    (State.construct c).panelStatus = 0x00#8 := rfl
@[simp] theorem construct_seqPc (c : LegalConfig) :
    (State.construct c).seqPc = .idle := rfl
@[simp] theorem construct_out (c : LegalConfig) :
    (State.construct c).out = [] := rfl
@[simp] theorem construct_requests (c : LegalConfig) :
    (State.construct c).requests = [] := rfl
@[simp] theorem construct_responses (c : LegalConfig) :
    (State.construct c).responses = [] := rfl
@[simp] theorem construct_wireFetch (c : LegalConfig) :
    (State.construct c).wireFetch = none := rfl
@[simp] theorem construct_env (c : LegalConfig) :
    (State.construct c).env = ⟨none, none, 0⟩ := rfl

/-! ## writePlane -/

@[simp] theorem writePlane_cfg (s : State) (p : PlaneId) (i : Nat) (v : Byte) :
    (s.writePlane p i v).cfg = s.cfg := by cases p <;> rfl
@[simp] theorem writePlane_dirty (s : State) (p : PlaneId) (i : Nat) (v : Byte) :
    (s.writePlane p i v).dirty = s.dirty := by cases p <;> rfl
@[simp] theorem writePlane_screenMode (s : State) (p : PlaneId) (i : Nat) (v : Byte) :
    (s.writePlane p i v).screenMode = s.screenMode := by cases p <;> rfl
@[simp] theorem writePlane_initialized (s : State) (p : PlaneId) (i : Nat) (v : Byte) :
    (s.writePlane p i v).initialized = s.initialized := by cases p <;> rfl
@[simp] theorem writePlane_pstate (s : State) (p : PlaneId) (i : Nat) (v : Byte) :
    (s.writePlane p i v).pstate = s.pstate := by cases p <;> rfl
@[simp] theorem writePlane_result (s : State) (p : PlaneId) (i : Nat) (v : Byte) :
    (s.writePlane p i v).result = s.result := by cases p <;> rfl
@[simp] theorem writePlane_panelStatus (s : State) (p : PlaneId) (i : Nat) (v : Byte) :
    (s.writePlane p i v).panelStatus = s.panelStatus := by cases p <;> rfl
@[simp] theorem writePlane_seqPc (s : State) (p : PlaneId) (i : Nat) (v : Byte) :
    (s.writePlane p i v).seqPc = s.seqPc := by cases p <;> rfl
@[simp] theorem writePlane_out (s : State) (p : PlaneId) (i : Nat) (v : Byte) :
    (s.writePlane p i v).out = s.out := by cases p <;> rfl
@[simp] theorem writePlane_requests (s : State) (p : PlaneId) (i : Nat) (v : Byte) :
    (s.writePlane p i v).requests = s.requests := by cases p <;> rfl
@[simp] theorem writePlane_responses (s : State) (p : PlaneId) (i : Nat) (v : Byte) :
    (s.writePlane p i v).responses = s.responses := by cases p <;> rfl
@[simp] theorem writePlane_wireFetch (s : State) (p : PlaneId) (i : Nat) (v : Byte) :
    (s.writePlane p i v).wireFetch = s.wireFetch := by cases p <;> rfl
@[simp] theorem writePlane_env (s : State) (p : PlaneId) (i : Nat) (v : Byte) :
    (s.writePlane p i v).env = s.env := by cases p <;> rfl
@[simp] theorem writePlane_plane_same (s : State) (p : PlaneId) (i : Nat) (v : Byte) :
    (s.writePlane p i v).plane p = (s.plane p).write i v := by cases p <;> rfl
theorem writePlane_plane_other (s : State) (p q : PlaneId) (i : Nat) (v : Byte) (h : p ≠ q) :
    (s.writePlane p i v).plane q = s.plane q := by cases p <;> cases q <;> first | rfl | exact absurd rfl h

/-! ## The step position -/

@[simp] theorem advance_idle (n : Nat) : SeqPc.idle.advance n = .idle := rfl
@[simp] theorem advance_running (cmd : Instr) (k n : Nat) :
    (SeqPc.running cmd k).advance n = .running cmd (k + n) := rfl
@[simp] theorem advance_advance (pc : SeqPc) (m n : Nat) : (pc.advance m).advance n = pc.advance (m + n) := by
  cases pc <;> simp [Nat.add_assoc]
@[simp] theorem advance_zero (pc : SeqPc) : pc.advance 0 = pc := by cases pc <;> rfl

/-! ## Emitting nothing, and emitting twice -/

@[simp] theorem emit_nil (s : State) : s.emit [] = s := by
  simp [State.emit]

theorem emit_emit (s : State) (es fs : List Event) : (s.emit es).emit fs = s.emit (es ++ fs) := by
  simp [State.emit, List.append_assoc]

end Sys2Proof.Machine
end

