-- ==== Sys2Proof/Laws/Memory.lean ====
section
/-!
SUPPORT. Plane memory: a read after a write, the canonical form and the bounds are kept by every write, and the bit of
an offset read back after it is written.
-/

namespace Sys2Proof.Machine

theorem Memory.wfFrom_mono {lo lo' : Nat} {m : Memory} (h : lo' ≤ lo) (hm : Memory.wfFrom lo m = true) :
    Memory.wfFrom lo' m = true := by
  cases m with
  | nil => rfl
  | cons e rest =>
    simp only [Memory.wfFrom, Bool.and_eq_true, decide_eq_true_eq] at hm ⊢
    exact ⟨⟨by omega, hm.1.2⟩, hm.2⟩

/-- Below the first address of a canonical memory every byte reads as the reset contents. -/
theorem Memory.read_below {lo i : Nat} {m : Memory} (hm : Memory.wfFrom lo m = true) (h : i < lo) :
    Memory.read m i = 0x00#8 := by
  induction m generalizing lo with
  | nil => rfl
  | cons e rest ih =>
    obtain ⟨a, v⟩ := e
    simp only [Memory.wfFrom, Bool.and_eq_true, decide_eq_true_eq] at hm
    have ha : a ≠ i := by omega
    simp only [Memory.read, if_neg ha]
    exact ih hm.2 (by omega)

theorem Memory.read_write_same_from {lo : Nat} {m : Memory} (hm : Memory.wfFrom lo m = true) (i : Nat) (v : Byte) :
    Memory.read (Memory.write m i v) i = v := by
  induction m generalizing lo with
  | nil => by_cases hv : v = 0x00#8 <;> simp [Memory.write, Memory.read, hv]
  | cons e rest ih =>
    obtain ⟨a, b⟩ := e
    simp only [Memory.wfFrom, Bool.and_eq_true, decide_eq_true_eq] at hm
    have below := fun h : i < a + 1 => Memory.read_below hm.2 h
    simp only [Memory.write]
    split
    · have hne : a ≠ i := by omega
      by_cases hv : v = 0x00#8
      · simp [hv, Memory.read, hne, below (by omega)]
      · simp [hv, Memory.read]
    · split
      · by_cases hv : v = 0x00#8
        · simp [hv, below (by omega)]
        · simp [hv, Memory.read]
      · have hne : a ≠ i := by omega
        simp [Memory.read, hne, ih hm.2]

/-- A read after a write to the same byte gives the value written. -/
theorem Memory.read_write_same {m : Memory} (hm : m.wf = true) (i : Nat) (v : Byte) :
    (m.write i v).read i = v := Memory.read_write_same_from hm i v

/-- A write leaves every other byte alone. -/
theorem Memory.read_write_other (m : Memory) {i j : Nat} (v : Byte) (h : j ≠ i) :
    (m.write i v).read j = m.read j := by
  induction m with
  | nil => by_cases hv : v = 0x00#8 <;> simp [Memory.write, Memory.read, hv, Ne.symm h]
  | cons e rest ih =>
    obtain ⟨a, b⟩ := e
    simp only [Memory.write]
    split
    · by_cases hv : v = 0x00#8 <;> simp [Memory.read, hv, Ne.symm h]
    · split
      · rename_i _ hia
        subst hia
        by_cases hv : v = 0x00#8 <;> simp [Memory.read, hv, Ne.symm h]
      · simp [Memory.read, ih]

theorem Memory.wfFrom_write {lo : Nat} {m : Memory} (hm : Memory.wfFrom lo m = true) {i : Nat} (hi : lo ≤ i)
    (v : Byte) : Memory.wfFrom lo (Memory.write m i v) = true := by
  induction m generalizing lo with
  | nil => by_cases hv : v = 0x00#8 <;> simp [Memory.write, Memory.wfFrom, hv, hi]
  | cons e rest ih =>
    obtain ⟨a, b⟩ := e
    have hm' := hm
    simp only [Memory.wfFrom, Bool.and_eq_true, decide_eq_true_eq] at hm
    simp only [Memory.write]
    split
    · by_cases hv : v = 0x00#8
      · simpa [hv] using hm'
      · simp only [hv, if_false, Memory.wfFrom, Bool.and_eq_true, decide_eq_true_eq]
        exact ⟨⟨hi, hv⟩, ⟨by omega, hm.1.2⟩, hm.2⟩
    · split
      · by_cases hv : v = 0x00#8
        · simp only [hv, if_true]
          exact Memory.wfFrom_mono (by omega) hm.2
        · rename_i _ hia
          subst hia
          simp only [hv, if_false, Memory.wfFrom, Bool.and_eq_true, decide_eq_true_eq]
          exact ⟨⟨hi, hv⟩, hm.2⟩
      · simp only [Memory.wfFrom, Bool.and_eq_true, decide_eq_true_eq]
        exact ⟨hm.1, ih hm.2 (by omega)⟩

/-- A write keeps the canonical form. -/
theorem Memory.wf_write {m : Memory} (hm : m.wf = true) (i : Nat) (v : Byte) : (m.write i v).wf = true :=
  Memory.wfFrom_write hm (Nat.zero_le i) v

/-- A write below `n` keeps the bound. -/
theorem Memory.within_write {n : Nat} {m : Memory} (hm : m.within n = true) {i : Nat} (hi : i < n) (v : Byte) :
    (m.write i v).within n = true := by
  induction m with
  | nil => by_cases hv : v = 0x00#8 <;> simp [Memory.write, Memory.within, hv, hi]
  | cons e rest ih =>
    obtain ⟨a, b⟩ := e
    simp only [Memory.within, List.all_cons, Bool.and_eq_true, decide_eq_true_eq] at hm ih ⊢
    simp only [Memory.write]
    split
    · by_cases hv : v = 0x00#8 <;> simp [hv, hm.1, hi] <;> simpa using hm.2
    · split
      · by_cases hv : v = 0x00#8 <;> simp [hv, hi] <;> simpa using hm.2
      · have := ih hm.2
        simp only [List.all_cons, Bool.and_eq_true, decide_eq_true_eq]
        exact ⟨hm.1, this⟩

theorem Memory.wf_setBits {m : Memory} (hm : m.wf = true) (i : Nat) (mask : Byte) (b : Bool) :
    (m.setBits i mask b).wf = true := Memory.wf_write hm i _

theorem Memory.within_setBits {n : Nat} {m : Memory} (hm : m.within n = true) {i : Nat} (hi : i < n) (mask : Byte)
    (b : Bool) : (m.setBits i mask b).within n = true := Memory.within_write hm hi _

/-- The byte a bit write changes. -/
theorem Memory.read_setBits_same {m : Memory} (hm : m.wf = true) (i : Nat) (mask : Byte) (b : Bool) :
    (m.setBits i mask b).read i = if b then m.read i ||| mask else m.read i &&& ~~~mask :=
  Memory.read_write_same hm i _

theorem Memory.read_setBits_other (m : Memory) {i j : Nat} (mask : Byte) (b : Bool) (h : j ≠ i) :
    (m.setBits i mask b).read j = m.read j := Memory.read_write_other m _ h

@[simp] theorem Memory.read_empty (i : Nat) : Memory.read [] i = 0x00#8 := rfl
@[simp] theorem Memory.wf_empty : Memory.wf [] = true := rfl
@[simp] theorem Memory.within_empty (n : Nat) : Memory.within n [] = true := rfl
@[simp] theorem Memory.length_bytes (m : Memory) (n : Nat) : (m.bytes n).length = n := by simp [Memory.bytes]

/-- The planes of `writePlane` keep canonical form and bound. -/
theorem writePlane_planes {s : State} {n : Nat} (p : PlaneId) {i : Nat} (hi : i < n) (v : Byte)
    (h : s.p0.wf = true ∧ s.p1.wf = true ∧ s.p0.within n = true ∧ s.p1.within n = true) :
    (s.writePlane p i v).p0.wf = true ∧ (s.writePlane p i v).p1.wf = true ∧
      (s.writePlane p i v).p0.within n = true ∧ (s.writePlane p i v).p1.within n = true := by
  obtain ⟨h0, h1, h2, h3⟩ := h
  cases p with
  | plane0 => exact ⟨Memory.wf_write h0 i v, h1, Memory.within_write h2 hi v, h3⟩
  | plane1 => exact ⟨h0, Memory.wf_write h1 i v, h2, Memory.within_write h3 hi v⟩

end Sys2Proof.Machine
end

