-- ==== Sys2Proof/Laws/PerInstr.lean ====
section
/-!
SUPPORT. A family of facts about each instruction as written: its code belongs to its own row of the opcode table. A
host command's word is selected by the row of R92 that names it; a wire command's code holds its own command byte (R107).
-/

namespace Sys2Proof.Laws

/-- The row of R92 a host command belongs to; `none` for a wire command. -/
def hostOpOf : Instr → Option HostOp
  | .clear => some .clear
  | .setpixel _ _ _ => some .setpixel
  | .testpat => some .testpat
  | .setmode _ => some .setmode
  | .refresh _ => some .refresh
  | .quickdraw => some .quickdraw
  | .resethw => some .resethw
  | .powerup => some .powerup
  | .powerdown => some .powerdown
  | .getstatus => some .getstatus
  | .booster => none
  | .powerset => none
  | .poweron => none
  | .panelset => none
  | .pllctl => none
  | .resolution => none
  | .vcomdc _ => none
  | .interval _ => none
  | .lutVcom => none
  | .lutW2w => none
  | .lutB2w => none
  | .lutW2b => none
  | .lutB2b => none
  | .plane0data => none
  | .plane1data => none
  | .refreshtrig => none
  | .datastop => none
  | .poweroff => none
  | .statusread => none

namespace EncodesToItsRow

/-- The code of an instruction belongs to its row of the opcode table, under every configuration. -/
def Statement (i : Instr) : Prop :=
  ∀ c : Config,
    match encode c i, hostOpOf i with
    | .host cw, some op => ∃ r ∈ hostRows, r.op = op ∧ r.selects cw = true
    | .wire w, none => i.commandByte c = some w.op
    | .host _, none => False
    | .wire _, some _ => False

theorem clear : Statement .clear := fun _ =>
  ⟨⟨.clear, 0x10000000#32, 0xFFFFFFFF#32⟩, by simp [hostRows], rfl, by decide⟩

theorem setpixel (x : BitVec 8) (y : BitVec 16) (c : BitVec 2) : Statement (.setpixel x y c) := fun _ =>
  ⟨⟨.setpixel, 0x20000000#32, 0xFC000000#32⟩, by simp [hostRows], rfl, by
    rw [selects_iff]
    intro i hi
    rw [getLsbD_hostWord]
    interval_cases i <;> simp⟩

theorem testpat : Statement .testpat := fun _ =>
  ⟨⟨.testpat, 0x30000000#32, 0xFFFFFFFF#32⟩, by simp [hostRows], rfl, by decide⟩

theorem setmode (m : ScreenMode) : Statement (.setmode m) := fun _ =>
  ⟨⟨.setmode, 0x40000000#32, 0xFFFFFFFE#32⟩, by simp [hostRows], rfl, by cases m <;> decide⟩

theorem refresh (f : Bool) : Statement (.refresh f) := fun _ =>
  ⟨⟨.refresh, 0x50000000#32, 0xFFFFFFFE#32⟩, by simp [hostRows], rfl, by cases f <;> decide⟩

theorem quickdraw : Statement .quickdraw := fun _ =>
  ⟨⟨.quickdraw, 0x60000000#32, 0xFFFFFFFF#32⟩, by simp [hostRows], rfl, by decide⟩

theorem resethw : Statement .resethw := fun _ =>
  ⟨⟨.resethw, 0x70000000#32, 0xFFFFFFFF#32⟩, by simp [hostRows], rfl, by decide⟩

theorem powerup : Statement .powerup := fun _ =>
  ⟨⟨.powerup, 0x80000000#32, 0xFFFFFFFF#32⟩, by simp [hostRows], rfl, by decide⟩

theorem powerdown : Statement .powerdown := fun _ =>
  ⟨⟨.powerdown, 0x90000000#32, 0xFFFFFFFF#32⟩, by simp [hostRows], rfl, by decide⟩

theorem getstatus : Statement .getstatus := fun _ =>
  ⟨⟨.getstatus, 0xA0000000#32, 0xFFFFFFFF#32⟩, by simp [hostRows], rfl, by decide⟩

theorem booster : Statement .booster := fun _ => rfl

theorem powerset : Statement .powerset := fun _ => rfl

theorem poweron : Statement .poweron := fun _ => rfl

theorem panelset : Statement .panelset := fun _ => rfl

theorem pllctl : Statement .pllctl := fun _ => rfl

theorem resolution : Statement .resolution := fun _ => rfl

theorem vcomdc (use : RegUse) : Statement (.vcomdc use) := fun _ => rfl

theorem interval (use : RegUse) : Statement (.interval use) := fun _ => rfl

theorem lutVcom : Statement .lutVcom := fun _ => rfl

theorem lutW2w : Statement .lutW2w := fun _ => rfl

theorem lutB2w : Statement .lutB2w := fun _ => rfl

theorem lutW2b : Statement .lutW2b := fun _ => rfl

theorem lutB2b : Statement .lutB2b := fun _ => rfl

theorem plane0data : Statement .plane0data := fun _ => rfl

theorem plane1data : Statement .plane1data := fun _ => rfl

theorem refreshtrig : Statement .refreshtrig := fun _ => rfl

theorem datastop : Statement .datastop := fun _ => rfl

theorem poweroff : Statement .poweroff := fun _ => rfl

theorem statusread : Statement .statusread := fun _ => rfl

end EncodesToItsRow

end Sys2Proof.Laws
end

