-- ==== Sys2Proof/Laws/Sequencer.lean ====
section
/-!
SUPPORT. What one action and a list of actions can do: the frame every action keeps, running a list in two parts, the
environment's answers, and the state a list ends in when the environment answers all its waits.
-/

namespace Sys2Proof.Machine

/-! ## The environment -/

theorem takeSleep_of_completes {e : Env} {n : Nat} (h : e.completes (n + 1) = true) :
    ∃ e', e.takeSleep = some e' ∧ e'.completes n = true ∧ e'.replies = e.replies ∧ e'.draws = e.draws ∧
      e'.sleeps = e.sleeps.map (fun m => m - 1) := by
  obtain ⟨sl, rp, dr⟩ := e
  cases sl with
  | none => exact ⟨_, rfl, rfl, rfl, rfl, rfl⟩
  | some m =>
    cases m with
    | zero => simp [Env.completes] at h
    | succ k =>
      refine ⟨_, rfl, ?_, rfl, rfl, by simp⟩
      simp only [Env.completes, decide_eq_true_eq] at h ⊢
      omega

theorem takeReply_of_answers {e : Env} {n : Nat} (h : e.answers (n + 1) = true) :
    ∃ e', e.takeReply = some e' ∧ e'.answers n = true ∧ e'.sleeps = e.sleeps ∧ e'.draws = e.draws + 1 ∧
      e'.replies = e.replies.map (fun m => m - 1) := by
  obtain ⟨sl, rp, dr⟩ := e
  cases rp with
  | none => exact ⟨_, rfl, rfl, rfl, rfl, rfl⟩
  | some m =>
    cases m with
    | zero => simp [Env.answers] at h
    | succ k =>
      refine ⟨_, rfl, ?_, rfl, rfl, by simp⟩
      simp only [Env.answers, decide_eq_true_eq] at h ⊢
      omega

theorem takeSleep_eq_none {e : Env} : e.takeSleep = none ↔ e.sleeps = some 0 := by
  obtain ⟨sl, rp, dr⟩ := e
  rcases sl with _ | _ | m <;> simp [Env.takeSleep]

theorem takeReply_eq_none {e : Env} : e.takeReply = none ↔ e.replies = some 0 := by
  obtain ⟨sl, rp, dr⟩ := e
  rcases rp with _ | _ | m <;> simp [Env.takeReply]

theorem takeSleep_eq_some {e e' : Env} (h : e.takeSleep = some e') : e' = e.after 1 0 := by
  obtain ⟨sl, rp, dr⟩ := e
  rcases sl with _ | _ | m <;> simp_all [Env.takeSleep, Env.after]

theorem takeReply_eq_some {e e' : Env} (h : e.takeReply = some e') : e' = e.after 0 1 := by
  obtain ⟨sl, rp, dr⟩ := e
  rcases rp with _ | _ | m <;> simp_all [Env.takeReply, Env.after]

/-- A wait that was answered, was one the environment does answer. -/
theorem completes_of_takeSleep {e e' : Env} (h : e.takeSleep = some e') : e.completes 1 = true := by
  obtain ⟨sl, rp, dr⟩ := e
  rcases sl with _ | _ | m <;> simp_all [Env.takeSleep, Env.completes]

theorem answers_of_takeReply {e e' : Env} (h : e.takeReply = some e') : e.answers 1 = true := by
  obtain ⟨sl, rp, dr⟩ := e
  rcases rp with _ | _ | m <;> simp_all [Env.takeReply, Env.answers]

@[simp] theorem Env.completes_zero (e : Env) : e.completes 0 = true := by
  unfold Env.completes
  split <;> simp

@[simp] theorem Env.answers_zero (e : Env) : e.answers 0 = true := by
  unfold Env.answers
  split <;> simp

theorem Env.after_after (e : Env) (n r n' r' : Nat) : (e.after n r).after n' r' = e.after (n + n') (r + r') := by
  obtain ⟨sl, rp, dr⟩ := e
  cases sl <;> cases rp <;> simp [Env.after, Nat.sub_sub, Nat.add_assoc]

@[simp] theorem Env.after_zero (e : Env) : e.after 0 0 = e := by
  obtain ⟨sl, rp, dr⟩ := e
  cases sl <;> cases rp <;> simp [Env.after]

@[simp] theorem Env.after_draws (e : Env) (n r : Nat) : (e.after n r).draws = e.draws + r := rfl

theorem Env.completes_after {e : Env} {n m r : Nat} (h : e.completes (n + m) = true) :
    (e.after n r).completes m = true := by
  obtain ⟨sl, rp, dr⟩ := e
  cases sl with
  | none => rfl
  | some k =>
    simp only [Env.completes, Env.after, Option.map_some, decide_eq_true_eq] at h ⊢
    omega

theorem Env.answers_after {e : Env} {n m r : Nat} (h : e.answers (r + m) = true) :
    (e.after n r).answers m = true := by
  obtain ⟨sl, rp, dr⟩ := e
  cases rp with
  | none => rfl
  | some k =>
    simp only [Env.answers, Env.after, Option.map_some, decide_eq_true_eq] at h ⊢
    omega

theorem Env.completes_mono {e : Env} {n m : Nat} (h : n ≤ m) (hm : e.completes m = true) : e.completes n = true := by
  obtain ⟨sl, rp, dr⟩ := e
  cases sl with
  | none => rfl
  | some k =>
    simp only [Env.completes, decide_eq_true_eq] at hm ⊢
    omega

theorem Env.answers_mono {e : Env} {n m : Nat} (h : n ≤ m) (hm : e.answers m = true) : e.answers n = true := by
  obtain ⟨sl, rp, dr⟩ := e
  cases rp with
  | none => rfl
  | some k =>
    simp only [Env.answers, decide_eq_true_eq] at hm ⊢
    omega

/-- The environment completes what it has completed and what it completes after that. -/
theorem Env.completes_add {e : Env} {n m r : Nat} (h : e.completes n = true)
    (hm : (e.after n r).completes m = true) : e.completes (n + m) = true := by
  obtain ⟨sl, rp, dr⟩ := e
  cases sl with
  | none => rfl
  | some k =>
    simp only [Env.completes, Env.after, Option.map_some, decide_eq_true_eq] at h hm ⊢
    omega

theorem Env.answers_add {e : Env} {n m r : Nat} (h : e.answers r = true)
    (hm : (e.after n r).answers m = true) : e.answers (r + m) = true := by
  obtain ⟨sl, rp, dr⟩ := e
  cases rp with
  | none => rfl
  | some k =>
    simp only [Env.answers, Env.after, Option.map_some, decide_eq_true_eq] at h hm ⊢
    omega

/-- An environment that has completed its last `SLEEP` with the `n`-th completes exactly `n`. -/
theorem Env.sleeps_of_after {e : Env} {n r : Nat} (h : e.completes n = true)
    (hz : (e.after n r).sleeps = some 0) : e.sleeps = some n := by
  obtain ⟨sl, rp, dr⟩ := e
  cases sl with
  | none => simp [Env.after] at hz
  | some k =>
    simp only [Env.completes, Env.after, Option.map_some, decide_eq_true_eq, Option.some.injEq] at h hz ⊢
    omega

theorem Env.replies_of_after {e : Env} {n r : Nat} (h : e.answers r = true)
    (hz : (e.after n r).replies = some 0) : e.replies = some r := by
  obtain ⟨sl, rp, dr⟩ := e
  cases rp with
  | none => simp [Env.after] at hz
  | some k =>
    simp only [Env.answers, Env.after, Option.map_some, decide_eq_true_eq, Option.some.injEq] at h hz ⊢
    omega

/-! ## One action -/

/-- The state an action ends in, done or waiting. -/
def Progress.state : Progress → State
  | .done s => s
  | .waiting s => s

@[simp] theorem Progress.state_done (s : State) : (Progress.done s).state = s := rfl
@[simp] theorem Progress.state_waiting (s : State) : (Progress.waiting s).state = s := rfl

/-- The events an action emits. -/
def Action.events : Action → List Event
  | .emit es => es
  | .sleep ms => [Event.sleep ms]
  | .awaitReply => []
  | .poweredUp => []
  | .poweredDown => []
  | .hardwareReset => []
  | .dirtyEmpty => []
  | .latchStatus _ => []
  | .resultOk => []

/-- How many `SLEEP`s an action waits for. -/
def Action.sleepsNeeded : Action → Nat
  | .sleep _ => 1
  | .emit _ => 0
  | .awaitReply => 0
  | .poweredUp => 0
  | .poweredDown => 0
  | .hardwareReset => 0
  | .dirtyEmpty => 0
  | .latchStatus _ => 0
  | .resultOk => 0

/-- How many status bytes an action waits for. -/
def Action.repliesNeeded : Action → Nat
  | .awaitReply => 1
  | .emit _ => 0
  | .sleep _ => 0
  | .poweredUp => 0
  | .poweredDown => 0
  | .hardwareReset => 0
  | .dirtyEmpty => 0
  | .latchStatus _ => 0
  | .resultOk => 0

/-- The state writes of an action that is done, apart from `OUT`, the step position and the environment. -/
def Action.writes (a : Action) (s : State) : State :=
  match a with
  | .emit _ => s
  | .sleep _ => s
  | .awaitReply => s
  | .poweredUp => { s with pstate := .poweredUp, initialized := true }
  | .poweredDown => { s with pstate := s.pstate.afterPowerDown }
  | .hardwareReset => { s with pstate := .poweredDown, initialized := false }
  | .dirtyEmpty => { s with dirty := Dirty.empty }
  | .latchStatus v => { s with panelStatus := v }
  | .resultOk => { s with result := .ok }

/-- Everything an action can do: it waits, having emitted its events, or it is done, with its events, its writes and its
wait answered. -/
theorem perform_cases (a : Action) (s : State) :
    (a.perform s = .waiting (s.emit a.events) ∧
      ((∃ ms, a = .sleep ms) ∧ s.env.sleeps = some 0 ∨ a = .awaitReply ∧ s.env.replies = some 0)) ∨
    a.perform s = .done { a.writes (s.emit a.events) with env := s.env.after a.sleepsNeeded a.repliesNeeded } := by
  cases a with
  | sleep ms =>
    simp only [Action.perform]
    cases h : s.env.takeSleep with
    | none => exact .inl ⟨rfl, .inl ⟨⟨ms, rfl⟩, takeSleep_eq_none.mp h⟩⟩
    | some e => right; rw [takeSleep_eq_some h]; rfl
  | awaitReply =>
    simp only [Action.perform]
    cases h : s.env.takeReply with
    | none =>
      refine .inl ⟨?_, .inr ⟨trivial, takeReply_eq_none.mp h⟩⟩
      show Progress.waiting s = Progress.waiting (s.emit [])
      rw [emit_nil]
    | some e =>
      right
      rw [takeReply_eq_some h]
      show Progress.done _ = Progress.done { s.emit [] with env := _ }
      rw [emit_nil]
      rfl
  | emit es =>
    right
    show Progress.done (s.emit es) = Progress.done { s.emit es with env := s.env.after 0 0 }
    rw [Env.after_zero]
    rfl
  | _ =>
    right
    simp only [Action.perform, Action.writes, Action.events, Action.sleepsNeeded, Action.repliesNeeded, emit_nil,
      Env.after_zero]

/-- An action is done only when the environment answers its wait (R270). -/
theorem answered_of_done {a : Action} {s t : State} (h : a.perform s = .done t) :
    s.env.completes a.sleepsNeeded = true ∧ s.env.answers a.repliesNeeded = true := by
  cases a with
  | sleep ms =>
    simp only [Action.perform] at h
    cases hk : s.env.takeSleep with
    | none => simp [hk] at h
    | some e => exact ⟨completes_of_takeSleep hk, Env.answers_zero _⟩
  | awaitReply =>
    simp only [Action.perform] at h
    cases hk : s.env.takeReply with
    | none => simp [hk] at h
    | some e => exact ⟨Env.completes_zero _, answers_of_takeReply hk⟩
  | _ => exact ⟨Env.completes_zero _, Env.answers_zero _⟩

/-- What no action of the sequencer ever changes. -/
structure SameBlock (s t : State) : Prop where
  cfg : t.cfg = s.cfg
  p0 : t.p0 = s.p0
  p1 : t.p1 = s.p1
  screenMode : t.screenMode = s.screenMode
  requests : t.requests = s.requests
  responses : t.responses = s.responses
  wireFetch : t.wireFetch = s.wireFetch

theorem SameBlock.refl (s : State) : SameBlock s s := ⟨rfl, rfl, rfl, rfl, rfl, rfl, rfl⟩

theorem SameBlock.trans {s t u : State} (h : SameBlock s t) (k : SameBlock t u) : SameBlock s u :=
  ⟨k.cfg.trans h.cfg, k.p0.trans h.p0, k.p1.trans h.p1, k.screenMode.trans h.screenMode,
    k.requests.trans h.requests, k.responses.trans h.responses, k.wireFetch.trans h.wireFetch⟩

theorem perform_sameBlock (a : Action) (s : State) : SameBlock s (a.perform s).state := by
  rcases perform_cases a s with ⟨h, -⟩ | h <;> rw [h]
  · exact ⟨rfl, rfl, rfl, rfl, rfl, rfl, rfl⟩
  · cases a <;> exact ⟨rfl, rfl, rfl, rfl, rfl, rfl, rfl⟩

/-! ## A list of actions -/

theorem runActions_done {a : Action} {rest : List Action} {s t : State} (h : a.perform s = .done t) :
    runActions (a :: rest) s = runActions rest t := by simp [runActions, h]

theorem runActions_waiting {a : Action} {rest : List Action} {s t : State} (h : a.perform s = .waiting t) :
    runActions (a :: rest) s = t := by simp [runActions, h]

theorem runActions_sameBlock (as : List Action) (s : State) : SameBlock s (runActions as s) := by
  induction as generalizing s with
  | nil => exact ⟨rfl, rfl, rfl, rfl, rfl, rfl, rfl⟩
  | cons a rest ih =>
    have h := perform_sameBlock a s
    simp only [runActions]
    cases hp : a.perform s with
    | done t => rw [hp] at h; exact h.trans (ih t)
    | waiting t => rw [hp] at h; exact h

/-- A command changes nothing of the block but the dirty rectangle, the sequencer's state and the stream. -/
theorem runCommand_sameBlock (cmd : Instr) (as : List Action) (s : State) : SameBlock s (runCommand cmd as s) := by
  have h := runActions_sameBlock as { s with seqPc := .running cmd 0 }
  exact ⟨h.cfg, h.p0, h.p1, h.screenMode, h.requests, h.responses, h.wireFetch⟩

/-- All the events of a list of actions. -/
def eventsOf (as : List Action) : List Event := as.flatMap Action.events

/-- All the waits for a `SLEEP` of a list of actions. -/
def sleepsOf (as : List Action) : Nat := (as.map Action.sleepsNeeded).sum

/-- All the waits for a status byte of a list of actions. -/
def repliesOf (as : List Action) : Nat := (as.map Action.repliesNeeded).sum

/-- All the state writes of a list of actions. -/
def writesOf (as : List Action) (s : State) : State := as.foldl (fun t a => a.writes t) s

@[simp] theorem eventsOf_nil : eventsOf [] = [] := rfl
@[simp] theorem eventsOf_cons (a : Action) (as : List Action) : eventsOf (a :: as) = a.events ++ eventsOf as := rfl
@[simp] theorem eventsOf_append (as bs : List Action) : eventsOf (as ++ bs) = eventsOf as ++ eventsOf bs := by
  simp [eventsOf]
@[simp] theorem sleepsOf_nil : sleepsOf [] = 0 := rfl
@[simp] theorem sleepsOf_cons (a : Action) (as : List Action) : sleepsOf (a :: as) = a.sleepsNeeded + sleepsOf as := by
  simp [sleepsOf]
@[simp] theorem sleepsOf_append (as bs : List Action) : sleepsOf (as ++ bs) = sleepsOf as + sleepsOf bs := by
  simp [sleepsOf]
@[simp] theorem repliesOf_nil : repliesOf [] = 0 := rfl
@[simp] theorem repliesOf_cons (a : Action) (as : List Action) :
    repliesOf (a :: as) = a.repliesNeeded + repliesOf as := by simp [repliesOf]
@[simp] theorem repliesOf_append (as bs : List Action) : repliesOf (as ++ bs) = repliesOf as + repliesOf bs := by
  simp [repliesOf]
@[simp] theorem writesOf_nil (s : State) : writesOf [] s = s := rfl
@[simp] theorem writesOf_cons (a : Action) (as : List Action) (s : State) :
    writesOf (a :: as) s = writesOf as (a.writes s) := rfl
theorem writesOf_append (as bs : List Action) (s : State) : writesOf (as ++ bs) s = writesOf bs (writesOf as s) := by
  simp [writesOf]

/-- A state with its stream, step position and environment replaced: what the writes of the actions do not touch. -/
def settled (s : State) (o : List Event) (pc : SeqPc) (e : Env) : State := { s with out := o, seqPc := pc, env := e }

@[simp] theorem settled_settled (s : State) (o o' : List Event) (pc pc' : SeqPc) (e e' : Env) :
    settled (settled s o pc e) o' pc' e' = settled s o' pc' e' := rfl

@[simp] theorem settled_out (s : State) (o : List Event) (pc : SeqPc) (e : Env) : (settled s o pc e).out = o := rfl
@[simp] theorem settled_seqPc (s : State) (o : List Event) (pc : SeqPc) (e : Env) : (settled s o pc e).seqPc = pc := rfl
@[simp] theorem settled_env (s : State) (o : List Event) (pc : SeqPc) (e : Env) : (settled s o pc e).env = e := rfl

/-- Writes touch neither the stream nor the step position nor the environment, and do not read them. -/
theorem writes_settled (a : Action) (s : State) (o : List Event) (pc : SeqPc) (e : Env) :
    a.writes (settled s o pc e) = settled (a.writes s) o pc e := by cases a <;> rfl

theorem writes_frame (a : Action) (s : State) :
    (a.writes s).out = s.out ∧ (a.writes s).seqPc = s.seqPc ∧ (a.writes s).env = s.env := by
  cases a <;> exact ⟨rfl, rfl, rfl⟩

theorem writesOf_settled (as : List Action) (s : State) (o : List Event) (pc : SeqPc) (e : Env) :
    writesOf as (settled s o pc e) = settled (writesOf as s) o pc e := by
  induction as generalizing s with
  | nil => rfl
  | cons a rest ih => simp only [writesOf_cons, writes_settled, ih]

/-- An action whose wait is answered, with its effect in one piece. -/
theorem perform_done {a : Action} {s : State} (hs : s.env.completes a.sleepsNeeded = true)
    (hr : s.env.answers a.repliesNeeded = true) :
    a.perform s = .done (settled (a.writes s) (s.out ++ a.events) (s.seqPc.advance a.events.length)
      (s.env.after a.sleepsNeeded a.repliesNeeded)) := by
  rcases perform_cases a s with ⟨-, ⟨⟨ms, rfl⟩, h⟩ | ⟨rfl, h⟩⟩ | h
  · obtain ⟨e, he, -⟩ := takeSleep_of_completes hs
    rw [takeSleep_eq_none.mpr h] at he
    cases he
  · obtain ⟨e, he, -⟩ := takeReply_of_answers hr
    rw [takeReply_eq_none.mpr h] at he
    cases he
  · rw [h]
    have e1 : a.writes (s.emit a.events) =
        settled (a.writes s) (s.out ++ a.events) (s.seqPc.advance a.events.length) s.env :=
      writes_settled a s _ _ _
    rw [e1]
    rfl

/-- When the environment answers every wait of a list of actions, the list runs to its end: its events are appended, its
writes done, and the block is Idle. -/
theorem runActions_completes (as : List Action) (s : State) (hs : s.env.completes (sleepsOf as) = true)
    (hr : s.env.answers (repliesOf as) = true) :
    runActions as s =
      settled (writesOf as s) (s.out ++ eventsOf as) .idle (s.env.after (sleepsOf as) (repliesOf as)) := by
  induction as generalizing s with
  | nil => simp [runActions, settled]
  | cons a rest ih =>
    simp only [sleepsOf_cons, repliesOf_cons] at hs hr
    have hd := perform_done (a := a) (s := s) (Env.completes_mono (Nat.le_add_right _ _) hs)
      (Env.answers_mono (Nat.le_add_right _ _) hr)
    rw [runActions_done hd, ih _ (Env.completes_after hs) (Env.answers_after hr)]
    simp only [settled_out, settled_env, writesOf_settled, settled_settled, writesOf_cons, eventsOf_cons,
      sleepsOf_cons, repliesOf_cons, Env.after_after, List.append_assoc]

/-- The same for a command. -/
theorem runCommand_completes (cmd : Instr) (as : List Action) (s : State) (hs : s.env.completes (sleepsOf as) = true)
    (hr : s.env.answers (repliesOf as) = true) :
    runCommand cmd as s =
      settled (writesOf as s) (s.out ++ eventsOf as) .idle (s.env.after (sleepsOf as) (repliesOf as)) := by
  have h := runActions_completes as (settled s s.out (.running cmd 0) s.env) hs hr
  rw [writesOf_settled] at h
  exact h

/-- Everything a list of actions can do. Either it runs to its end, every wait answered, or it stops at one action that
waits on an environment that answers no more, with the actions before it done, their waits answered, and the events of
that one emitted. -/
theorem runActions_cases (as : List Action) (s : State) :
    (runActions as s =
        settled (writesOf as s) (s.out ++ eventsOf as) .idle (s.env.after (sleepsOf as) (repliesOf as)) ∧
      s.env.completes (sleepsOf as) = true ∧ s.env.answers (repliesOf as) = true) ∨
    ∃ before a after, as = before ++ a :: after ∧
      runActions as s = settled (writesOf before s) (s.out ++ (eventsOf before ++ a.events))
        (s.seqPc.advance (eventsOf before ++ a.events).length)
        (s.env.after (sleepsOf before) (repliesOf before)) ∧
      (s.env.completes (sleepsOf before) = true ∧ s.env.answers (repliesOf before) = true) ∧
      ((∃ ms, a = .sleep ms) ∧ (s.env.after (sleepsOf before) (repliesOf before)).sleeps = some 0 ∨
        a = .awaitReply ∧ (s.env.after (sleepsOf before) (repliesOf before)).replies = some 0) := by
  induction as generalizing s with
  | nil => left; simp [runActions, settled]
  | cons a rest ih =>
    rcases perform_cases a s with ⟨hw, hz⟩ | hd
    · right
      refine ⟨[], a, rest, rfl, ?_, by simp, ?_⟩
      · rw [runActions_waiting hw]
        simp [settled, State.emit]
      · simpa using hz
    · obtain ⟨hs, hr⟩ := answered_of_done hd
      have e1 : a.writes (s.emit a.events) =
          settled (a.writes s) (s.out ++ a.events) (s.seqPc.advance a.events.length) s.env :=
        writes_settled a s _ _ _
      rw [e1] at hd
      rw [runActions_done hd]
      rcases ih (settled (a.writes s) (s.out ++ a.events) (s.seqPc.advance a.events.length)
          (s.env.after a.sleepsNeeded a.repliesNeeded)) with
        ⟨h, hs', hr'⟩ | ⟨before, b, after, rfl, h, ⟨hs', hr'⟩, hz⟩
      · left
        refine ⟨Eq.trans h ?_, by simpa using Env.completes_add hs hs', by simpa using Env.answers_add hr hr'⟩
        simp only [settled_out, settled_env, writesOf_settled, settled_settled, writesOf_cons, eventsOf_cons,
          sleepsOf_cons, repliesOf_cons, Env.after_after, List.append_assoc]
      · right
        refine ⟨a :: before, b, after, rfl, Eq.trans h ?_,
          ⟨by simpa using Env.completes_add hs hs', by simpa using Env.answers_add hr hr'⟩, ?_⟩
        · simp only [settled_out, settled_env, settled_seqPc, writesOf_settled, settled_settled, writesOf_cons,
            eventsOf_cons, sleepsOf_cons, repliesOf_cons, Env.after_after, List.append_assoc, advance_advance,
            List.length_append]
        · simpa only [settled_env, sleepsOf_cons, repliesOf_cons, Env.after_after] using hz

/-- The same for a command, whose step position starts at 0. -/
theorem runCommand_cases (cmd : Instr) (as : List Action) (s : State) :
    (runCommand cmd as s =
        settled (writesOf as s) (s.out ++ eventsOf as) .idle (s.env.after (sleepsOf as) (repliesOf as)) ∧
      s.env.completes (sleepsOf as) = true ∧ s.env.answers (repliesOf as) = true) ∨
    ∃ before a after, as = before ++ a :: after ∧
      runCommand cmd as s = settled (writesOf before s) (s.out ++ (eventsOf before ++ a.events))
        (.running cmd (eventsOf before ++ a.events).length) (s.env.after (sleepsOf before) (repliesOf before)) ∧
      (s.env.completes (sleepsOf before) = true ∧ s.env.answers (repliesOf before) = true) ∧
      ((∃ ms, a = .sleep ms) ∧ (s.env.after (sleepsOf before) (repliesOf before)).sleeps = some 0 ∨
        a = .awaitReply ∧ (s.env.after (sleepsOf before) (repliesOf before)).replies = some 0) := by
  rcases runActions_cases as (settled s s.out (.running cmd 0) s.env) with
    ⟨h, ha⟩ | ⟨before, a, after, he, h, ha, hz⟩
  · left
    rw [writesOf_settled] at h
    exact ⟨h, ha⟩
  · right
    rw [writesOf_settled] at h
    refine ⟨before, a, after, he, Eq.trans h ?_, ha, hz⟩
    simp [SeqPc.advance]

/-- Of a list of actions, what the actions before one and that one emit begins what the list emits. -/
theorem eventsOf_prefix (before : List Action) (a : Action) (after : List Action) :
    eventsOf before ++ a.events <+: eventsOf (before ++ a :: after) := ⟨eventsOf after, by simp⟩

end Sys2Proof.Machine
end

