-- ==== Sys2Proof/Laws/Trace.lean ====
section
/-!
SUPPORT. Reading a stream that is made of parts: scanning, finding transactions, and summing delays go part by part, and
what they say of one whole transaction.
-/

namespace Sys2Proof.Machine

theorem scanFrom_append (p : BusPhase) (es fs : List Event) :
    scanFrom p (es ++ fs) = (scanFrom p es).bind (fun q => scanFrom q fs) := by
  induction es generalizing p with
  | nil => rfl
  | cons e rest ih =>
    simp only [List.cons_append, scanFrom]
    cases p.step e with
    | none => rfl
    | some q => exact ih q

theorem scanFrom_data (bs : List Byte) : scanFrom .framed (bs.map Event.d) = some .framed := by
  induction bs with
  | nil => rfl
  | cons b rest ih => simpa [scanFrom, BusPhase.step] using ih

/-- A whole transaction leads from outside to outside (R99, R101). -/
theorem scanFrom_transaction (op : Byte) (bs : List Byte) :
    scanFrom .outside (transaction op bs) = some .outside := by
  unfold transaction
  rw [List.append_assoc, scanFrom_append, show scanFrom .outside [Event.ts, Event.c op] = some .framed from rfl,
    Option.bind_some, scanFrom_append, scanFrom_data]
  rfl

/-- A part of a well-formed stream that begins it is well formed so far. -/
theorem scanFrom_isSome_of_prefix {p : BusPhase} {es fs : List Event} (h : es <+: fs)
    (hf : (scanFrom p fs).isSome = true) : (scanFrom p es).isSome = true := by
  obtain ⟨post, rfl⟩ := h
  rw [scanFrom_append] at hf
  cases hs : scanFrom p es with
  | none => simp [hs] at hf
  | some q => rfl

theorem dataUpToEnd_data (bs : List Byte) (rest : List Event) :
    dataUpToEnd (bs.map Event.d ++ Event.te :: rest) = bs := by
  induction bs with
  | nil => rfl
  | cons b bs ih => simp [dataUpToEnd, ih]

theorem transactionsOf_data (bs : List Byte) (rest : List Event) :
    transactionsOf (bs.map Event.d ++ rest) = transactionsOf rest := by
  induction bs with
  | nil => rfl
  | cons b bs ih => simpa [transactionsOf] using ih

/-- One whole transaction is found as itself (R102). -/
theorem transactionsOf_transaction (op : Byte) (bs : List Byte) (rest : List Event) :
    transactionsOf (transaction op bs ++ rest) = ⟨op, bs⟩ :: transactionsOf rest := by
  unfold transaction
  simp only [List.cons_append, List.nil_append, List.append_assoc, transactionsOf, dataUpToEnd_data,
    transactionsOf_data]

@[simp] theorem transactionsOf_transaction_nil (op : Byte) (bs : List Byte) :
    transactionsOf (transaction op bs) = [⟨op, bs⟩] := by
  simpa [transactionsOf] using transactionsOf_transaction op bs []

theorem requestedDelay_append (es fs : List Event) :
    requestedDelay (es ++ fs) = requestedDelay es + requestedDelay fs := by
  induction es with
  | nil => simp [requestedDelay]
  | cons e rest ih => cases e <;> simp [requestedDelay, ih, Nat.add_assoc]

/-- A transaction requests no delay. -/
@[simp] theorem requestedDelay_transaction (op : Byte) (bs : List Byte) :
    requestedDelay (transaction op bs) = 0 := by
  have h : requestedDelay (bs.map Event.d) = 0 := by
    induction bs with
    | nil => rfl
    | cons b bs ih => simpa [requestedDelay] using ih
  unfold transaction
  rw [requestedDelay_append, requestedDelay_append, h]
  rfl

/-! ## The waits of a stream (R270) -/

@[simp] theorem sleepsIn_nil : sleepsIn [] = 0 := rfl
@[simp] theorem receivedIn_nil : receivedIn [] = 0 := rfl

@[simp] theorem sleepsIn_append (es fs : List Event) : sleepsIn (es ++ fs) = sleepsIn es + sleepsIn fs :=
  List.countP_append

@[simp] theorem receivedIn_append (es fs : List Event) : receivedIn (es ++ fs) = receivedIn es + receivedIn fs :=
  List.countP_append

/-- A transaction asks for no delay. -/
@[simp] theorem sleepsIn_transaction (op : Byte) (bs : List Byte) : sleepsIn (transaction op bs) = 0 := by
  simp only [sleepsIn, List.countP_eq_zero]
  intro e he
  simp only [transaction, List.mem_append, List.mem_cons, List.mem_map, List.not_mem_nil, or_false] at he
  rcases he with ((rfl | rfl) | ⟨b, -, rfl⟩) | rfl <;> simp [Event.isSleep]

/-- A transaction that sends receives nothing. -/
@[simp] theorem receivedIn_transaction (op : Byte) (bs : List Byte) : receivedIn (transaction op bs) = 0 := by
  simp only [receivedIn, List.countP_eq_zero]
  intro e he
  simp only [transaction, List.mem_append, List.mem_cons, List.mem_map, List.not_mem_nil, or_false] at he
  rcases he with ((rfl | rfl) | ⟨b, -, rfl⟩) | rfl <;> simp [Event.isReceived]

/-- Where no list emitted at once holds a `SLEEP`, a list of actions emits as many as it waits for. -/
theorem sleepsIn_eventsOf {as : List Action} (h : ∀ es, Action.emit es ∈ as → sleepsIn es = 0) :
    sleepsIn (eventsOf as) = sleepsOf as := by
  induction as with
  | nil => rfl
  | cons a rest ih =>
    have hr := ih fun es he => h es (List.mem_cons_of_mem _ he)
    simp only [eventsOf_cons, sleepsOf_cons, sleepsIn_append, hr]
    congr 1
    cases a <;> first | exact h _ List.mem_cons_self | rfl

/-- Where no list emitted at once holds a received byte, a list of actions receives none. -/
theorem receivedIn_eventsOf {as : List Action} (h : ∀ es, Action.emit es ∈ as → receivedIn es = 0) :
    receivedIn (eventsOf as) = 0 := by
  induction as with
  | nil => rfl
  | cons a rest ih =>
    have hr := ih fun es he => h es (List.mem_cons_of_mem _ he)
    simp only [eventsOf_cons, receivedIn_append, hr, Nat.add_zero]
    cases a <;> first | exact h _ List.mem_cons_self | rfl

theorem dataUpToEnd_append {es : List Event} (fs : List Event) (h : scanFrom .framed es = some .outside) :
    dataUpToEnd (es ++ fs) = dataUpToEnd es := by
  induction es with
  | nil => simp [scanFrom] at h
  | cons e es ih =>
    cases e <;> simp [scanFrom, BusPhase.step] at h <;> simp [dataUpToEnd]
    all_goals exact ih h

/-- The transactions of a well-formed stream followed by another are those of the first and then those of the second. -/
theorem transactionsOf_append {es : List Event} (fs : List Event) (h : scanFrom .outside es = some .outside) :
    transactionsOf (es ++ fs) = transactionsOf es ++ transactionsOf fs := by
  have gen : ∀ p, scanFrom p es = some .outside →
      transactionsOf (es ++ fs) = transactionsOf es ++ transactionsOf fs := by
    clear h
    induction es with
    | nil => exact fun _ _ => rfl
    | cons e es ih =>
      intro p h
      cases p <;> cases e <;> simp [scanFrom, BusPhase.step] at h <;> simp [transactionsOf]
      all_goals first | exact ih _ h | exact ⟨dataUpToEnd_append fs h, ih _ h⟩
  exact gen _ h

/-! ## The lines (R106) -/

/-- The lines of a stream followed by another: those of the first, and those of the second from the level the first leaves
on `DATA`. -/
theorem linesFrom_append (active : Bool) (es fs : List Event) :
    ∃ level, linesFrom active (es ++ fs) = linesFrom active es ++ linesFrom level fs := by
  induction es generalizing active with
  | nil => exact ⟨active, rfl⟩
  | cons e es ih =>
    cases e with
    | ts => exact (ih false).imp fun _ h => by simp [linesFrom, h]
    | d b => exact (ih true).imp fun _ h => by simp [linesFrom, h]
    | rd v => exact (ih true).imp fun _ h => by simp [linesFrom, h]
    | _ => exact (ih active).imp fun _ h => by simp [linesFrom, h]

end Sys2Proof.Machine
end

