-- ==== Sys2Proof/Laws/Sequences.lean ====
section
/-!
SUPPORT. What each sub-sequence comes to: its events, its waits and its state writes, and the facts a legal configuration
gives about the power-up order, the delays and the geometry.
-/

namespace Sys2Proof.Machine

/-! ## A legal configuration -/

theorem legal_parts (c : LegalConfig) :
    c.raw.geometryOk = true ∧ c.raw.delaysOk = true ∧ legalPuOrder c.raw.puOrderB = true ∧ c.raw.pllOk = true ∧
      c.raw.patternOk = true := by
  have h := c.ok
  simp only [Config.wf, Bool.and_eq_true] at h
  exact ⟨h.1.1.1.1, h.1.1.1.2, h.1.1.2, h.1.2, h.2⟩

theorem legal_geometry (c : LegalConfig) :
    1 ≤ c.raw.width ∧ c.raw.width ≤ 255 ∧ 1 ≤ c.raw.height ∧ c.raw.height ≤ 65535 := by
  have h := (legal_parts c).1
  simp only [Config.geometryOk, Bool.and_eq_true, decide_eq_true_eq] at h
  exact ⟨h.1.1.1, h.1.1.2, h.1.2, h.2⟩

theorem legal_delays (c : LegalConfig) (r : Rev) :
    100 ≤ c.raw.tPon.get r ∧ c.raw.tPon.get r ≤ 200 ∧ 900 ≤ c.raw.tRefresh.get r ∧ c.raw.tRefresh.get r ≤ 1000 := by
  have h := (legal_parts c).2.1
  simp only [Config.delaysOk, Bool.and_eq_true, decide_eq_true_eq] at h
  cases r <;> simp only [PerRev.get] <;> omega

/-- The geometry of a state (R6). -/
theorem State.geometry (s : State) :
    1 ≤ s.conf.width ∧ s.conf.width ≤ 255 ∧ 1 ≤ s.conf.height ∧ s.conf.height ≤ 65535 := legal_geometry s.cfg

theorem legal_pattern (c : LegalConfig) {e : PatternByte} (h : e ∈ c.raw.testPattern) :
    e.index < c.raw.planeBytes := by
  have hp := (legal_parts c).2.2.2.2
  simp only [Config.patternOk, List.all_eq_true, decide_eq_true_eq] at hp
  exact hp e h

theorem puOrder_legal (c : LegalConfig) : legalPuOrder c.raw.puOrder = true := by
  unfold Config.puOrder
  cases c.raw.rev with
  | revisionA => exact legalPuOrder_listed
  | revisionB => exact (legal_parts c).2.2.1

/-- `PU_ORDER[REV]` is a permutation of the ten steps (R186). -/
theorem puOrder_perm (c : LegalConfig) : c.raw.puOrder.Perm listedPuOrder := by
  have h := puOrder_legal c
  simp only [legalPuOrder, Bool.and_eq_true] at h
  exact List.isPerm_iff.mp h.1

theorem waitFollowsPoweron_split {l : List PuStep} (h : waitFollowsPoweron l = true) :
    ∃ before after, l = before ++ [.poweron, .ponwait] ++ after := by
  induction l with
  | nil => simp [waitFollowsPoweron] at h
  | cons a rest ih =>
    cases rest with
    | nil => simp [waitFollowsPoweron] at h
    | cons b rest =>
      unfold waitFollowsPoweron at h
      split at h
      · rename_i ha
        simp only [decide_eq_true_eq] at h
        exact ⟨[], rest, by simp [ha, h]⟩
      · obtain ⟨before, after, e⟩ := ih h
        exact ⟨a :: before, after, by simp [e]⟩

/-- In `PU_ORDER[REV]` the settle delay comes directly after the power-on command (R186). -/
theorem puOrder_split (c : LegalConfig) :
    ∃ before after, c.raw.puOrder = before ++ [.poweron, .ponwait] ++ after := by
  have h := puOrder_legal c
  simp only [legalPuOrder, Bool.and_eq_true] at h
  exact waitFollowsPoweron_split h.2

/-! ## The steps of powerUp -/

/-- When the PLL step is sent (R154). -/
theorem pllSent_iff (s : State) : s.pllSent = true ↔
    s.conf.pllPolicy.get s.conf.rev = .always ∨
      (s.conf.pllPolicy.get s.conf.rev = .grey4Only ∧ s.screenMode = .grey4) := by
  unfold State.pllSent
  cases h : s.conf.pllPolicy.get s.conf.rev <;> simp

theorem eventsOf_puStep (s : State) (step : PuStep) : eventsOf (puStepActions s step) = puStepEvents s step := by
  cases step <;>
    simp only [puStepActions, puStepEvents, eventsOf_cons, eventsOf_nil, Action.events, List.append_nil]
  · rfl
  · rfl
  · rfl
  · rfl
  · simp only [pllctlEvents, pllSent_iff, State.args]
  · show transaction _ _ = transaction _ _
    simp only [resolutionBytes, Nat.shiftRight_eq_div_pow]
    congr 3
    have h := Nat.and_two_pow_sub_one_eq_mod s.conf.height 8
    simpa using congrArg (fun n => [BitVec.ofNat 8 n]) h
  · rfl
  · rfl
  · simp only [lutsActions, eventsOf_cons, eventsOf_nil, Action.events, lutVcomEvents, lutW2wEvents, lutB2wEvents,
      lutW2bEvents, lutB2bEvents, grey4Only, State.grey4Lut]
    split <;> simp

/-- How many `SLEEP`s one step of `powerUp` waits for. -/
def puStepSleeps : PuStep → Nat
  | .ponwait => 1
  | .booster => 0
  | .powerset => 0
  | .poweron => 0
  | .panelset => 0
  | .pllctl => 0
  | .resolution => 0
  | .vcomdc => 0
  | .interval => 0
  | .luts => 0

theorem sleepsOf_puStep (s : State) (step : PuStep) : sleepsOf (puStepActions s step) = puStepSleeps step := by
  cases step <;> rfl

theorem repliesOf_puStep (s : State) (step : PuStep) : repliesOf (puStepActions s step) = 0 := by
  cases step <;> rfl

theorem writesOf_puStep (s u : State) (step : PuStep) : writesOf (puStepActions s step) u = u := by
  cases step <;> rfl

theorem eventsOf_steps (s : State) (l : List PuStep) :
    eventsOf (l.flatMap (puStepActions s)) = l.flatMap (puStepEvents s) := by
  induction l with
  | nil => rfl
  | cons a rest ih => simp [eventsOf_puStep, ih]

theorem sleepsOf_steps (s : State) (l : List PuStep) :
    sleepsOf (l.flatMap (puStepActions s)) = (l.map puStepSleeps).sum := by
  induction l with
  | nil => rfl
  | cons a rest ih => simp [sleepsOf_puStep, ih]

theorem repliesOf_steps (s : State) (l : List PuStep) : repliesOf (l.flatMap (puStepActions s)) = 0 := by
  induction l with
  | nil => rfl
  | cons a rest ih => simp [repliesOf_puStep, ih]

theorem writesOf_steps (s u : State) (l : List PuStep) : writesOf (l.flatMap (puStepActions s)) u = u := by
  induction l generalizing u with
  | nil => rfl
  | cons a rest ih => simp [writesOf_append, writesOf_puStep, ih]

/-- What one step of `powerUp` sends at once holds no delay and receives nothing. -/
theorem emitted_puStep {s : State} {step : PuStep} {es : List Event} (h : .emit es ∈ puStepActions s step) :
    sleepsIn es = 0 ∧ receivedIn es = 0 := by
  cases step <;>
    simp only [puStepActions, lutsActions, List.mem_cons, List.not_mem_nil, or_false, Action.emit.injEq,
      reduceCtorEq] at h
  case luts =>
    rcases h with rfl | rfl | rfl | rfl | rfl <;>
      simp only [lutVcomEvents, lutW2wEvents, lutB2wEvents, lutW2bEvents, lutB2bEvents, grey4Only] <;> split <;> simp
  case pllctl =>
    subst h
    unfold pllctlEvents
    split <;> simp
  all_goals
    subst h
    simp [boosterEvents, powersetEvents, poweronEvents, panelsetEvents, resolutionEvents, vcomdcEvents, intervalEvents]

/-! ## The sub-sequences -/

/-- What `powerUp` sends at once holds no delay and receives nothing. -/
theorem emitted_powerUp {s : State} {es : List Event} (h : .emit es ∈ powerUpActions s) :
    sleepsIn es = 0 ∧ receivedIn es = 0 := by
  simp only [powerUpActions, List.mem_append, List.mem_flatMap, List.mem_singleton, reduceCtorEq, or_false] at h
  obtain ⟨step, -, h⟩ := h
  exact emitted_puStep h

theorem emitted_txPlanes {s : State} {es : List Event} (h : .emit es ∈ txPlanesActions s) :
    sleepsIn es = 0 ∧ receivedIn es = 0 := by
  simp only [txPlanesActions, List.mem_cons, List.not_mem_nil, or_false, Action.emit.injEq, reduceCtorEq,
    false_or] at h
  rcases h with rfl | rfl <;> simp [plane0dataEvents, plane1dataEvents]

theorem emitted_powerDown {s : State} {es : List Event} (h : .emit es ∈ powerDownActions s) :
    sleepsIn es = 0 ∧ receivedIn es = 0 := by
  simp only [powerDownActions, List.mem_cons, List.not_mem_nil, or_false, Action.emit.injEq, reduceCtorEq] at h
  rcases h with rfl | rfl | rfl <;> simp [intervalEvents, vcomdcEvents, poweroffEvents]

@[simp] theorem eventsOf_powerUp (s : State) : eventsOf (powerUpActions s) = powerUpEvents s := by
  simp [powerUpActions, eventsOf_steps, Action.events, powerUpEvents]

/-- `powerUp` waits for exactly one `SLEEP`, in every legal order (R183, R186). -/
@[simp] theorem sleepsOf_powerUp (s : State) : sleepsOf (powerUpActions s) = 1 := by
  have h := ((puOrder_perm s.cfg).map puStepSleeps).sum_eq
  have e : (listedPuOrder.map puStepSleeps).sum = 1 := rfl
  simp [powerUpActions, sleepsOf_steps, Action.sleepsNeeded, h, e]

@[simp] theorem repliesOf_powerUp (s : State) : repliesOf (powerUpActions s) = 0 := by
  simp [powerUpActions, repliesOf_steps, Action.repliesNeeded]

@[simp] theorem writesOf_powerUp (s u : State) :
    writesOf (powerUpActions s) u = { u with pstate := .poweredUp, initialized := true } := by
  simp [powerUpActions, writesOf_append, writesOf_steps, Action.writes]

theorem plane0Payload_eq (s : State) : plane0Payload s = plane0Sent s := by
  unfold plane0Payload plane0Sent
  cases s.screenMode <;> simp [Memory.bytes, planeList, State.plane]

@[simp] theorem eventsOf_txPlanes (s : State) : eventsOf (txPlanesActions s) = txPlanesEvents s := by
  simp [txPlanesActions, Action.events, plane0dataEvents, plane1dataEvents, txPlanesEvents, plane0Payload_eq,
    Memory.bytes, planeList, State.plane, tTurn]

@[simp] theorem sleepsOf_txPlanes (s : State) : sleepsOf (txPlanesActions s) = 1 := rfl
@[simp] theorem repliesOf_txPlanes (s : State) : repliesOf (txPlanesActions s) = 0 := rfl
@[simp] theorem writesOf_txPlanes (s u : State) : writesOf (txPlanesActions s) u = { u with dirty := Dirty.empty } := rfl

@[simp] theorem eventsOf_powerDown (s : State) : eventsOf (powerDownActions s) = powerDownEvents s := by
  simp [powerDownActions, Action.events, powerDownEvents, intervalEvents, vcomdcEvents, poweroffEvents,
    State.intervalArgs, State.vcomdcArgs, State.defaultArgs]

@[simp] theorem sleepsOf_powerDown (s : State) : sleepsOf (powerDownActions s) = 0 := rfl
@[simp] theorem repliesOf_powerDown (s : State) : repliesOf (powerDownActions s) = 0 := rfl
@[simp] theorem writesOf_powerDown (s u : State) :
    writesOf (powerDownActions s) u = { u with pstate := u.pstate.afterPowerDown } := rfl

/-! ## The transmission commands -/

@[simp] theorem eventsOf_refresh (f : Bool) (s : State) : eventsOf (refreshActions f s) = refreshEvents f s := by
  cases f <;> simp [refreshActions, refreshEvents, refreshtrigEvents, Action.events]

@[simp] theorem sleepsOf_refresh (f : Bool) (s : State) : sleepsOf (refreshActions f s) = 3 := by
  cases f <;> simp [refreshActions, Action.sleepsNeeded]

@[simp] theorem repliesOf_refresh (f : Bool) (s : State) : repliesOf (refreshActions f s) = 0 := by
  cases f <;> simp [refreshActions, Action.repliesNeeded]

@[simp] theorem writesOf_refresh (f : Bool) (s u : State) : writesOf (refreshActions f s) u =
    { u with
      dirty := Dirty.empty
      pstate := if f then .poweredDown else .poweredUp
      initialized := true
      result := .ok } := by
  cases f <;> simp [refreshActions, writesOf_append, Action.writes, PState.afterPowerDown]

@[simp] theorem eventsOf_quickdraw (s : State) : eventsOf (quickdrawActions s) = quickdrawEvents s := by
  cases h : s.conf.qdPowerup <;> simp [quickdrawActions, quickdrawEvents, datastopEvents, Action.events, h]

@[simp] theorem sleepsOf_quickdraw (s : State) :
    sleepsOf (quickdrawActions s) = if s.conf.qdPowerup then 3 else 2 := by
  cases h : s.conf.qdPowerup <;> simp [quickdrawActions, Action.sleepsNeeded, h]

@[simp] theorem repliesOf_quickdraw (s : State) : repliesOf (quickdrawActions s) = 0 := by
  cases h : s.conf.qdPowerup <;> simp [quickdrawActions, Action.repliesNeeded, h]

@[simp] theorem writesOf_quickdraw (s u : State) : writesOf (quickdrawActions s) u =
    { u with
      dirty := Dirty.empty
      pstate := if s.conf.qdPowerup then .poweredUp else u.pstate
      initialized := if s.conf.qdPowerup then true else u.initialized
      result := .ok } := by
  cases h : s.conf.qdPowerup <;> simp [quickdrawActions, writesOf_append, Action.writes, h]

end Sys2Proof.Machine
end

