-- ==== Sys2Proof/Laws/Pixels.lean ====
section
/-!
SUPPORT. The arithmetic of pixels and of the dirty rectangle: offsets and masks (spec/40_framebuffer_ops.md R135, R138),
and the four registers of the rectangle as naturals (R132, R136), for legal geometries.
-/

namespace Sys2Proof.Machine

/-! ## Offsets and masks -/

/-- An offset inside the geometry lies below `W*H` (R135). -/
theorem pixelOffset_lt {w h x y : Nat} (hx : x < w) (hy : y < h) : pixelOffset w x y < w * h := by
  have h1 : (y + 1) * w ≤ h * w := Nat.mul_le_mul_right w hy
  rw [Nat.add_mul, Nat.one_mul] at h1
  rw [Nat.mul_comm w h]
  unfold pixelOffset
  omega

/-- A bit offset below `W*H` lies in a byte below `N` (R135). -/
theorem byteIndex_lt {c : Config} {o : Nat} (h : o < c.width * c.height) : byteIndex o < c.planeBytes := by
  unfold byteIndex Config.planeBytes ceilDiv
  omega

/-- The offset determines the pixel (R135). -/
theorem pixelOffset_inj {w x y x' y' : Nat} (hx : x < w) (hx' : x' < w)
    (h : pixelOffset w x y = pixelOffset w x' y') : x = x' ∧ y = y' := by
  have hm : pixelOffset w x y % w = pixelOffset w x' y' % w := by rw [h]
  have hd : pixelOffset w x y / w = pixelOffset w x' y' / w := by rw [h]
  have hw : 0 < w := by omega
  simp only [pixelOffset, Nat.add_mul_mod_self_right, Nat.add_mul_div_right _ _ hw, Nat.mod_eq_of_lt hx,
    Nat.mod_eq_of_lt hx', Nat.div_eq_of_lt hx, Nat.div_eq_of_lt hx', Nat.zero_add] at hm hd
  exact ⟨hm, hd⟩

/-- A mask depends on the offset inside the byte only. -/
theorem pmask_mod (order : BitOrder) (o : Nat) : pmask order o = pmask order (o % 8) := by
  unfold pmask
  rw [Nat.mod_mod]

/-- Setting or clearing the bits of a mask sets or clears the bit it names (R131, R138). -/
theorem setBits_and_pmask (order : BitOrder) (o : Nat) (v : Byte) (b : Bool) :
    decide ((if b then v ||| pmask order o else v &&& ~~~(pmask order o)) &&& pmask order o ≠ 0x00#8) = b := by
  have hk : o % 8 < 8 := Nat.mod_lt _ (by omega)
  rw [pmask_mod]
  generalize o % 8 = k at hk
  revert v
  cases b <;> cases order <;> (interval_cases k <;> decide)

/-- Setting or clearing the bits of one mask leaves the bit of another offset of the same byte (R131, R138). -/
theorem setBits_and_pmask_other (order : BitOrder) {o o' : Nat} (h : o % 8 ≠ o' % 8) (v : Byte) (b : Bool) :
    (if b then v ||| pmask order o else v &&& ~~~(pmask order o)) &&& pmask order o' = v &&& pmask order o' := by
  have hk : o % 8 < 8 := Nat.mod_lt _ (by omega)
  have hk' : o' % 8 < 8 := Nat.mod_lt _ (by omega)
  have hz : pmask order (o % 8) &&& pmask order (o' % 8) = 0#8 := by
    generalize o % 8 = k at hk h
    generalize o' % 8 = k' at hk' h
    cases order <;> (interval_cases k <;> interval_cases k' <;> first | (exact absurd rfl h) | decide)
  rw [← pmask_mod, ← pmask_mod] at hz
  generalize pmask order o = m at hz
  generalize pmask order o' = m' at hz
  cases b <;> (simp only [Bool.false_eq_true, if_true, if_false]; ext i hi)
  all_goals
    have hi' : (m &&& m')[i] = (0#8)[i] := by rw [hz]
    simp only [BitVec.getElem_and, BitVec.getElem_or, BitVec.getElem_not, BitVec.getElem_zero] at hi' ⊢
    cases hm : m[i] <;> cases hm' : m'[i] <;> simp_all

/-- After writing one offset's bit of a plane, the bit at any offset (R25, R138). -/
theorem bitAt_setBits {m : Memory} (hm : m.wf = true) (order : BitOrder) (o o' : Nat) (b : Bool) :
    (m.setBits (byteIndex o) (pmask order o) b).bitAt order o' = if o' = o then b else m.bitAt order o' := by
  unfold Memory.bitAt
  by_cases hi : byteIndex o' = byteIndex o
  · rw [hi, Memory.read_setBits_same hm]
    by_cases ho : o' = o
    · subst ho
      rw [if_pos rfl]
      exact setBits_and_pmask order o' _ b
    · rw [if_neg ho, setBits_and_pmask_other order (by unfold byteIndex at hi; omega)]
  · rw [Memory.read_setBits_other _ _ _ hi, if_neg (by rintro rfl; exact hi rfl)]

/-! ## The dirty rectangle -/

theorem alignDown8_eq (x : Nat) : alignDown8 x = x - x % 8 := by
  unfold alignDown8
  omega

theorem touch_minX (d : Dirty) (x y : Nat) :
    (d.touch x y).minX.toNat = min d.minX.toNat (alignDown8 x) := by
  have := d.minX.isLt
  show (BitVec.ofNat 8 _).toNat = _
  rw [BitVec.toNat_ofNat, Nat.mod_eq_of_lt]
  unfold alignDown8
  omega

theorem touch_maxX (d : Dirty) {x : Nat} (hx : x ≤ 255) (y : Nat) :
    (d.touch x y).maxX.toNat = max d.maxX.toNat (alignDown8 x + 8) := by
  have := d.maxX.isLt
  show (BitVec.ofNat 9 _).toNat = _
  rw [BitVec.toNat_ofNat, Nat.mod_eq_of_lt]
  unfold alignDown8
  omega

theorem touch_minY (d : Dirty) (x : Nat) {y : Nat} (hy : y < 65535) :
    (d.touch x y).minY.toNat = min d.minY.toNat y := by
  have := d.minY.isLt
  show (BitVec.ofNat 16 _).toNat = _
  rw [BitVec.toNat_ofNat, Nat.mod_eq_of_lt]
  omega

theorem touch_maxY (d : Dirty) (x : Nat) {y : Nat} (hy : y < 65535) :
    (d.touch x y).maxY.toNat = max d.maxY.toNat (y + 1) := by
  have := d.maxY.isLt
  show (BitVec.ofNat 16 _).toNat = _
  rw [BitVec.toNat_ofNat, Nat.mod_eq_of_lt]
  omega

/-- `FULL` as naturals, for a legal geometry (R28). -/
theorem full_toNat {w h : Nat} (hw : w ≤ 255) (hh : h ≤ 65535) :
    (Dirty.full w h).minX.toNat = 0 ∧ (Dirty.full w h).maxX.toNat = alignDown8 (w - 1) + 8 ∧
      (Dirty.full w h).minY.toNat = 0 ∧ (Dirty.full w h).maxY.toNat = h := by
  refine ⟨rfl, ?_, rfl, ?_⟩
  · show (BitVec.ofNat 9 _).toNat = _
    rw [BitVec.toNat_ofNat, Nat.mod_eq_of_lt]
    unfold alignDown8
    omega
  · show (BitVec.ofNat 16 _).toNat = _
    rw [BitVec.toNat_ofNat, Nat.mod_eq_of_lt]
    omega

end Sys2Proof.Machine
end

