-- ==== Sys2Proof/Laws/Step.lean ====
section
/-!
SUPPORT. What step does in each of its cases, and what exec of each kind of instruction is: the framebuffer commands by
their effect, every other instruction as a list of actions run.
-/

namespace Sys2Proof.Machine

/-! ## step -/

theorem step_request {s : State} (h : s.seqPc = .idle) (hw : s.wireFetch = none) : step s = serveRequest s := by
  simp only [step, h, hw]

theorem step_wire {s : State} {w : WireWord} (h : s.seqPc = .idle) (hw : s.wireFetch = some w) :
    step s = runWire w s := by simp only [step, h, hw]

theorem step_busy {s : State} {cmd : Instr} {k : Nat} (h : s.seqPc = .running cmd k) : step s = stepBusy s := by
  simp only [step, h]

/-- Everything a step that answers a next state can do: nothing; run an instruction; raise `IllegalCommand`; return a
value to the host; reset the block. -/
theorem step_cases {s t : State} (h : step s = .next t) :
    t = s ∨
    (s.seqPc = .idle ∧ ∃ i u, exec i u = .next t ∧
      ((∃ rest, u = { s with requests := rest }) ∨ u = { s with wireFetch := none })) ∨
    (s.seqPc = .idle ∧ ∃ rest, t = raise .illegalCommand { s with requests := rest }) ∨
    (s.seqPc = .idle ∧ ∃ rest v, t = { s with requests := rest, responses := s.responses ++ [v] }) ∨
    (s.seqPc = .idle ∧ ∃ rest, s.requests = .reset :: rest ∧ t = resetBlock { s with requests := rest }) := by
  have hpc : s.seqPc = .idle ∨ ∃ cmd k, s.seqPc = .running cmd k := by
    cases s.seqPc <;> simp
  rcases hpc with hp | ⟨cmd, k, hp⟩
  · rcases Option.eq_none_or_eq_some s.wireFetch with hw | ⟨w, hw⟩
    · rw [step_request hp hw, serveRequest] at h
      split at h
      · cases h
        exact .inl rfl
      · rename_i cw rest _
        simp only [runDecoded, takeCommand] at h
        split at h
        · exact .inr (.inl ⟨hp, _, _, h, .inl ⟨rest, rfl⟩⟩)
        · cases h
          exact .inr (.inr (.inl ⟨hp, rest, rfl⟩))
      · rename_i n rest _
        simp only [serveReadReg] at h
        split at h <;> cases h
        exact .inr (.inr (.inr (.inl ⟨hp, rest, _, rfl⟩)))
      · rename_i p n rest _
        simp only [serveReadPlane] at h
        split at h <;> cases h
        exact .inr (.inr (.inr (.inl ⟨hp, rest, _, rfl⟩)))
      · rename_i rest hr
        cases h
        exact .inr (.inr (.inr (.inr ⟨hp, rest, hr, rfl⟩)))
    · rw [step_wire hp hw, runWire] at h
      split at h
      · exact .inr (.inl ⟨hp, _, _, h, .inr rfl⟩)
      · cases h
  · rw [step_busy hp, stepBusy] at h
    split at h <;> cases h
    exact .inl rfl

/-! ## exec -/

/-- The actions of an instruction that the sequencer runs; `none` for the commands that are done at once. -/
def actionsOf (i : Instr) (s : State) : Option (List Action) :=
  match i with
  | .clear => none
  | .setpixel _ _ _ => none
  | .testpat => none
  | .setmode _ => none
  | .refresh f => some (refreshActions f s)
  | .quickdraw => some (quickdrawActions s)
  | .resethw => some resethwActions
  | .powerup => some (powerUpActions s ++ [.resultOk])
  | .powerdown => some (powerDownActions s ++ [.resultOk])
  | .getstatus => some (getstatusActions s.env.nextReply s)
  | .booster => some [.emit (boosterEvents s)]
  | .powerset => some [.emit (powersetEvents s)]
  | .poweron => some [.emit (poweronEvents s)]
  | .panelset => some [.emit (panelsetEvents s)]
  | .pllctl => some [.emit (pllctlEvents s)]
  | .resolution => some [.emit (resolutionEvents s)]
  | .vcomdc u => some [.emit (vcomdcEvents u s)]
  | .interval u => some [.emit (intervalEvents u s)]
  | .lutVcom => some [.emit (lutVcomEvents s)]
  | .lutW2w => some [.emit (lutW2wEvents s)]
  | .lutB2w => some [.emit (lutB2wEvents s)]
  | .lutW2b => some [.emit (lutW2bEvents s)]
  | .lutB2b => some [.emit (lutB2bEvents s)]
  | .plane0data => some [.emit (plane0dataEvents s)]
  | .plane1data => some [.emit (plane1dataEvents s)]
  | .refreshtrig => some [.emit (refreshtrigEvents s)]
  | .datastop => some [.emit (datastopEvents s)]
  | .poweroff => some [.emit (poweroffEvents s)]
  | .statusread => some (statusreadActions s.env.nextReply s)

/-- An instruction the sequencer runs is its actions run. -/
theorem exec_of_actions {i : Instr} {s : State} {as : List Action} (h : actionsOf i s = some as) :
    exec i s = .next (runCommand i as s) := by
  cases i <;> first | (cases h; done) | (simp only [actionsOf, Option.some.injEq] at h; subst h; rfl)

/-- The instructions that are done at once. -/
theorem exec_at_once {i : Instr} {s : State} (h : actionsOf i s = none) :
    (∃ m, i = .setmode m) ∨ isFramebufferCommand i = true := by
  cases i <;> first | exact .inr rfl | exact .inl ⟨_, rfl⟩ | cases h

/-- No instruction stops: each answers a next state. -/
theorem exec_answers (i : Instr) (s : State) : ∃ t, exec i s = .next t := by
  cases i <;> exact ⟨_, rfl⟩

/-- What an instruction the sequencer runs does when the environment answers its waits. -/
theorem exec_completes {i : Instr} {s : State} {as : List Action} (h : actionsOf i s = some as)
    (hs : s.env.completes (sleepsOf as) = true) (hr : s.env.answers (repliesOf as) = true) :
    exec i s = .next
      (settled (writesOf as s) (s.out ++ eventsOf as) .idle (s.env.after (sleepsOf as) (repliesOf as))) := by
  rw [exec_of_actions h, runCommand_completes _ _ _ hs hr]

/-- A wire command that only sends. -/
theorem exec_emit {i : Instr} {s : State} {es : List Event} (h : actionsOf i s = some [.emit es]) :
    exec i s = .next { s with seqPc := .idle, out := s.out ++ es } := by
  rw [exec_completes h (Env.completes_zero _) (Env.answers_zero _)]
  simp [settled, Action.writes, Action.events, Action.sleepsNeeded, Action.repliesNeeded]

/-- No instruction waits for more than three `SLEEP`s or one status byte. -/
theorem actionsOf_waits {i : Instr} {s : State} {as : List Action} (h : actionsOf i s = some as) :
    sleepsOf as ≤ 3 ∧ repliesOf as ≤ 1 := by
  cases i <;> simp only [actionsOf, Option.some.injEq, reduceCtorEq] at h <;> subst h <;>
    first
    | (rw [sleepsOf_quickdraw, repliesOf_quickdraw]; split <;> decide)
    | simp [Action.sleepsNeeded, Action.repliesNeeded]
    | simp [resethwActions, getstatusActions, statusreadActions, Action.sleepsNeeded, Action.repliesNeeded]

/-- What an instruction sends at once holds no delay, and receives nothing but for a status read's reply: every other
`SLEEP` and received byte of its stream is one it has waited for. -/
theorem actionsOf_emitted {i : Instr} {s : State} {as : List Action} (h : actionsOf i s = some as) {es : List Event}
    (he : .emit es ∈ as) :
    sleepsIn es = 0 ∧ (receivedIn es = 0 ∨ (i = .getstatus ∨ i = .statusread) ∧ es = statusreadReply s.env.nextReply) := by
  cases i <;> simp only [actionsOf, Option.some.injEq, reduceCtorEq] at h <;> subst h
  case refresh f =>
    simp only [refreshActions, List.mem_append, List.mem_cons, List.not_mem_nil, or_false, Action.emit.injEq,
      reduceCtorEq] at he
    rcases he with ((h | h) | rfl) | h
    · exact (emitted_powerUp h).imp_right .inl
    · exact (emitted_txPlanes h).imp_right .inl
    · simp [refreshtrigEvents]
    · split at h
      · exact (emitted_powerDown h).imp_right .inl
      · cases h
  case quickdraw =>
    simp only [quickdrawActions, List.mem_append, List.mem_cons, List.not_mem_nil, or_false, Action.emit.injEq,
      reduceCtorEq] at he
    rcases he with (h | h) | rfl
    · split at h
      · exact (emitted_powerUp h).imp_right .inl
      · cases h
    · exact (emitted_txPlanes h).imp_right .inl
    · simp [datastopEvents]
  case powerup =>
    simp only [List.mem_append, List.mem_singleton, reduceCtorEq, or_false] at he
    exact (emitted_powerUp he).imp_right .inl
  case powerdown =>
    simp only [List.mem_append, List.mem_singleton, reduceCtorEq, or_false] at he
    exact (emitted_powerDown he).imp_right .inl
  case resethw =>
    simp only [resethwActions, List.mem_cons, List.not_mem_nil, or_false, Action.emit.injEq, reduceCtorEq,
      false_or] at he
    rcases he with rfl | rfl | rfl <;> exact ⟨rfl, .inl rfl⟩
  case getstatus =>
    simp only [getstatusActions, statusreadActions, List.cons_append, List.nil_append, List.mem_cons, List.not_mem_nil,
      or_false, Action.emit.injEq, reduceCtorEq, false_or] at he
    rcases he with rfl | rfl
    · exact ⟨rfl, .inl rfl⟩
    · exact ⟨rfl, .inr ⟨.inl rfl, rfl⟩⟩
  case statusread =>
    simp only [statusreadActions, List.mem_cons, List.not_mem_nil, or_false, Action.emit.injEq, reduceCtorEq,
      false_or] at he
    rcases he with rfl | rfl
    · exact ⟨rfl, .inl rfl⟩
    · exact ⟨rfl, .inr ⟨.inr rfl, rfl⟩⟩
  all_goals
    simp only [List.mem_singleton, Action.emit.injEq] at he
    subst he
    first
    | (simp only [pllctlEvents, lutVcomEvents, lutW2wEvents, lutB2wEvents, lutW2bEvents, lutB2bEvents, grey4Only]
       split <;> simp)
    | simp [boosterEvents, powersetEvents, poweronEvents, panelsetEvents, resolutionEvents, vcomdcEvents,
        intervalEvents, plane0dataEvents, plane1dataEvents, refreshtrigEvents, datastopEvents, poweroffEvents]

/-- SETPIXEL inside the geometry (R131). -/
theorem exec_setpixel_inside {s : State} {x : BitVec 8} {y : BitVec 16} (c : BitVec 2)
    (h : inPanel s.conf x.toNat y.toNat = true) :
    exec (.setpixel x y c) s =
      .next { s.writePixel x.toNat y.toNat c with dirty := s.dirty.touch x.toNat y.toNat }.complete := by
  show Host.Outcome.next _ = _
  rw [if_pos h]

/-- SETPIXEL outside the geometry (R133). -/
theorem exec_setpixel_outside {s : State} {x : BitVec 8} {y : BitVec 16} (c : BitVec 2)
    (h : ¬inPanel s.conf x.toNat y.toNat = true) : exec (.setpixel x y c) s = .next (raise .outOfBounds s) := by
  show Host.Outcome.next _ = _
  rw [if_neg h]

theorem inPanel_iff (c : Config) (x y : Nat) : inPanel c x y = true ↔ x < c.width ∧ y < c.height := by
  simp [inPanel]

/-- The byte writes of TESTPAT touch the planes and nothing else (R134). -/
theorem writePattern_frame (l : List PatternByte) (s : State) :
    writePattern l s = { s with p0 := (writePattern l s).p0, p1 := (writePattern l s).p1 } := by
  induction l generalizing s with
  | nil => rfl
  | cons e l ih =>
    rw [show writePattern (e :: l) s = writePattern l (s.writePlane e.plane e.index e.value.toByte) from rfl, ih]
    simp only [State.writePlane]
    cases e.plane <;> rfl

end Sys2Proof.Machine
end

