-- ==== Sys2Proof/Tests/Slice0.lean ====
section
/-!
SUPPORT. The model's own tests: words written out from the spec's encodings, ill-formed terms that the checks refuse,
single steps with results taken from spec/95_test_vectors.md (T<n>), and for each statement with hypotheses a state and
operands that meet them.
-/

namespace Sys2Proof.Tests

open Sys2Proof Sys2Proof.Machine

/-! ## Configurations of spec/95_test_vectors.md -/

/-- The test configuration `CFG-X`; RevisionB repeats RevisionA's values. -/
def cfgXRecord : Config where
  width := 16
  height := 2
  rev := .revisionA
  mode0 := .mono
  bitOrder := .msbFirst
  clearMarksFull := true
  testPattern := [⟨.plane0, 0, .xAA⟩, ⟨.plane1, 0, .x55⟩, ⟨.plane0, 3, .xFF⟩, ⟨.plane1, 3, .xFF⟩]
  ops := ⟨0xE0, 0xE1, 0xE2, 0xE3, 0xE4, 0xE5, 0xE6, 0xE7, 0xE8, 0xE9, 0xEA, 0xEB, 0xEC, 0xED, 0xEE, 0xEF, 0xF0, 0xF1,
    0xF2⟩
  boosterArgs := ⟨⟨[1, 2, 3], [1, 2, 3]⟩, ⟨[1, 2, 3], [1, 2, 3]⟩⟩
  powersetArgs := ⟨⟨[0x11, 0x12], [0x11, 0x13]⟩, ⟨[0x11, 0x12], [0x11, 0x13]⟩⟩
  panelsetArgs := ⟨⟨[0x21], [0x22]⟩, ⟨[0x21], [0x22]⟩⟩
  pllctlArgs := ⟨⟨[0x31], [0x31]⟩, ⟨[0x31], [0x31]⟩⟩
  vcomdcArgs := ⟨⟨[0x41], [0x41]⟩, ⟨[0x41], [0x41]⟩⟩
  intervalArgs := ⟨⟨[0x51], [0x52]⟩, ⟨[0x51], [0x52]⟩⟩
  intervalDefaultArgs := ⟨[0x5F], [0x5F]⟩
  vcomdcDefaultArgs := ⟨[0x4F], [0x4F]⟩
  lut := ⟨⟨⟨[], [], [], [], []⟩, ⟨[0xA0, 0xA1], [0xB0], [0xC0], [0xD0], [0xD1, 0xD2]⟩⟩,
    ⟨⟨[], [], [], [], []⟩, ⟨[0xA0, 0xA1], [0xB0], [0xC0], [0xD0], [0xD1, 0xD2]⟩⟩⟩
  puOrderB := listedPuOrder
  pllPolicy := ⟨.grey4Only, .always⟩
  qdPowerup := true
  tPon := ⟨100, 200⟩
  tRefresh := ⟨900, 1000⟩
  tQd := 5
  baseCmd := 0
  baseReg := 0
  baseP0 := 0
  baseP1 := 0

/-- `CFG-X` with another geometry and no test pattern. -/
def panel (w h : Nat) : Config := { cfgXRecord with width := w, height := h, testPattern := [] }

def cfgX : LegalConfig := ⟨cfgXRecord, by decide⟩
/-- The geometry of `CFG-128`. -/
def cfg128 : LegalConfig := ⟨panel 128 296, by decide⟩
def cfg128Lsb : LegalConfig := ⟨{ panel 128 296 with bitOrder := .lsbFirst }, by decide⟩
/-- A width that is not a multiple of 8, with pad bits (T16). -/
def cfg100 : LegalConfig := ⟨panel 100 3, by decide⟩
/-- The widest panel (T17). -/
def cfg255 : LegalConfig := ⟨panel 255 2, by decide⟩
def cfgNoMark : LegalConfig := ⟨{ cfgXRecord with clearMarksFull := false }, by decide⟩
def cfgNoPowerup : LegalConfig := ⟨{ cfgXRecord with qdPowerup := false }, by decide⟩
def cfgRevB : LegalConfig := ⟨{ cfgXRecord with rev := .revisionB }, by decide⟩

/-- Just after reset. -/
def blockX : State := State.construct cfgX
/-- After reset, with the rectangle `EMPTY`. -/
def emptied (c : LegalConfig) : State := { State.construct c with dirty := Dirty.empty }
def greyX : State := { blockX with screenMode := .grey4 }
/-- The start of T42. -/
def quickX (c : LegalConfig) : State :=
  { State.construct c with p0 := [(0, 0x80), (3, 0x01)], p1 := [(0, 0x80), (1, 0x80)], pstate := .poweredDown }
def silentX : State := { blockX with env := ⟨some 0, some 0, 0⟩ }
def asked (r : Request) : State := { blockX with requests := [r] }
def waiting (r : Request) : State := { asked r with seqPc := .running .resethw 2 }

/-- What an instruction leaves, looked at through `f`. -/
def after {α : Type} (i : Instr) (s : State) (f : State → α) : Option α :=
  match exec i s with
  | .next t => some (f t)
  | .fault _ => none
  | .refused _ => none

def planesAndBox (s : State) : Memory × Memory × Dirty := (s.p0, s.p1, s.dirty)

/-! ## Decoding: words written out from spec/30_encoding.md R92 and T1, T2 -/

theorem test_decode_setpixel : decodeHost 0b00100001000000010010011101111111#32 = .ok (.setpixel 127 295 1) := by decide
theorem test_decode_setpixel_max : decodeHost 0b00100011111111111111111111111111#32 = .ok (.setpixel 255 65535 3) := by
  decide
theorem test_decode_clear : decodeHost 0b00010000000000000000000000000000#32 = .ok .clear := by decide
theorem test_decode_testpat : decodeHost 0b00110000000000000000000000000000#32 = .ok .testpat := by decide
theorem test_decode_setmode : decodeHost 0b01000000000000000000000000000001#32 = .ok (.setmode .grey4) := by decide
theorem test_decode_refresh : decodeHost 0b01010000000000000000000000000001#32 = .ok (.refresh true) := by decide
theorem test_decode_quickdraw : decodeHost 0b01100000000000000000000000000000#32 = .ok .quickdraw := by decide
theorem test_decode_resethw : decodeHost 0b01110000000000000000000000000000#32 = .ok .resethw := by decide
theorem test_decode_powerup : decodeHost 0b10000000000000000000000000000000#32 = .ok .powerup := by decide
theorem test_decode_powerdown : decodeHost 0b10010000000000000000000000000000#32 = .ok .powerdown := by decide
theorem test_decode_getstatus : decodeHost 0b10100000000000000000000000000000#32 = .ok .getstatus := by decide
theorem test_decode_reserved_opcode : decodeHost 0xB0000000#32 = .error .reservedOpcode := by decide
theorem test_decode_zero : decodeHost 0x00000000#32 = .error .reservedOpcode := by decide
theorem test_decode_reserved_field : decodeHost 0x24000080#32 = .error .reservedField := by decide
theorem test_decode_unused_bits : decodeHost 0x50000003#32 = .error .unusedOperandBits := by decide
theorem test_decode_unused_high_bits : decodeHost 0x41000000#32 = .error .unusedOperandBits := by decide

/-- The nineteen command bytes of `CFG-X`, in the order of R107. -/
theorem test_decode_wire :
    [0xE0, 0xE1, 0xE2, 0xE3, 0xE4, 0xE5, 0xE6, 0xE7, 0xE8, 0xE9].map
      (fun b => decodeWire cfgXRecord ⟨b, .settings⟩) =
    ([.booster, .powerset, .poweron, .panelset, .pllctl, .resolution, .vcomdc .settings, .interval .settings, .lutVcom,
      .lutW2w].map Except.ok) := by decide
theorem test_decode_wire_rest :
    [0xEA, 0xEB, 0xEC, 0xED, 0xEE, 0xEF, 0xF0, 0xF1, 0xF2].map
      (fun b => decodeWire cfgXRecord ⟨b, .settings⟩) =
    ([.lutB2w, .lutW2b, .lutB2b, .plane0data, .plane1data, .refreshtrig, .datastop, .poweroff, .statusread].map
      Except.ok) := by decide
theorem test_decode_wire_defaults : decodeWire cfgXRecord ⟨0xE6, .defaults⟩ = .ok (.vcomdc .defaults) := by decide
theorem test_decode_wire_unknown : decodeWire cfgXRecord ⟨0x00, .settings⟩ = .error .unknownCommandByte := by decide
theorem test_decode_wire_no_default : decodeWire cfgXRecord ⟨0xE0, .defaults⟩ = .error .noDefaultUse := by decide
theorem test_table_word : decodeTableWord 32 0x2101277F = some (.setpixel 127 295 1) := by decide
theorem test_table_word_too_long : decodeTableWord 32 0x110000000 = none := by decide

/-- T1's assembler lines (R110). -/
theorem test_listing : [0x2101277F#32, 0x40000001#32, 0x50000000#32].map
    (fun cw => (decodeHost cw).toOption.bind listing) =
    [some "setpixel 127, 295, 1", some "setmode grey4", some "refresh fast"] := by decide

/-! ## WellFormed: ill-formed terms are refused -/

theorem test_width_zero_refused : (panel 0 2).wf = false := by decide
theorem test_width_256_refused : (panel 256 2).wf = false := by decide
theorem test_height_zero_refused : (panel 16 0).wf = false := by decide
theorem test_height_65536_refused : (panel 16 65536).wf = false := by decide
theorem test_tPon_99_refused : { cfgXRecord with tPon := ⟨99, 100⟩ }.wf = false := by decide
theorem test_tPon_201_refused : { cfgXRecord with tPon := ⟨100, 201⟩ }.wf = false := by decide
theorem test_tRefresh_899_refused : { cfgXRecord with tRefresh := ⟨899, 900⟩ }.wf = false := by decide
theorem test_tRefresh_1001_refused : { cfgXRecord with tRefresh := ⟨900, 1001⟩ }.wf = false := by decide
theorem test_order_missing_step_refused : { cfgXRecord with puOrderB := listedPuOrder.tail }.wf = false := by decide
theorem test_order_late_wait_refused :
    { cfgXRecord with puOrderB :=
      [.booster, .powerset, .poweron, .panelset, .ponwait, .pllctl, .resolution, .vcomdc, .interval, .luts] }.wf
      = false := by decide
theorem test_two_grey4only_refused : { cfgXRecord with pllPolicy := ⟨.grey4Only, .grey4Only⟩ }.wf = false := by decide
theorem test_no_grey4only_refused : { cfgXRecord with pllPolicy := ⟨.always, .never⟩ }.wf = false := by decide
theorem test_pattern_outside_refused :
    { cfgXRecord with testPattern := [⟨.plane0, 4, .xAA⟩] }.wf = false := by decide
theorem test_malformed_not_constructed : State.constructFrom (panel 0 2) = none := by decide
/-- A command byte shared with POWERSET does not name BOOSTER alone. -/
theorem test_shared_command_byte_ill_formed :
    Instr.booster.wellFormed { cfgXRecord with ops := { cfgXRecord.ops with powerset := 0xE0 } } = false := by decide
theorem test_device_legal : LegalConfig.device.raw.wf = true := LegalConfig.device.ok

/-! ## Framebuffer commands -/

theorem test_clear_T3 :
    after .clear { quickX cfgX with dirty := ⟨0, 16, 0, 3⟩ } planesAndBox = some ([], [], ⟨0, 16, 0, 2⟩) := by decide
theorem test_clear_no_mark : after .clear (quickX cfgNoMark) (·.dirty) = some ⟨255, 0, 65535, 0⟩ := by decide
theorem test_setpixel_T6 : after (.setpixel 127 295 1) (emptied cfg128) planesAndBox =
    some ([(4735, 0x01)], [], ⟨120, 128, 295, 296⟩) := by decide
theorem test_setpixel_T17 : after (.setpixel 254 1 1) (emptied cfg255) (fun t => (t.p0, t.readReg 2)) =
    some ([(63, 0x04)], some 0x010000F8#32) := by decide
/-- T7 under LsbFirst (T12). -/
theorem test_operand_lsbFirst : after (.setpixel 10 2 2) (emptied cfg128Lsb) planesAndBox =
    some ([], [(33, 0x04)], ⟨8, 16, 2, 3⟩) := by decide
/-- T16: a row that does not start on a byte. -/
theorem test_operand_offset : after (.setpixel 99 2 3) (emptied cfg100) planesAndBox =
    some ([(37, 0x10)], [(37, 0x10)], ⟨96, 104, 2, 3⟩) := by decide
/-- T10, T50. -/
theorem test_raise_outOfBounds : after (.setpixel 128 0 1) (emptied cfg128) (fun t => (t.p0, t.readReg 1)) =
    some ([], some 0x00000010#32) := by decide
theorem test_testpat_T19 :
    after .testpat { emptied cfgX with p0 := [(0, 1), (1, 2), (2, 3), (3, 4)] } planesAndBox =
      some ([(0, 0xAA), (1, 2), (2, 3), (3, 0xFF)], [(0, 0x55), (3, 0xFF)], ⟨0, 16, 0, 2⟩) := by decide

/-! ## Sequencer and transmission commands -/

theorem test_resethw_T30 : after .resethw { blockX with initialized := true } (fun t => (t.out, t.readReg 1)) =
    some ([.rst true, .sleep 10, .rst false, .sleep 10, .rst true, .sleep 10], some 0x00000001#32) := by decide
theorem test_setmode_T31 : after (.setmode .grey4) { blockX with pstate := .poweredUp } (fun t => (t.readReg 1, t.out)) =
    some (some 0x0000000A#32, []) := by decide

/-- The eight items of T32 under `CFG-X`. -/
def itemsT32 : List Event :=
  transaction 0xE0 [1, 2, 3] ++ transaction 0xE1 [0x11, 0x12] ++ transaction 0xE2 [] ++ [.sleep 100] ++
  transaction 0xE3 [0x21] ++ transaction 0xE5 [0x10, 0, 2] ++ transaction 0xE6 [0x41] ++ transaction 0xE7 [0x51]
/-- The fourteen items of T33 under `CFG-X`. -/
def itemsT33 : List Event :=
  transaction 0xE0 [1, 2, 3] ++ transaction 0xE1 [0x11, 0x13] ++ transaction 0xE2 [] ++ [.sleep 100] ++
  transaction 0xE3 [0x22] ++ transaction 0xE4 [0x31] ++ transaction 0xE5 [0x10, 0, 2] ++ transaction 0xE6 [0x41] ++
  transaction 0xE7 [0x52] ++ transaction 0xE8 [0xA0, 0xA1] ++ transaction 0xE9 [0xB0] ++ transaction 0xEA [0xC0] ++
  transaction 0xEB [0xD0] ++ transaction 0xEC [0xD1, 0xD2]

theorem test_powerup_T32 : after .powerup blockX (·.out) = some itemsT32 := by decide
theorem test_powerup_T33 : after .powerup greyX (fun t => (t.out, t.readReg 1)) = some (itemsT33, some 0x0000000E#32) := by
  decide
theorem test_powerdown_T34 : after .powerdown { blockX with pstate := .poweredUp } (fun t => (t.out, t.pstate)) =
    some (transaction 0xE7 [0x5F] ++ transaction 0xE6 [0x4F] ++ transaction 0xF1 [], .poweredDown) := by decide
theorem test_powerdown_T35 : after .powerdown blockX (fun t => (t.out.length, t.readReg 1)) =
    some (11, some 0x00000000#32) := by decide
/-- T36, for whatever byte the environment returns. -/
theorem test_getstatus_T36 : after .getstatus blockX (fun t => (t.out, t.panelStatus)) =
    some ([.ts, .c 0xF2, .rd (Config.freeStatusByte 0), .te], Config.freeStatusByte 0) := rfl
theorem test_getstatus_silent : after .getstatus silentX (fun t => (t.out, t.seqPc)) =
    some ([.ts, .c 0xF2], .running .getstatus 2) := by decide
theorem test_refresh_T41 :
    after (.refresh false) { greyX with p0 := [(0, 0x80)], p1 := [(0, 0x80), (3, 0x40)], pstate := .poweredDown }
      (fun t => (t.out, t.readReg 1)) =
    some (itemsT33 ++ transaction 0xED [0x80, 0, 0, 0] ++ [.sleep 2] ++ transaction 0xEE [0x80, 0, 0, 0x40] ++
      transaction 0xEF [] ++ [.sleep 900], some 0x0000000E#32) := by decide
/-- T40 under `CFG-X`: the end of a full cycle, and its event counts (T44). -/
theorem test_refresh_T44 : after (.refresh true) { blockX with pstate := .poweredDown }
      (fun t => (t.readReg 1, (transactionsOf t.out).length, ((transactionsOf t.out).map (·.data.length)).sum)) =
    some (some 0x00000005#32, 13, 21) := by decide
theorem test_quickdraw_T42 : after .quickdraw (quickX cfgX) (fun t => (t.out, t.readReg 1)) =
    some (itemsT32 ++ transaction 0xED [0, 0, 0, 0] ++ [.sleep 2] ++ transaction 0xEE [0x80, 0x80, 0, 0] ++
      transaction 0xF0 [] ++ [.sleep 5], some 0x00000006#32) := by decide
theorem test_quickdraw_T43 : after .quickdraw (quickX cfgNoPowerup) (fun t => (t.out, t.readReg 1)) =
    some (transaction 0xED [0, 0, 0, 0] ++ [.sleep 2] ++ transaction 0xEE [0x80, 0x80, 0, 0] ++ transaction 0xF0 [] ++
      [.sleep 5], some 0x00000001#32) := by decide

/-! ## Wire commands alone, under `CFG-X` -/

theorem test_booster : after .booster blockX (·.out) = some [.ts, .c 0xE0, .d 1, .d 2, .d 3, .te] := by decide
theorem test_powerset : after .powerset greyX (·.out) = some [.ts, .c 0xE1, .d 0x11, .d 0x13, .te] := by decide
theorem test_poweron : after .poweron blockX (·.out) = some [.ts, .c 0xE2, .te] := by decide
theorem test_panelset : after .panelset greyX (·.out) = some [.ts, .c 0xE3, .d 0x22, .te] := by decide
theorem test_pllctl_grey4 : after .pllctl greyX (·.out) = some [.ts, .c 0xE4, .d 0x31, .te] := by decide
theorem test_pllctl_mono : after .pllctl blockX (·.out) = some [] := by decide
/-- T20, 128 × 296. -/
theorem test_resolution_T20 : after .resolution (State.construct cfg128) (·.out) =
    some [.ts, .c 0xE5, .d 0x80, .d 0x01, .d 0x28, .te] := by decide
theorem test_vcomdc : after (.vcomdc .settings) blockX (·.out) = some [.ts, .c 0xE6, .d 0x41, .te] := by decide
theorem test_vcomdc_defaults : after (.vcomdc .defaults) blockX (·.out) = some [.ts, .c 0xE6, .d 0x4F, .te] := by decide
theorem test_interval : after (.interval .settings) greyX (·.out) = some [.ts, .c 0xE7, .d 0x52, .te] := by decide
theorem test_interval_defaults : after (.interval .defaults) greyX (·.out) = some [.ts, .c 0xE7, .d 0x5F, .te] := by decide
theorem test_lutVcom : after .lutVcom greyX (·.out) = some [.ts, .c 0xE8, .d 0xA0, .d 0xA1, .te] := by decide
theorem test_lutVcom_mono : after .lutVcom blockX (·.out) = some [] := by decide
theorem test_lutW2w : after .lutW2w greyX (·.out) = some [.ts, .c 0xE9, .d 0xB0, .te] := by decide
theorem test_lutB2w : after .lutB2w greyX (·.out) = some [.ts, .c 0xEA, .d 0xC0, .te] := by decide
theorem test_lutW2b : after .lutW2b greyX (·.out) = some [.ts, .c 0xEB, .d 0xD0, .te] := by decide
theorem test_lutB2b : after .lutB2b greyX (·.out) = some [.ts, .c 0xEC, .d 0xD1, .d 0xD2, .te] := by decide
theorem test_plane0data_mono : after .plane0data (quickX cfgX) (·.out) =
    some [.ts, .c 0xED, .d 0, .d 0, .d 0, .d 0, .te] := by decide
theorem test_plane0data_grey4 : after .plane0data { quickX cfgX with screenMode := .grey4 } (·.out) =
    some [.ts, .c 0xED, .d 0x80, .d 0, .d 0, .d 1, .te] := by decide
theorem test_plane1data : after .plane1data (quickX cfgX) (·.out) =
    some [.ts, .c 0xEE, .d 0x80, .d 0x80, .d 0, .d 0, .te] := by decide
theorem test_refreshtrig : after .refreshtrig blockX (·.out) = some [.ts, .c 0xEF, .te] := by decide
theorem test_datastop : after .datastop blockX (·.out) = some [.ts, .c 0xF0, .te] := by decide
theorem test_poweroff : after .poweroff blockX (·.out) = some [.ts, .c 0xF1, .te] := by decide
theorem test_statusread_silent : after .statusread silentX (·.out) = some [.ts, .c 0xF2] := by decide

/-! ## Registers, steps, lines -/

/-- T60, `CFG-128`. -/
theorem test_registers_T60 : [0, 1, 2, 3, 4, 5].map (State.construct cfg128).readReg =
    [some 0x00012880#32, some 0#32, some 0x00800000#32, some 0x01280000#32, some 0#32, none] := by decide
/-- P4: a reserved word raises `IllegalCommand`. -/
theorem test_raise_illegalCommand : step (asked (.command 0xB0000000#32)) =
    .next { blockX with result := .illegalCommand } := rfl
theorem test_step_request : step (asked (.command 0x40000001#32)) = .next greyX := rfl
theorem test_step_wire : step { blockX with wireFetch := some ⟨0xE2, .settings⟩ } =
    .next { blockX with out := [.ts, .c 0xE2, .te] } := rfl
/-- R106: `CMD(E7,[51])` on the lines. -/
theorem test_lines : linesFrom true (transaction 0xE7 [0x51]) =
    [.setData false, .setSelect true, .send 0xE7, .setData true, .send 0x51, .setSelect false] := by decide

/-! ## States and operands that meet the hypotheses of the statements, at the ends of their ranges -/

theorem witness_EachWordSelectsAtMostOneRow :
    ∃ r ∈ hostRows, ∃ r' ∈ hostRows, r.selects 0x23FFFFFF#32 = true ∧ r'.selects 0x23FFFFFF#32 = true :=
  ⟨⟨.setpixel, 0x20000000#32, 0xFC000000#32⟩, by decide, ⟨.setpixel, 0x20000000#32, 0xFC000000#32⟩, by decide,
    by decide, by decide⟩
theorem witness_OperandsAreTheFieldsOfTheWord :
    (0x23FFFFFF#32).toNat / 2 ^ 26 = 8 ∧ (0x20000000#32).toNat / 2 ^ 26 = 8 ∧
    (0x40000001#32).toNat / 2 = 0x20000000 ∧ (0x50000000#32).toNat / 2 = 0x28000000 := by decide
theorem witness_DecodeOfEncodeIsTheInstruction :
    (Instr.setpixel 255 65535 3).wellFormed cfgXRecord = true ∧ (Instr.vcomdc .defaults).wellFormed cfgXRecord = true ∧
    Instr.statusread.wellFormed cfgXRecord = true := by decide
theorem witness_EncodeOfDecodedCodeIsTheCode :
    decode cfgXRecord (.host 0x23FFFFFF#32) = .ok (.setpixel 255 65535 3) ∧
    decode cfgXRecord (.wire ⟨0xE7, .defaults⟩) = .ok (.interval .defaults) := by decide
theorem witness_IllegalWordsRaiseIllegalCommand :
    (asked (.command 0xB0000000#32)).seqPc = .idle ∧ (asked (.command 0xB0000000#32)).wireFetch = none ∧
    decodeHost 0xB0000000#32 = .error .reservedOpcode ∧ decodeHost 0x24000080#32 = .error .reservedField ∧
    decodeHost 0x10000001#32 = .error .unusedOperandBits := by decide
theorem witness_StepRunsTheDecodedCommand :
    (asked (.command 0x20000000#32)).seqPc = .idle ∧ (asked (.command 0x20000000#32)).wireFetch = none ∧
    (asked (.command 0x20000000#32)).requests = [.command 0x20000000#32] ∧
    decodeHost 0x20000000#32 = .ok (.setpixel 0 0 0) := by decide
theorem witness_StepRunsTheWireCommand :
    decodeWire blockX.conf ⟨0xE0, .settings⟩ = .ok .booster ∧
    decodeWire blockX.conf ⟨0xE6, .defaults⟩ = .ok (.vcomdc .defaults) ∧
    decodeWire blockX.conf ⟨0x00, .settings⟩ = .error .unknownCommandByte ∧
    { blockX with wireFetch := some ⟨0x00, .settings⟩ }.seqPc = .idle ∧
    { blockX with wireFetch := some ⟨0x00, .settings⟩ }.wireFetch = some ⟨0x00, .settings⟩ := by decide
theorem witness_HostReads_registers :
    (asked (.readReg 4)).requests = [.readReg 4] ∧ (asked (.readReg 0)).seqPc = .idle ∧
    [blockX.geomReg, blockX.statusReg, blockX.dirtyXReg, blockX.dirtyYReg, blockX.pstatReg][4]? = some 0#32 ∧
    step (asked (.readReg 5)) = .refused .readOutsideMap := ⟨rfl, rfl, by decide, rfl⟩
theorem witness_HostReads_planes :
    3 < (asked (.readPlane .plane1 3)).planeBytes ∧ (asked (.readPlane .plane1 4)).planeBytes ≤ 4 ∧
    (asked (.readPlane .plane1 3)).wireFetch = none := by decide
theorem witness_IdleBlockWithoutRequestStays :
    blockX.seqPc = .idle ∧ blockX.wireFetch = none ∧ blockX.requests = [] := by decide
theorem witness_SecondResetIsTheSameAsTheFirst :
    (asked .reset).seqPc = .idle ∧ (asked .reset).wireFetch = none ∧ (asked .reset).requests = [.reset] := by decide
theorem witness_BusyBlockAcceptsNothing :
    (waiting (.readReg 0)).seqPc = .running .resethw 2 ∧ (∀ rest, (waiting (.readReg 0)).requests ≠ .reset :: rest) ∧
    (waiting .reset).seqPc = .running .resethw 2 ∧ (waiting .reset).requests = [.reset] :=
  ⟨rfl, fun _ => by simp [waiting, asked], rfl, rfl⟩
theorem witness_RegistersShowTheState : blockX.readReg 5 = none ∧ (blockX.readReg 4).isSome = true := by decide
theorem witness_RegistersShowTheState_step : ∃ t, step (asked (.command 0x40000001#32)) = .next t := ⟨_, rfl⟩
theorem witness_ClearZeroesThePlanes :
    blockX.conf.clearMarksFull = true ∧ (State.construct cfgNoMark).conf.clearMarksFull = false := by decide
theorem witness_Setpixel_corners :
    (emptied cfg255).p0.wf = true ∧ (emptied cfg255).p1.wf = true ∧
    (254#8).toNat < (emptied cfg255).conf.width ∧ (1#16).toNat < (emptied cfg255).conf.height ∧
    (0#8).toNat < (emptied cfg255).conf.width ∧ (0#16).toNat < (emptied cfg255).conf.height := by decide
theorem witness_SetpixelOutside :
    blockX.conf.width ≤ (16#8).toNat ∧ blockX.conf.height ≤ (2#16).toNat ∧
    after (.setpixel 0 2 1) blockX (·.result) = some .outOfBounds := by decide
theorem witness_PixelReadsBackAsWritten :
    blockX.p0.wf = true ∧ blockX.p1.wf = true ∧ (15#8).toNat < blockX.conf.width ∧ (1#16).toNat < blockX.conf.height ∧
    0 < blockX.conf.width ∧ 1 < blockX.conf.height ∧ (0, 1) ≠ ((15#8).toNat, (1#16).toNat) := by decide
theorem witness_SetpixelWritesNoPadBit :
    (emptied cfg100).p0.wf = true ∧ (emptied cfg100).p1.wf = true ∧
    (∃ t, exec (.setpixel 99 2 3) (emptied cfg100) = .next t) ∧
    (emptied cfg100).conf.width * (emptied cfg100).conf.height ≤ 300 ∧ 300 < 8 * (emptied cfg100).planeBytes :=
  ⟨rfl, rfl, ⟨_, rfl⟩, by decide, by decide⟩
theorem witness_PixelOffsetsAreABijection :
    254 < cfg255.raw.width ∧ 1 < cfg255.raw.height ∧ 509 < cfg255.raw.width * cfg255.raw.height := by decide
theorem witness_DirtyRectangleIsTheMinimalBox :
    [((3 : BitVec 8), (5 : BitVec 16), (1 : BitVec 2)), (20, 1, 1)] ≠ [] ∧
    (∀ p ∈ [((3 : BitVec 8), (5 : BitVec 16), (1 : BitVec 2)), (20, 1, 1)],
      p.1.toNat < (emptied cfg128).conf.width ∧ p.2.1.toNat < (emptied cfg128).conf.height) ∧
    (emptied cfg128).dirty = Dirty.empty ∧ (State.construct cfg128).dirty = Dirty.full 128 296 :=
  ⟨by decide, by simp only [List.forall_mem_cons]; exact ⟨by decide, by decide, by simp⟩, rfl, rfl⟩
/-- The invariant holds of a block just after reset with `CFG-X`. -/
theorem invX : Inv blockX :=
  ⟨by unfold planesOk; decide, .inr (by decide), rfl, trivial, by decide⟩
/-- A state of the invariant with the rectangle `EMPTY`. -/
theorem invEmptied : Inv (emptied cfgX) :=
  ⟨by unfold planesOk; decide, .inl rfl, rfl, trivial, by decide⟩
theorem witness_EmptyRectangleIsTheIdentity :
    255 ≤ 255 ∧ 65534 < 65535 ∧ Inv (emptied cfgX) ∧ (emptied cfgX).dirty.maxX = 0#9 :=
  ⟨by decide, by decide, invEmptied, rfl⟩
theorem witness_TestpatWritesItsPattern :
    blockX.p0.wf = true ∧ blockX.p1.wf = true ∧ blockX.conf.testPattern ≠ [] := by decide
theorem witness_FramebufferCommandsStayInTheFramebuffer :
    isFramebufferCommand (.setpixel 16 0 1) = true ∧ blockX.cfg = greyX.cfg ∧ blockX.p0 = greyX.p0 ∧
    blockX.p1 = greyX.p1 ∧ blockX.dirty = greyX.dirty ∧ (∃ t, exec .testpat blockX = .next t) ∧
    (∃ t, exec .testpat greyX = .next t) := ⟨rfl, rfl, rfl, rfl, rfl, ⟨_, rfl⟩, ⟨_, rfl⟩⟩
/-- The environment answers exactly as often as RESETHW, twice, and GETSTATUS, once, ask. -/
theorem witness_environment_answers :
    (Env.mk (some 6) (some 1) 0).completes 6 = true ∧ (Env.mk (some 3) none 0).completes 3 = true ∧
    (Env.mk (some 2) none 0).completes 2 = true ∧ (Env.mk (some 1) none 0).completes 1 = true ∧
    (Env.mk (some 6) (some 1) 0).answers 1 = true ∧ blockX.env.completes 3 = true ∧ blockX.env.answers 1 = true := by
  decide
theorem witness_PowerUpStreamOfRevisionA :
    blockX.conf.rev = .revisionA ∧ blockX.conf.pllPolicy.revA = .grey4Only ∧ blockX.screenMode = .mono ∧
    greyX.conf.rev = .revisionA ∧ greyX.conf.pllPolicy.revA = .grey4Only ∧ greyX.screenMode = .grey4 ∧
    blockX.env.completes 1 = true ∧ greyX.env.completes 1 = true := by decide
theorem witness_PowerOnIsFollowedByItsSettleDelay :
    blockX.conf.rev = .revisionA ∧ blockX.conf.qdPowerup = true := by decide
theorem witness_QuickdrawTransmitsAndStops :
    blockX.conf.qdPowerup = true ∧ (quickX cfgNoPowerup).conf.qdPowerup = false ∧
    (quickX cfgNoPowerup).env.completes 2 = true := by decide
theorem witness_PlaneTransactionsCarryThePlanes :
    greyX.env.completes 3 = true ∧ greyX.screenMode = .grey4 ∧ blockX.screenMode = .mono ∧ 3 < greyX.planeBytes := by
  decide
theorem witness_HostCommandsSendTheirWireCommands :
    isHostCommand .getstatus = true ∧ isHostCommand (.refresh true) = true ∧ blockX.env.completes 3 = true ∧
    blockX.env.answers 1 = true := by decide
theorem witness_QuickdrawNeverTriggersARefresh :
    blockX.conf.ops.toList.Nodup ∧ (∃ t, exec .quickdraw blockX = .next t) ∧
    (∃ t, exec .quickdraw silentX = .next t) := ⟨by decide, ⟨_, rfl⟩, ⟨_, rfl⟩⟩
theorem witness_PllctlIsSentByPolicy :
    (greyX.conf.pllPolicy.get greyX.conf.rev = .grey4Only ∧ greyX.screenMode = .grey4) ∧
    (State.construct cfgRevB).conf.pllPolicy.get (State.construct cfgRevB).conf.rev = .always ∧
    ¬(blockX.conf.pllPolicy.get blockX.conf.rev = .always ∨
      (blockX.conf.pllPolicy.get blockX.conf.rev = .grey4Only ∧ blockX.screenMode = .grey4)) := by decide
theorem witness_modes : greyX.screenMode = .grey4 ∧ blockX.screenMode = .mono := by decide
/-- The environment completes the settle delay of the power-on command and no `SLEEP` after it, and returns one byte. -/
def onceX : State := { blockX with env := ⟨some 1, some 1, 0⟩ }
/-- The first wait, a later wait, and no wait: REFRESH is stopped at its second `SLEEP`, POWERUP and GETSTATUS end. -/
theorem witness_UnansweredWaitsAreNotPassed :
    silentX.env.sleeps = some 0 ∧ silentX.env.replies = some 0 ∧
    (∃ t, exec (.refresh true) onceX = .next t ∧ t.seqPc ≠ .idle) ∧
    (∃ t, exec .powerup onceX = .next t ∧ t.seqPc = .idle) ∧
    (∃ t, exec .getstatus onceX = .next t ∧ t.seqPc = .idle) ∧
    (waiting (.readReg 0)).seqPc ≠ .idle ∧ (∃ t, step (waiting (.readReg 0)) = .next t) :=
  ⟨rfl, rfl, ⟨_, rfl, nofun⟩, ⟨_, rfl, rfl⟩, ⟨_, rfl, rfl⟩, nofun, ⟨_, rfl⟩⟩
/-- R270, R210: with one `SLEEP` completed REFRESH emits two and stands at the turnaround delay. -/
theorem test_refresh_stops_at_second_sleep :
    after (.refresh true) onceX (fun t => (sleepsIn t.out, t.out.getLast?, t.env)) =
      some (2, some (.sleep 2), ⟨some 0, some 1, 0⟩) := by decide
/-- R106: the lines of a status read. -/
theorem test_lines_statusread : (match exec .statusread blockX with | .next t => t.lines | .fault _ => [] | .refused _ => [])
    = [.setData false, .setSelect true, .send 0xF2, .setData true, .receive (Config.freeStatusByte 0),
      .setSelect false] := rfl
theorem witness_InstructionsWaitOnlyOnTheEnvironment :
    (∃ t, exec (.refresh true) silentX = .next t ∧ t.seqPc = .running (.refresh true) 15) ∧
    (∃ t, exec .statusread silentX = .next t ∧ t.seqPc = .running .statusread 2) := ⟨⟨_, rfl, rfl⟩, ⟨_, rfl, rfl⟩⟩
/-- For the statements about every instruction that has ended. -/
theorem witness_ended :
    (∃ t, exec .quickdraw blockX = .next t ∧ t.seqPc = .idle) ∧ blockX.pstate ≠ .deepSleep ∧
    (∃ t, exec (.setpixel 16 0 1) blockX = .next t ∧ t.seqPc = .idle) ∧
    (∃ t, exec .booster blockX = .next t ∧ t.seqPc = .idle) :=
  ⟨⟨_, rfl, rfl⟩, by decide, ⟨_, rfl, rfl⟩, ⟨_, rfl, rfl⟩⟩
theorem witness_EachStateHasItsWriters :
    isFramebufferCommand .powerup = false ∧ (∃ t, exec .powerup blockX = .next t) ∧
    (∃ t, exec .powerup silentX = .next t) := ⟨rfl, ⟨_, rfl⟩, ⟨_, rfl⟩⟩
theorem witness_StreamOnlyGrows :
    (∃ t, step (asked .reset) = .next t) ∧ (∃ t, step (asked (.command 0x70000000#32)) = .next t) :=
  ⟨⟨_, rfl⟩, ⟨_, rfl⟩⟩
theorem witness_MalformedConfigurationsAreRefused :
    (State.constructFrom (panel 255 65535)).isSome = true ∧ (State.constructFrom (panel 1 1)).isSome = true ∧
    ∃ s, State.constructFrom cfgXRecord = some s := ⟨by decide, by decide, ⟨_, rfl⟩⟩
theorem witness_StepKeepsTheInvariant :
    Inv (asked (.command 0x50000001#32)) ∧ ∃ t, step (asked (.command 0x50000001#32)) = .next t :=
  ⟨⟨invX.planes, invX.dirty, invX.stream, invX.waits, invX.noDeepSleep⟩, ⟨_, rfl⟩⟩

end Sys2Proof.Tests
end

section
/-!
What every step keeps of the block (spec/10_state.md): the configuration, and the events already emitted; the
host-visible registers as numbers; and the empty dirty rectangle.
-/

namespace Sys2Proof.Machine

/-! ## What an instruction keeps -/

/-- The commands that are done at once write the planes, the dirty rectangle, the mode and `RESULT`, and nothing else:
no event is emitted (R130 to R134, R181). -/
theorem exec_at_once_frame {i : Instr} {s t : State} (ha : actionsOf i s = none) (h : exec i s = .next t) :
    t = { s with p0 := t.p0, p1 := t.p1, dirty := t.dirty, screenMode := t.screenMode, result := t.result,
                 seqPc := .idle } := by
  cases i with
  | clear => cases h; rfl
  | setmode m => cases h; rfl
  | testpat =>
    cases h
    rw [writePattern_frame]
    rfl
  | setpixel x y c =>
    by_cases hin : inPanel s.conf x.toNat y.toNat = true
    · rw [exec_setpixel_inside c hin] at h
      cases h
      rfl
    · rw [exec_setpixel_outside c hin] at h
      cases h
      rfl
  | _ => cases ha

/-- A command appends to `OUT` its events, or as many of them as it emits before it waits for ever (R38, R270). -/
theorem runCommand_out (cmd : Instr) (as : List Action) (s : State) :
    ∃ new, new <+: eventsOf as ∧ (runCommand cmd as s).out = s.out ++ new := by
  rcases runCommand_cases cmd as s with ⟨h, -⟩ | ⟨before, a, after, rfl, h, -⟩
  · exact ⟨eventsOf as, List.prefix_rfl, by rw [h, settled_out]⟩
  · exact ⟨eventsOf before ++ a.events, eventsOf_prefix before a after, by rw [h, settled_out]⟩

/-- No instruction changes the configuration, and each only appends to `OUT` (R38). -/
theorem exec_keeps {i : Instr} {s t : State} (h : exec i s = .next t) : t.cfg = s.cfg ∧ s.out <+: t.out := by
  cases ha : actionsOf i s with
  | none =>
    rw [exec_at_once_frame ha h]
    exact ⟨rfl, List.prefix_rfl⟩
  | some as =>
    rw [exec_of_actions ha] at h
    cases h
    obtain ⟨new, -, hout⟩ := runCommand_out i as s
    exact ⟨(runCommand_sameBlock i as s).cfg, new, hout.symm⟩

/-! ## What a step keeps -/

/-- A step keeps the configuration, and what `OUT` holds; only a reset starts `OUT` again (R38, R260). -/
theorem step_keeps {s t : State} (h : step s = .next t) :
    t.cfg = s.cfg ∧ (s.out <+: t.out ∨ ∃ rest, s.requests = .reset :: rest ∧ t.out = []) := by
  rcases step_cases h with
    rfl | ⟨-, i, u, hx, hu⟩ | ⟨-, rest, rfl⟩ | ⟨-, rest, v, rfl⟩ | ⟨-, rest, hr, rfl⟩
  · exact ⟨rfl, .inl List.prefix_rfl⟩
  · have hsame : u.cfg = s.cfg ∧ u.out = s.out := by
      rcases hu with ⟨rest, rfl⟩ | rfl <;> exact ⟨rfl, rfl⟩
    obtain ⟨hcfg, hout⟩ := exec_keeps hx
    exact ⟨hcfg.trans hsame.1, .inl (hsame.2 ▸ hout)⟩
  · exact ⟨rfl, .inl List.prefix_rfl⟩
  · exact ⟨rfl, .inl List.prefix_rfl⟩
  · exact ⟨rfl, .inr ⟨rest, hr, rfl⟩⟩

/-! ## The registers as numbers (R39 to R43) -/

theorem revBit_toNat (r : Rev) : (revBit r).toNat = if r = .revisionB then 1 else 0 := by cases r <;> rfl

theorem bitOrderBit_toNat (b : BitOrder) : (bitOrderBit b).toNat = if b = .lsbFirst then 1 else 0 := by
  cases b <;> rfl

theorem flag_toNat (m : ScreenMode) : m.flag.toNat = if m = .grey4 then 1 else 0 := by cases m <;> rfl

/-- The coding of `pstate` (R32). -/
theorem PState.code_toNat (p : PState) : p.code.toNat =
    match p with | .uninitialized => 0 | .poweredDown => 1 | .poweredUp => 2 | .deepSleep => 3 := by
  cases p <;> rfl

/-- The coding of `RESULT` (R35). -/
theorem ResultCode.code_toNat (r : ResultCode) : r.code.toNat =
    match r with | .ok => 0 | .outOfBounds => 1 | .illegalCommand => 2 := by
  cases r <;> rfl

/-- `GEOM` (R39): a legal width and height fit their fields. -/
theorem geomReg_toNat (s : State) : s.geomReg.toNat = s.conf.width + 2 ^ 8 * s.conf.height +
    (if s.conf.rev = .revisionB then 2 ^ 24 else 0) + (if s.conf.bitOrder = .lsbFirst then 2 ^ 25 else 0) := by
  obtain ⟨-, hw, -, hh⟩ := s.geometry
  simp only [State.geomReg, toNat_append_add, BitVec.toNat_ofBool, BitVec.toNat_ofNat, revBit_toNat, bitOrderBit_toNat]
  split <;> split <;> omega

/-- `STATUS` (R40). -/
theorem statusReg_toNat (s : State) : s.statusReg.toNat =
    (match s.pstate with | .uninitialized => 0 | .poweredDown => 1 | .poweredUp => 2 | .deepSleep => 3) +
    (if s.initialized then 4 else 0) + (if s.screenMode = .grey4 then 8 else 0) +
    16 * (match s.result with | .ok => 0 | .outOfBounds => 1 | .illegalCommand => 2) := by
  rw [← PState.code_toNat, ← ResultCode.code_toNat]
  simp only [State.statusReg, toNat_append_add, BitVec.toNat_ofBool, BitVec.toNat_ofNat, flag_toNat]
  simp only [Bool.toNat, cond_eq_ite]
  split <;> split <;> omega

/-- `DIRTY_X` (R41). -/
theorem dirtyXReg_toNat (s : State) : s.dirtyXReg.toNat = s.dirty.minX.toNat + 2 ^ 16 * s.dirty.maxX.toNat := by
  simp only [State.dirtyXReg, toNat_append_add, BitVec.toNat_ofNat]
  omega

/-- `DIRTY_Y` (R42). -/
theorem dirtyYReg_toNat (s : State) : s.dirtyYReg.toNat = s.dirty.minY.toNat + 2 ^ 16 * s.dirty.maxY.toNat := by
  simp only [State.dirtyYReg, toNat_append_add]
  omega

/-- `PSTAT` (R43). -/
theorem pstatReg_toNat (s : State) : s.pstatReg.toNat = s.panelStatus.toNat := by
  simp only [State.pstatReg, toNat_append_add, BitVec.toNat_ofNat]
  omega

/-- The map has five registers (R69, R70). -/
theorem readReg_outside (s : State) {n : Nat} (h : 5 ≤ n) : s.readReg n = none := by
  obtain ⟨k, rfl⟩ := Nat.exists_eq_add_of_le' h
  rfl

/-- `GEOM` shows the configuration and nothing else (R39). -/
theorem geomReg_of_cfg {s t : State} (h : t.cfg = s.cfg) : t.geomReg = s.geomReg := by
  simp only [State.geomReg, State.conf, h]

/-! ## The empty rectangle (R27) -/

/-- Touching a pixel from `EMPTY` gives the pixel's aligned cell (R27, R132). -/
theorem empty_touch_toNat {x y : Nat} (hx : x ≤ 255) (hy : y < 65535) :
    (Dirty.empty.touch x y).minX.toNat = alignDown8 x ∧ (Dirty.empty.touch x y).maxX.toNat = alignDown8 x + 8 ∧
    (Dirty.empty.touch x y).minY.toNat = y ∧ (Dirty.empty.touch x y).maxY.toNat = y + 1 := by
  rw [touch_minX, touch_maxX _ hx, touch_minY _ _ hy, touch_maxY _ _ hy]
  have hcell : alignDown8 x ≤ 255 := by rw [alignDown8_eq]; omega
  exact ⟨Nat.min_eq_right hcell, Nat.max_eq_right (Nat.zero_le _), Nat.min_eq_right hy.le,
    Nat.max_eq_right (Nat.zero_le _)⟩

/-- A rectangle that is not `EMPTY` has `minX < maxX`, so `maxX = 0` tells them apart (R27). -/
theorem maxX_eq_zero_iff {s : State} (h : dirtyOk s) : s.dirty.maxX = 0#9 ↔ s.dirty = Dirty.empty := by
  refine ⟨fun hz => ?_, fun he => he ▸ rfl⟩
  rcases h with he | ⟨-, -, hlt, -⟩
  · exact he
  · rw [hz] at hlt
    exact absurd hlt (Nat.not_lt_zero _)

end Sys2Proof.Machine
end

section
/-!
The statements about the state of the block (spec/10_state.md).
-/

namespace Sys2Proof.Machine

/-- Settles O52: one case for each thing a step can do. -/
theorem streamOnlyGrows : Obligations.StreamOnlyGrows := fun _ _ => step_keeps

/-- Settles O13: each register is its fields side by side; `GEOM` shows the configuration alone, which every step keeps. -/
theorem registersShowTheState : Obligations.RegistersShowTheState := by
  intro s
  refine ⟨⟨_, rfl, geomReg_toNat s⟩, ⟨_, rfl, statusReg_toNat s⟩, ⟨_, rfl, dirtyXReg_toNat s⟩,
    ⟨_, rfl, dirtyYReg_toNat s⟩, ⟨_, rfl, pstatReg_toNat s⟩, fun n => readReg_outside s, fun t h => ?_⟩
  exact congrArg some (geomReg_of_cfg (step_keeps h).1)

/-- Settles O21: `min` and `max` with the corners of `EMPTY` change nothing, and the invariant keeps every other
rectangle's `maxX` above its `minX`. -/
theorem emptyRectangleIsTheIdentity : Obligations.EmptyRectangleIsTheIdentity := by
  refine ⟨rfl, fun x y hx hy => ?_, fun s h => maxX_eq_zero_iff h.dirty⟩
  rw [← alignDown8_eq]
  exact empty_touch_toNat hx hy

/-- Settles O55, field by field: an empty list of bytes reads as 0 everywhere, and the other fields are those of
`State.construct`; `State.reset` is that of the device's configuration. -/
theorem resetValuesAreThoseOfTheTable : Obligations.ResetValuesAreThoseOfTheTable := by
  refine ⟨fun c => ⟨fun i => ?_, construct_dirty c, construct_screenMode c, construct_initialized c, construct_pstate c,
    construct_result c, construct_panelStatus c, construct_seqPc c, construct_out c⟩, LegalConfig.device, rfl⟩
  rw [construct_p0, construct_p1]
  exact ⟨Memory.read_empty i, Memory.read_empty i⟩

end Sys2Proof.Machine
end

section
/-!
What a host read answers (spec/20_memory.md R68 to R70), and the statement about the host's reads.
-/

namespace Sys2Proof.Machine

/-! ## The step that serves a read -/

theorem step_readReg {s : State} {rest : List Request} {n : Nat} (h : s.seqPc = .idle) (hw : s.wireFetch = none)
    (hr : s.requests = .readReg n :: rest) : step s = serveReadReg n { s with requests := rest } := by
  rw [step_request h hw, serveRequest, hr]

theorem step_readPlane {s : State} {rest : List Request} {p : PlaneId} {n : Nat} (h : s.seqPc = .idle)
    (hw : s.wireFetch = none) (hr : s.requests = .readPlane p n :: rest) :
    step s = serveReadPlane p n { s with requests := rest } := by
  rw [step_request h hw, serveRequest, hr]

/-! ## Registers -/

/-- The register map is a list, in the order of R69. -/
theorem readReg_eq_getElem? (s : State) (n : Nat) :
    s.readReg n = [s.geomReg, s.statusReg, s.dirtyXReg, s.dirtyYReg, s.pstatReg][n]? := by
  match n with
  | 0 | 1 | 2 | 3 | 4 => rfl
  | _ + 5 => rfl

/-- No register shows what the host has asked. -/
@[simp] theorem readReg_with_requests (s : State) (rest : List Request) (n : Nat) :
    { s with requests := rest }.readReg n = s.readReg n := rfl

theorem serveReadReg_of_some {s : State} {n : Nat} {v : Word} (h : s.readReg n = some v) :
    serveReadReg n s = .next { s with responses := s.responses ++ [.reg v] } := by
  rw [serveReadReg, h]

theorem serveReadReg_of_none {s : State} {n : Nat} (h : s.readReg n = none) :
    serveReadReg n s = .refused .readOutsideMap := by
  rw [serveReadReg, h]

/-! ## Plane windows -/

/-- No plane byte depends on what the host has asked. -/
@[simp] theorem plane_with_requests (s : State) (rest : List Request) (p : PlaneId) :
    { s with requests := rest }.plane p = s.plane p := by cases p <;> rfl

theorem serveReadPlane_inside {s : State} {p : PlaneId} {n : Nat} (h : n < s.planeBytes) :
    serveReadPlane p n s = .next { s with responses := s.responses ++ [.plane ((s.plane p).read n)] } := by
  rw [serveReadPlane, State.readWindow, if_pos h]

theorem serveReadPlane_outside {s : State} {p : PlaneId} {n : Nat} (h : s.planeBytes ≤ n) :
    serveReadPlane p n s = .refused .readOutsideMap := by
  rw [serveReadPlane, State.readWindow, if_neg h.not_gt]

/-- Settles O9: the step is the service of the read, whose map is that of the state before the request was taken; one
case for each window, inside the map and outside it. -/
theorem hostReadsReturnValuesAndChangeNothing : Obligations.HostReadsReturnValuesAndChangeNothing := by
  intro s rest hpc hw
  refine ⟨fun n v hr _ hv => ?_, fun n hr hn => ?_, fun p n hr hn => ?_, fun p n hr hn => ?_⟩
  · rw [← readReg_eq_getElem?] at hv
    rw [step_readReg hpc hw hr, serveReadReg_of_some ((readReg_with_requests s rest n).trans hv)]
  · rw [step_readReg hpc hw hr, serveReadReg_of_none ((readReg_with_requests s rest n).trans (readReg_outside s hn))]
  · rw [step_readPlane hpc hw hr, serveReadPlane_inside (s := { s with requests := rest }) hn, plane_with_requests]
  · rw [step_readPlane hpc hw hr, serveReadPlane_outside (s := { s with requests := rest }) hn]

end Sys2Proof.Machine
end

section
/-!
The table of R92 in numbers: a row selects a word by its operation code and by the operand bits it leaves free
(spec/30_encoding.md R91 to R97).
-/

namespace Sys2Proof

/-- The operand bits a command uses, counted from bit 0: `c`, `y` and `x` of SETPIXEL, the flag of SETMODE and REFRESH
(R93 to R96). -/
def HostOp.operandBits : HostOp → Nat
  | .setpixel => 26
  | .setmode | .refresh => 1
  | .clear | .testpat | .quickdraw | .resethw | .powerup | .powerdown | .getstatus => 0

theorem HostOp.operandBits_cases (op : HostOp) :
    op.operandBits = 0 ∨ op.operandBits = 1 ∨ op.operandBits = 26 := by
  cases op <;> decide

/-! ## What a row of the table is -/

/-- A row's mask leaves out the operand bits of its command, and its pattern is its operation code alone (R92). -/
theorem hostRows_shape : ∀ r ∈ hostRows,
    r.mask = BitVec.allOnes 32 <<< r.op.operandBits ∧ r.pattern.toNat = (opcField r.pattern).toNat * 2 ^ 28 := by
  decide

/-- The operation code names the row (R92). -/
theorem hostRow_eq_of_opcField : ∀ r ∈ hostRows, ∀ r' ∈ hostRows,
    opcField r.pattern = opcField r'.pattern → r = r' := by
  decide

/-- Every operation code is reserved or that of a row (R92). -/
theorem opc_reserved_or_row : ∀ opc : BitVec 4,
    (opc = 0x0#4 ∨ 0xB#4 ≤ opc) ∨ ∃ r ∈ hostRows, opcField r.pattern = opc := by
  decide

/-! ## The fields as numbers -/

theorem opcField_toNat (cw : Word) : (opcField cw).toNat = cw.toNat / 2 ^ 28 := by
  rw [opcField, BitVec.extractLsb'_toNat, Nat.shiftRight_eq_div_pow]
  omega

theorem extractLsb'_eq_zero_iff (cw : Word) (start len : Nat) :
    cw.extractLsb' start len = 0#len ↔ cw.toNat / 2 ^ start % 2 ^ len = 0 := by
  rw [← BitVec.toNat_inj, BitVec.extractLsb'_toNat, Nat.shiftRight_eq_div_pow, BitVec.toNat_ofNat, Nat.zero_mod]

/-! ## The selection rule -/

theorem selects_iff_and (r : HostRow) (cw : Word) : r.selects cw = true ↔ cw &&& r.mask = r.pattern := beq_iff_eq

/-- Masking the operand bits out is dividing them away. -/
theorem selects_iff_div {r : HostRow} (hr : r ∈ hostRows) (cw : Word) :
    r.selects cw = true ↔ cw.toNat / 2 ^ r.op.operandBits = r.pattern.toNat / 2 ^ r.op.operandBits := by
  obtain ⟨hmask, hpat⟩ := hostRows_shape r hr
  have hk : r.op.operandBits ≤ 28 := by have := r.op.operandBits_cases; omega
  have hdvd : 2 ^ r.op.operandBits ∣ r.pattern.toNat := hpat ▸ Dvd.dvd.mul_left (Nat.pow_dvd_pow 2 hk) _
  have hcw : (cw &&& r.mask).toNat = cw.toNat / 2 ^ r.op.operandBits * 2 ^ r.op.operandBits := by
    rw [hmask, ← BitVec.shiftLeft_ushiftRight, BitVec.toNat_shiftLeft, BitVec.toNat_ushiftRight,
      Nat.shiftRight_eq_div_pow, Nat.shiftLeft_eq]
    exact Nat.mod_eq_of_lt ((Nat.div_mul_le_self _ _).trans_lt cw.isLt)
  rw [selects_iff_and, ← BitVec.toNat_inj, hcw, Nat.eq_div_iff_mul_eq_left (by positivity) hdvd, eq_comm]

/-- A row selects the words with its operation code whose other bits are operand bits of its command (R91, R96). -/
theorem selects_iff_opcField {r : HostRow} (hr : r ∈ hostRows) (cw : Word) :
    r.selects cw = true ↔ opcField cw = opcField r.pattern ∧ cw.toNat % 2 ^ 28 < 2 ^ r.op.operandBits := by
  obtain ⟨-, hpat⟩ := hostRows_shape r hr
  rw [selects_iff_div hr, hpat, ← BitVec.toNat_inj, opcField_toNat cw]
  rcases r.op.operandBits_cases with hk | hk | hk <;> rw [hk] <;> omega

/-- No word selects two rows (R92). -/
theorem selects_unique {r r' : HostRow} (hr : r ∈ hostRows) (hr' : r' ∈ hostRows) {cw : Word}
    (h : r.selects cw = true) (h' : r'.selects cw = true) : r = r' :=
  hostRow_eq_of_opcField r hr r' hr'
    (((selects_iff_opcField hr cw).1 h).1.symm.trans ((selects_iff_opcField hr' cw).1 h').1)

/-! ## Decoding -/

/-- A word that selects a row decodes to its command (R92). -/
theorem decodeHost_of_selects {r : HostRow} (hr : r ∈ hostRows) {cw : Word} (h : r.selects cw = true) :
    decodeHost cw = .ok (r.op.build cw) := by
  obtain ⟨r', hf⟩ := Option.isSome_iff_exists.1 (List.find?_isSome (p := fun r : HostRow => r.selects cw).2 ⟨r, hr, h⟩)
  have hsel : r'.selects cw = true := List.find?_some (p := fun r : HostRow => r.selects cw) hf
  have hsame : r' = r := selects_unique (List.mem_of_find?_eq_some hf) hr hsel h
  rw [decodeHost, hf, hsame]

/-- A word is illegal when it matches no row (R97). -/
theorem decodeHost_error_iff (cw : Word) :
    (∃ e, decodeHost cw = .error e) ↔ ∀ r ∈ hostRows, ¬r.selects cw = true := by
  constructor
  · rintro ⟨e, he⟩ r hr h
    rw [decodeHost_of_selects hr h] at he
    cases he
  · intro h
    exact ⟨hostReject cw, by rw [decodeHost, List.find?_eq_none.2 h]⟩

/-- A word with the operation code of a row is illegal when a bit is set that is no operand bit of the row's command. -/
theorem decodeHost_error_iff_of_row {r : HostRow} (hr : r ∈ hostRows) {cw : Word}
    (hopc : opcField r.pattern = opcField cw) :
    (∃ e, decodeHost cw = .error e) ↔ 2 ^ r.op.operandBits ≤ cw.toNat % 2 ^ 28 := by
  rw [decodeHost_error_iff, ← not_lt]
  constructor
  · exact fun h hlt => h r hr ((selects_iff_opcField hr cw).2 ⟨hopc.symm, hlt⟩)
  · intro h r' hr' hsel
    obtain ⟨hopc', hlt⟩ := (selects_iff_opcField hr' cw).1 hsel
    have hsame : r = r' := hostRow_eq_of_opcField r hr r' hr' (hopc.trans hopc')
    exact h (hsame ▸ hlt)

/-- A word with a reserved operation code is illegal (R97). -/
theorem decodeHost_error_of_reserved {cw : Word} (h : opcField cw = 0x0#4 ∨ 0xB#4 ≤ opcField cw) :
    ∃ e, decodeHost cw = .error e := by
  have hrows : ∀ r ∈ hostRows, ¬(opcField r.pattern = 0x0#4 ∨ 0xB#4 ≤ opcField r.pattern) := by decide
  refine (decodeHost_error_iff cw).2 fun r hr hsel => hrows r hr ?_
  rwa [← ((selects_iff_opcField hr cw).1 hsel).1]

/-- The operation codes of the commands without an operand, and of those with a flag (R94 to R97): none is reserved. -/
theorem hostRow_form : ∀ r ∈ hostRows, ¬(opcField r.pattern = 0x0#4 ∨ 0xB#4 ≤ opcField r.pattern) ∧
    (opcField r.pattern ∈ [0x1#4, 0x3#4, 0x6#4, 0x7#4, 0x8#4, 0x9#4, 0xA#4] ↔ r.op.operandBits = 0) ∧
    (opcField r.pattern ∈ [0x4#4, 0x5#4] ↔ r.op.operandBits = 1) := by
  decide

/-- R97's patterns under one command: a bit that is no operand bit is set exactly when `rsv` is not 0, or the command
takes no operand and a bit below `opc` is set, or it takes a flag and a bit between that and `opc` is set. -/
theorem unusedBits_iff (op : HostOp) (cw : Word) :
    2 ^ op.operandBits ≤ cw.toNat % 2 ^ 28 ↔ cw.extractLsb' 26 2 ≠ 0#2 ∨
      (op.operandBits = 0 ∧ cw.extractLsb' 0 28 ≠ 0#28) ∨ (op.operandBits = 1 ∧ cw.extractLsb' 1 27 ≠ 0#27) := by
  simp only [ne_eq, extractLsb'_eq_zero_iff]
  rcases op.operandBits_cases with hk | hk | hk <;> rw [hk] <;> omega

/-- The illegal words, by their bits (R97). -/
theorem decodeHost_error_iff_bits (cw : Word) : (∃ e, decodeHost cw = .error e) ↔
    (opcField cw = 0x0#4 ∨ 0xB#4 ≤ opcField cw) ∨ cw.extractLsb' 26 2 ≠ 0#2 ∨
    (opcField cw ∈ [0x1#4, 0x3#4, 0x6#4, 0x7#4, 0x8#4, 0x9#4, 0xA#4] ∧ cw.extractLsb' 0 28 ≠ 0#28) ∨
    (opcField cw ∈ [0x4#4, 0x5#4] ∧ cw.extractLsb' 1 27 ≠ 0#27) := by
  rcases opc_reserved_or_row (opcField cw) with hres | ⟨r, hr, hopc⟩
  · exact iff_of_true (decodeHost_error_of_reserved hres) (.inl hres)
  · obtain ⟨hlegal, hzero, hflag⟩ := hostRow_form r hr
    rw [decodeHost_error_iff_of_row hr hopc, unusedBits_iff, ← hopc, hzero, hflag, or_iff_right hlegal]

/-! ## The operand fields as numbers -/

/-- The mode and the flag are the lowest bit (R94, R95). -/
theorem flagField_eq (cw : Word) : flagField cw = (cw.toNat % 2 == 1) := by
  rw [flagField, BitVec.getLsbD, Nat.testBit_zero]
  rfl

theorem xField_toNat (cw : Word) : (xField cw).toNat = cw.toNat % 2 ^ 8 := by
  rw [xField, BitVec.extractLsb'_toNat, Nat.shiftRight_zero]

theorem yField_toNat (cw : Word) : (yField cw).toNat = cw.toNat / 2 ^ 8 % 2 ^ 16 := by
  rw [yField, BitVec.extractLsb'_toNat, Nat.shiftRight_eq_div_pow]

theorem colorField_toNat (cw : Word) : (colorField cw).toNat = cw.toNat / 2 ^ 24 % 2 ^ 2 := by
  rw [colorField, BitVec.extractLsb'_toNat, Nat.shiftRight_eq_div_pow]

/-- A word whose bits above the operand bits are those of a row's pattern decodes to the row's command. -/
theorem decodeHost_of_div {cw : Word} (r : HostRow) (hr : r ∈ hostRows)
    (h : cw.toNat / 2 ^ r.op.operandBits = r.pattern.toNat / 2 ^ r.op.operandBits) :
    decodeHost cw = .ok (r.op.build cw) :=
  decodeHost_of_selects hr ((selects_iff_div hr cw).2 h)

end Sys2Proof
end

section
/-!
The statements about the host command word (spec/30_encoding.md R92 to R97, R233).
-/

namespace Sys2Proof.Machine

/-- A step that takes a command word from the host runs what the word decodes to. -/
theorem step_command {s : State} {cw : Word} {rest : List Request} (h : s.seqPc = .idle) (hw : s.wireFetch = none)
    (hr : s.requests = .command cw :: rest) : step s = runDecoded (takeCommand cw rest s) := by
  rw [step_request h hw, serveRequest, hr]

/-- A word that does not decode raises `IllegalCommand` (R233). -/
theorem runDecoded_error {s : State} {cw : Word} {rest : List Request} {r : Reject} (h : decodeHost cw = .error r) :
    runDecoded (takeCommand cw rest s) = .next (raise .illegalCommand { s with requests := rest }) := by
  rw [takeCommand, h, runDecoded]

/-- An exception raised by an Idle block changes `RESULT` alone (R236). -/
theorem raise_of_idle {s : State} (code : ResultCode) (h : s.seqPc = .idle) :
    raise code s = { s with result := code } := by
  rw [raise, ← h]

/-- Settles O2: a row selects a word by its operation code, which no two rows share. -/
theorem eachWordSelectsAtMostOneRow : Obligations.EachWordSelectsAtMostOneRow :=
  ⟨rfl, fun r hr cw => ⟨selects_iff_and r cw, decodeHost_of_selects hr⟩,
    fun _ hr _ hr' _ => selects_unique hr hr'⟩

/-- Settles O3: the word selects the row of its pattern, whose command is built of the word's fields. -/
theorem operandsAreTheFieldsOfTheWord : Obligations.OperandsAreTheFieldsOfTheWord := by
  intro cw
  refine ⟨fun h => ⟨xField cw, yField cw, colorField cw, ?_, xField_toNat cw, yField_toNat cw, colorField_toNat cw⟩,
    fun h => ?_, fun h => ?_⟩
  · exact decodeHost_of_div ⟨.setpixel, 0x20000000#32, 0xFC000000#32⟩ (by decide) h
  · have hmode : ScreenMode.ofFlag (flagField cw) = if cw.toNat % 2 = 1 then .grey4 else .mono := by
      simp only [ScreenMode.ofFlag, flagField_eq, beq_iff_eq]
    rw [← hmode]
    exact decodeHost_of_div ⟨.setmode, 0x40000000#32, 0xFFFFFFFE#32⟩ (by decide) h
  · rw [← flagField_eq]
    exact decodeHost_of_div ⟨.refresh, 0x50000000#32, 0xFFFFFFFE#32⟩ (by decide) h

/-- Settles O6: the words no row selects, by their bits; the step that takes one raises `IllegalCommand` in a block that
is Idle already. -/
theorem illegalWordsRaiseIllegalCommand : Obligations.IllegalWordsRaiseIllegalCommand := by
  refine ⟨decodeHost_error_iff_bits, fun s cw rest r hpc hw hr hd => ?_⟩
  rw [step_command hpc hw hr, runDecoded_error hd, raise_of_idle (s := { s with requests := rest }) _ hpc]

end Sys2Proof.Machine
end

section
/-!
The framebuffer commands by their effects (spec/40_framebuffer_ops.md R130 to R139): what each leaves in the planes and
in the dirty rectangle, and what it leaves alone.
-/

namespace Sys2Proof.Machine

/-! ## What SETPIXEL answers -/

theorem not_inPanel_iff (c : Config) (x y : Nat) : ¬inPanel c x y = true ↔ c.width ≤ x ∨ c.height ≤ y := by
  rw [inPanel_iff]
  omega

/-- SETPIXEL writes its pixel inside the geometry, and raises `OutOfBounds` outside it (R131, R133). -/
theorem exec_setpixel_cases {s t : State} {x : BitVec 8} {y : BitVec 16} {c : BitVec 2}
    (h : exec (.setpixel x y c) s = .next t) :
    (inPanel s.conf x.toNat y.toNat = true ∧
      t = { s.writePixel x.toNat y.toNat c with dirty := s.dirty.touch x.toNat y.toNat }.complete) ∨
    (¬inPanel s.conf x.toNat y.toNat = true ∧ t = raise .outOfBounds s) := by
  by_cases hin : inPanel s.conf x.toNat y.toNat = true
  · rw [exec_setpixel_inside c hin] at h
    cases h
    exact .inl ⟨hin, rfl⟩
  · rw [exec_setpixel_outside c hin] at h
    cases h
    exact .inr ⟨hin, rfl⟩

/-! ## Frame (R139) -/

/-- A framebuffer command ends with `RESULT` OK, or it is a SETPIXEL that raises `OutOfBounds` (R133, R139). -/
theorem framebuffer_ok_or_raise {i : Instr} {s t : State} (hi : isFramebufferCommand i = true)
    (h : exec i s = .next t) : t.result = .ok ∨ t = raise .outOfBounds s := by
  cases i with
  | clear => cases h; exact .inl rfl
  | testpat => cases h; exact .inl rfl
  | setpixel x y c =>
    rcases exec_setpixel_cases h with ⟨-, rfl⟩ | ⟨-, rfl⟩
    · exact .inl rfl
    · exact .inr rfl
  | _ => cases hi

/-- No framebuffer command writes the mode. -/
theorem framebuffer_screenMode {i : Instr} {s t : State} (hi : isFramebufferCommand i = true)
    (h : exec i s = .next t) : t.screenMode = s.screenMode := by
  cases i with
  | clear => cases h; rfl
  | testpat =>
    cases h
    exact (congrArg State.screenMode (writePattern_frame s.conf.testPattern s) :)
  | setpixel x y c => rcases exec_setpixel_cases h with ⟨-, rfl⟩ | ⟨-, rfl⟩ <;> rfl
  | _ => cases hi

/-- A framebuffer command changes nothing outside the planes, the dirty rectangle and `RESULT`. -/
theorem framebuffer_frame {i : Instr} {s t : State} (hi : isFramebufferCommand i = true) (h : exec i s = .next t) :
    t = { s with p0 := t.p0, p1 := t.p1, dirty := t.dirty, result := t.result, seqPc := .idle } := by
  have hatOnce : actionsOf i s = none := by
    cases i with
    | clear | setpixel | testpat => rfl
    | _ => cases hi
  have hframe := exec_at_once_frame hatOnce h
  rwa [framebuffer_screenMode hi h] at hframe

/-! ## Pixels (R135, R138) -/

/-- `x` and `y` are the remainder and the quotient of the offset by the width (R135). -/
theorem pixelOffset_mod_div {w x : Nat} (hx : x < w) (y : Nat) :
    pixelOffset w x y % w = x ∧ pixelOffset w x y / w = y := by
  rw [pixelOffset, Nat.add_mul_mod_self_right, Nat.add_mul_div_right _ _ (Nat.zero_lt_of_lt hx), Nat.mod_eq_of_lt hx,
    Nat.div_eq_of_lt hx, Nat.zero_add]
  exact ⟨rfl, rfl⟩

/-- A legal panel has fewer than `2^24` pixels (R135). -/
theorem legal_area (c : LegalConfig) : c.raw.width * c.raw.height < 2 ^ 24 := by
  obtain ⟨-, hw, -, hh⟩ := legal_geometry c
  exact (Nat.mul_le_mul hw hh).trans_lt (by decide)

/-- A colour is its two bits, one for each plane (R131). -/
theorem color_toNat : ∀ c : BitVec 2, (c.getLsbD 0).toNat + 2 * (c.getLsbD 1).toNat = c.toNat := by decide

/-- A pixel reads from the planes alone. -/
theorem getPixel_of_planes {s t : State} (hc : t.cfg = s.cfg) (h0 : t.p0 = s.p0) (h1 : t.p1 = s.p1) (x y : Nat) :
    t.getPixel x y = s.getPixel x y := by
  simp only [State.getPixel, State.conf, hc, h0, h1]

/-- After a pixel is written, the pixel at any coordinates: the colour, where the offset is the same (R138). -/
theorem getPixel_writePixel {s : State} (h0 : s.p0.wf = true) (h1 : s.p1.wf = true) (x y x' y' : Nat) (c : BitVec 2) :
    (s.writePixel x y c).getPixel x' y' =
      if pixelOffset s.conf.width x' y' = pixelOffset s.conf.width x y then c.toNat else s.getPixel x' y' := by
  simp only [State.getPixel, writePixel_p0, writePixel_p1, State.conf, writePixel_cfg, bitAt_setBits h0,
    bitAt_setBits h1]
  split
  · exact color_toNat c
  · rfl

/-- Planes of zero bytes show every pixel as 0 (R130). -/
theorem getPixel_of_empty {s : State} (h0 : s.p0 = []) (h1 : s.p1 = []) (x y : Nat) : s.getPixel x y = 0 := by
  simp only [State.getPixel, Memory.bitAt, h0, h1, Memory.read_empty, BitVec.zero_and, ne_eq, not_true_eq_false,
    decide_false, Bool.toNat_false]

/-! ## The dirty rectangle (R28, R132) -/

/-- A rectangle is its four registers as numbers. -/
theorem Dirty.ext_toNat {d e : Dirty} (h1 : d.minX.toNat = e.minX.toNat) (h2 : d.maxX.toNat = e.maxX.toNat)
    (h3 : d.minY.toNat = e.minY.toNat) (h4 : d.maxY.toNat = e.maxY.toNat) : d = e := by
  obtain ⟨minX, maxX, minY, maxY⟩ := d
  obtain ⟨minX', maxX', minY', maxY'⟩ := e
  simp only [BitVec.toNat_inj] at h1 h2 h3 h4
  rw [h1, h2, h3, h4]

/-- The update law, at a pixel the registers can hold. -/
theorem touch_toNat (d : Dirty) (x : BitVec 8) {y : Nat} (hy : y < 65535) :
    (d.touch x.toNat y).minX.toNat = min d.minX.toNat (x.toNat - x.toNat % 8) ∧
    (d.touch x.toNat y).maxX.toNat = max d.maxX.toNat (x.toNat - x.toNat % 8 + 8) ∧
    (d.touch x.toNat y).minY.toNat = min d.minY.toNat y ∧
    (d.touch x.toNat y).maxY.toNat = max d.maxY.toNat (y + 1) := by
  rw [← alignDown8_eq]
  exact ⟨touch_minX d x.toNat y, touch_maxX d (Nat.le_of_lt_succ x.isLt) y, touch_minY d x.toNat hy,
    touch_maxY d x.toNat hy⟩

/-- A row of the panel is below the greatest value of `maxY`. -/
theorem row_lt {s : State} {y : Nat} (hy : y < s.conf.height) : y < 65535 := by
  obtain ⟨-, -, -, hh⟩ := s.geometry
  exact hy.trans_le hh

/-- The corners of `FULL` (R28). -/
theorem full_corners (s : State) :
    (Dirty.full s.conf.width s.conf.height).minX.toNat = 0 ∧
    (Dirty.full s.conf.width s.conf.height).maxX.toNat = (s.conf.width - 1) - (s.conf.width - 1) % 8 + 8 ∧
    (Dirty.full s.conf.width s.conf.height).minY.toNat = 0 ∧
    (Dirty.full s.conf.width s.conf.height).maxY.toNat = s.conf.height := by
  obtain ⟨-, hw, -, hh⟩ := s.geometry
  rw [← alignDown8_eq]
  exact full_toNat hw hh

/-- No pixel of the panel widens `FULL` (R132). -/
theorem full_touch {s : State} {x : BitVec 8} {y : Nat} (hx : x.toNat < s.conf.width) (hy : y < s.conf.height) :
    (Dirty.full s.conf.width s.conf.height).touch x.toNat y = Dirty.full s.conf.width s.conf.height := by
  obtain ⟨f1, f2, f3, f4⟩ := full_corners s
  obtain ⟨t1, t2, t3, t4⟩ := touch_toNat (Dirty.full s.conf.width s.conf.height) x (row_lt hy)
  apply Dirty.ext_toNat <;> omega

/-! ## The byte writes of TESTPAT (R134) -/

/-- The byte writes of one plane, in list order. -/
def Memory.writeAll (m : Memory) (l : List PatternByte) : Memory :=
  l.foldl (fun m e => m.write e.index e.value.toByte) m

/-- Each plane takes its own entries of the pattern. -/
theorem writePattern_plane (l : List PatternByte) (s : State) (p : PlaneId) :
    (writePattern l s).plane p = (s.plane p).writeAll (l.filter (fun e => decide (e.plane = p))) := by
  induction l generalizing s with
  | nil => rfl
  | cons e l ih =>
    have hstep : writePattern (e :: l) s = writePattern l (s.writePlane e.plane e.index e.value.toByte) := rfl
    rw [hstep, ih]
    by_cases hp : e.plane = p
    · simp only [List.filter_cons, hp, decide_true, if_true, writePlane_plane_same]
      rfl
    · simp only [List.filter_cons, hp, decide_false, Bool.false_eq_true, if_false, writePlane_plane_other _ _ _ _ _ hp]

/-- What the pattern leaves in a plane depends on the plane alone. -/
theorem writePattern_plane_congr (l : List PatternByte) {s s' : State} {p : PlaneId} (h : s.plane p = s'.plane p) :
    (writePattern l s).plane p = (writePattern l s').plane p := by
  rw [writePattern_plane, writePattern_plane, h]

/-- A byte holds the last value listed for it; a byte not listed keeps its value. -/
theorem Memory.read_writeAll {m : Memory} (hm : m.wf = true) (l : List PatternByte) (i : Nat) :
    (m.writeAll l).read i =
      ((l.filter (fun e => decide (e.index = i))).getLast?).elim (m.read i) (fun e => e.value.toByte) := by
  induction l generalizing m with
  | nil => rfl
  | cons e l ih =>
    have hstep : m.writeAll (e :: l) = (m.write e.index e.value.toByte).writeAll l := rfl
    rw [hstep, ih (Memory.wf_write hm _ _)]
    by_cases hi : e.index = i
    · simp only [List.filter_cons, hi, decide_true, if_true, List.getLast?_cons, Memory.read_write_same hm]
      cases (l.filter (fun e => decide (e.index = i))).getLast? <;> rfl
    · simp only [List.filter_cons, hi, decide_false, Bool.false_eq_true, if_false,
        Memory.read_write_other _ _ (Ne.symm hi)]

/-- A canonical plane after the writes of a pattern. -/
theorem read_writePattern {s : State} {p : PlaneId} (hp : (s.plane p).wf = true) (l : List PatternByte) (i : Nat) :
    ((writePattern l s).plane p).read i =
      ((l.filter (fun e => decide (e.plane = p ∧ e.index = i))).getLast?).elim ((s.plane p).read i)
        (fun e => e.value.toByte) := by
  rw [writePattern_plane, Memory.read_writeAll hp, List.filter_filter]
  simp only [Bool.decide_and, Bool.and_comm]

/-! ## What the framebuffer commands read (R139) -/

/-- What a framebuffer command leaves is a function of the configuration, the planes and the dirty rectangle. -/
theorem framebuffer_reads_framebuffer {i : Instr} {s s' t t' : State} (hi : isFramebufferCommand i = true)
    (hcfg : s.cfg = s'.cfg) (h0 : s.p0 = s'.p0) (h1 : s.p1 = s'.p1) (hd : s.dirty = s'.dirty)
    (h : exec i s = .next t) (h' : exec i s' = .next t') :
    t.p0 = t'.p0 ∧ t.p1 = t'.p1 ∧ t.dirty = t'.dirty ∧ t.result = t'.result := by
  have hconf : s.conf = s'.conf := congrArg LegalConfig.raw hcfg
  cases i with
  | clear =>
    cases h; cases h'
    exact ⟨rfl, rfl, congrArg Dirty.afterClear hconf, rfl⟩
  | testpat =>
    cases h; cases h'
    rw [← hconf]
    exact ⟨writePattern_plane_congr (p := .plane0) _ h0, writePattern_plane_congr (p := .plane1) _ h1, rfl, rfl⟩
  | setpixel x y c =>
    by_cases hin : inPanel s.conf x.toNat y.toNat = true
    · rw [exec_setpixel_inside c hin] at h
      rw [exec_setpixel_inside c (hconf ▸ hin)] at h'
      cases h; cases h'
      simp only [complete_p0, complete_p1, complete_dirty, complete_result, writePixel_p0, writePixel_p1, hconf, h0, h1,
        hd, and_self]
    · rw [exec_setpixel_outside c hin] at h
      rw [exec_setpixel_outside c (hconf ▸ hin)] at h'
      cases h; cases h'
      exact ⟨h0, h1, hd, rfl⟩
  | _ => cases hi

/-! ## Encoding -/

/-- The word of SETPIXEL decodes to it (R93). -/
theorem decodeHost_setpixel (x : BitVec 8) (y : BitVec 16) (c : BitVec 2) :
    decodeHost (hostWord 0x2#4 c y x) = .ok (.setpixel x y c) := by
  obtain ⟨r, hr, hop, hsel⟩ := Laws.EncodesToItsRow.setpixel x y c Config.deviceRecord
  rw [decodeHost_of_selects hr hsel, hop, HostOp.build, xField_hostWord, yField_hostWord, colorField_hostWord]

end Sys2Proof.Machine
end

section
/-!
The dirty rectangle of a run of SETPIXELs is the minimal box of the pixels they write (spec/40_framebuffer_ops.md R132).
-/

namespace Sys2Proof.Machine

/-- The operands of one SETPIXEL: `x`, `y` and the colour. -/
abbrev PixelWrite := BitVec 8 × BitVec 16 × BitVec 2

/-- Touching pixels one after another. -/
def Dirty.touchAll (d : Dirty) (ps : List PixelWrite) : Dirty :=
  ps.foldl (fun d p => d.touch p.1.toNat p.2.1.toNat) d

/-- The rectangle is the least one that is byte-aligned in X, exact in Y and covers the pixels: each side is an extremum
of the pixels' cells. -/
structure MinimalBox (ps : Set PixelWrite) (d : Dirty) : Prop where
  minX : IsLeast ((fun p : PixelWrite => p.1.toNat - p.1.toNat % 8) '' ps) d.minX.toNat
  maxX : IsGreatest ((fun p : PixelWrite => p.1.toNat - p.1.toNat % 8 + 8) '' ps) d.maxX.toNat
  minY : IsLeast ((fun p : PixelWrite => p.2.1.toNat) '' ps) d.minY.toNat
  maxY : IsGreatest ((fun p : PixelWrite => p.2.1.toNat + 1) '' ps) d.maxY.toNat

/-- The box covers the cell of every pixel. -/
theorem MinimalBox.covers {ps : Set PixelWrite} {d : Dirty} (h : MinimalBox ps d) {p : PixelWrite} (hp : p ∈ ps) :
    d.minX.toNat ≤ p.1.toNat - p.1.toNat % 8 ∧ p.1.toNat - p.1.toNat % 8 + 8 ≤ d.maxX.toNat ∧
    d.minY.toNat ≤ p.2.1.toNat ∧ p.2.1.toNat + 1 ≤ d.maxY.toNat :=
  ⟨h.minX.2 ⟨p, hp, rfl⟩, h.maxX.2 ⟨p, hp, rfl⟩, h.minY.2 ⟨p, hp, rfl⟩, h.maxY.2 ⟨p, hp, rfl⟩⟩

/-- A value in the image of the pixels is that of one of them. -/
theorem exists_of_mem_image {ps : Set PixelWrite} {f : PixelWrite → Nat} {v : Nat} (h : v ∈ f '' ps) :
    ∃ p ∈ ps, v = f p :=
  h.imp fun _ ⟨hp, hv⟩ => ⟨hp, hv.symm⟩

/-- From `EMPTY`, one pixel. -/
theorem minimalBox_singleton (p : PixelWrite) (hy : p.2.1.toNat < 65535) :
    MinimalBox {p} (Dirty.empty.touch p.1.toNat p.2.1.toNat) := by
  obtain ⟨h1, h2, h3, h4⟩ := empty_touch_toNat (Nat.le_of_lt_succ p.1.isLt) hy
  rw [alignDown8_eq] at h1 h2
  constructor
  · rw [h1, Set.image_singleton]; exact isLeast_singleton
  · rw [h2, Set.image_singleton]; exact isGreatest_singleton
  · rw [h3, Set.image_singleton]; exact isLeast_singleton
  · rw [h4, Set.image_singleton]; exact isGreatest_singleton

/-- One pixel more: the update law is that of the extrema. -/
theorem MinimalBox.touch {ps : Set PixelWrite} {d : Dirty} (h : MinimalBox ps d) (p : PixelWrite)
    (hy : p.2.1.toNat < 65535) : MinimalBox (insert p ps) (d.touch p.1.toNat p.2.1.toNat) := by
  obtain ⟨h1, h2, h3, h4⟩ := touch_toNat d p.1 hy
  constructor
  · rw [h1, Set.image_insert_eq, min_comm]; exact h.minX.insert _
  · rw [h2, Set.image_insert_eq, max_comm]; exact h.maxX.insert _
  · rw [h3, Set.image_insert_eq, min_comm]; exact h.minY.insert _
  · rw [h4, Set.image_insert_eq, max_comm]; exact h.maxY.insert _

theorem MinimalBox.touchAll {ps : List PixelWrite} {qs : Set PixelWrite} {d : Dirty} (h : MinimalBox qs d)
    (hy : ∀ p ∈ ps, p.2.1.toNat < 65535) : MinimalBox ({p | p ∈ ps} ∪ qs) (d.touchAll ps) := by
  induction ps generalizing qs d with
  | nil => simpa [Dirty.touchAll] using h
  | cons p ps ih =>
    obtain ⟨hp, hps⟩ := List.forall_mem_cons.1 hy
    rw [List.setOfPred_mem_cons, Set.insert_union, ← Set.union_insert]
    exact ih (h.touch p hp) hps

/-- From `EMPTY`, any non-empty list of pixels. -/
theorem minimalBox_empty_touchAll {ps : List PixelWrite} (hne : ps ≠ []) (hy : ∀ p ∈ ps, p.2.1.toNat < 65535) :
    MinimalBox {p | p ∈ ps} (Dirty.empty.touchAll ps) := by
  obtain ⟨p, rest, rfl⟩ := List.exists_cons_of_ne_nil hne
  obtain ⟨hp, hrest⟩ := List.forall_mem_cons.1 hy
  rw [List.setOfPred_mem_cons, ← Set.union_singleton]
  exact (minimalBox_singleton p hp).touchAll hrest

/-- `FULL` stays `FULL`. -/
theorem full_touchAll {s : State} {ps : List PixelWrite}
    (h : ∀ p ∈ ps, p.1.toNat < s.conf.width ∧ p.2.1.toNat < s.conf.height) :
    (Dirty.full s.conf.width s.conf.height).touchAll ps = Dirty.full s.conf.width s.conf.height := by
  induction ps with
  | nil => rfl
  | cons p ps ih =>
    obtain ⟨⟨hx, hy⟩, hps⟩ := List.forall_mem_cons.1 h
    exact (congrArg (Dirty.touchAll · ps) (full_touch hx hy)).trans (ih hps)

theorem execAll_cons {i : Instr} {s t : State} (h : exec i s = .next t) (is : List Instr) :
    execAll (i :: is) s = execAll is t := by
  rw [execAll, h]

/-- A run of SETPIXELs inside the geometry ends, and touches its pixels in order. -/
theorem execAll_setpixels (ps : List PixelWrite) {s : State}
    (h : ∀ p ∈ ps, p.1.toNat < s.conf.width ∧ p.2.1.toNat < s.conf.height) :
    ∃ t, execAll (ps.map (fun p => .setpixel p.1 p.2.1 p.2.2)) s = .next t ∧ t.dirty = s.dirty.touchAll ps := by
  induction ps generalizing s with
  | nil => exact ⟨s, rfl, rfl⟩
  | cons p ps ih =>
    obtain ⟨hp, hps⟩ := List.forall_mem_cons.1 h
    rw [List.map_cons, execAll_cons (exec_setpixel_inside p.2.2 ((inPanel_iff _ _ _).2 hp))]
    exact ih hps

end Sys2Proof.Machine
end

section
/-!
The statements about the framebuffer commands (spec/40_framebuffer_ops.md).
-/

namespace Sys2Proof.Machine

/-- Settles O15: the word selects the row of SETPIXEL; a bit write changes one byte of a canonical plane; outside the
geometry the answer is the raise. -/
theorem setpixelWritesOneBitOfEachPlane : Obligations.SetpixelWritesOneBitOfEachPlane := by
  intro s x y c
  refine ⟨decodeHost_setpixel x y c, fun h0 h1 hx hy => ?_, fun h =>
    exec_setpixel_outside c ((not_inPanel_iff _ _ _).2 h)⟩
  have hexec := exec_setpixel_inside c ((inPanel_iff _ _ _).2 ⟨hx, hy⟩)
  obtain ⟨minX, maxX, minY, maxY⟩ := touch_toNat s.dirty x (row_lt hy)
  exact ⟨_, _, _, pmask s.conf.bitOrder (pixelOffset s.conf.width x.toNat y.toNat), hexec, rfl, rfl, rfl,
    Memory.read_setBits_same h0 _ _ _, Memory.read_setBits_same h1 _ _ _,
    fun j hj => ⟨Memory.read_setBits_other _ _ _ hj, Memory.read_setBits_other _ _ _ hj⟩,
    minX, maxX, minY, maxY, framebuffer_frame rfl hexec⟩

/-- Settles O17: two pixels of the panel with one offset are one pixel. -/
theorem pixelReadsBackAsWritten : Obligations.PixelReadsBackAsWritten := by
  intro s x y c h0 h1 hx hy
  refine ⟨_, exec_setpixel_inside c ((inPanel_iff _ _ _).2 ⟨hx, hy⟩), ?_, fun x' y' hx' _ hne => ?_⟩
  · exact (getPixel_writePixel h0 h1 _ _ _ _ c).trans (if_pos rfl)
  · have hoffset : pixelOffset s.conf.width x' y' ≠ pixelOffset s.conf.width x.toNat y.toNat :=
      fun ho => hne (Prod.ext_iff.2 (pixelOffset_inj hx' hx ho))
    exact (getPixel_writePixel h0 h1 _ _ _ _ c).trans (if_neg hoffset)

/-- Settles O19: division by the width, and the bounds of a legal geometry. -/
theorem pixelOffsetsAreABijection : Obligations.PixelOffsetsAreABijection := by
  intro c
  refine ⟨fun x y => ⟨rfl, rfl⟩, fun x y hx hy => ?_, fun o ho => ?_⟩
  · have hlt := pixelOffset_lt hx hy
    obtain ⟨hmod, hdiv⟩ := pixelOffset_mod_div hx y
    exact ⟨hlt, hlt.trans (legal_area c), byteIndex_lt hlt, hmod.symm, hdiv.symm⟩
  · exact ⟨Nat.mod_lt o (legal_geometry c).1, Nat.div_lt_of_lt_mul ho, Nat.mod_add_div' o c.raw.width⟩

/-- Settles O20: a run of SETPIXELs touches its pixels in order, which keeps the rectangle the minimal box, and keeps
`FULL`. -/
theorem dirtyRectangleIsTheMinimalBox : Obligations.DirtyRectangleIsTheMinimalBox := by
  refine ⟨fun s t x y c hx hy h => ?_, fun s ps hne hps => ?_⟩
  · rw [exec_setpixel_inside c ((inPanel_iff _ _ _).2 ⟨hx, hy⟩)] at h
    cases h
    exact touch_toNat s.dirty x (row_lt hy)
  · obtain ⟨t, hexec, hdirty⟩ := execAll_setpixels ps hps
    refine ⟨t, hexec, fun hempty => ?_, fun hfull => ?_⟩
    · have hbox := minimalBox_empty_touchAll hne fun p hp => row_lt (hps p hp).2
      rw [← hempty, ← hdirty] at hbox
      exact ⟨fun p hp => hbox.covers hp, exists_of_mem_image hbox.minX.1, exists_of_mem_image hbox.maxX.1,
        exists_of_mem_image hbox.minY.1, exists_of_mem_image hbox.maxY.1⟩
    · rw [hdirty, hfull, full_touchAll hps]

/-- Settles O22: every listed byte lies in the planes of a legal configuration; each plane takes its own entries in
order. -/
theorem testpatWritesItsPattern : Obligations.TestpatWritesItsPattern := by
  refine ⟨by decide, fun s h0 h1 => ?_⟩
  obtain ⟨minX, maxX, minY, maxY⟩ := full_corners s
  refine ⟨_, rfl, fun e he => legal_pattern s.cfg he, fun p i => ?_, minX, maxX, minY, maxY,
    framebuffer_frame (i := .testpat) rfl rfl⟩
  have hp : (s.plane p).wf = true := by cases p with | plane0 => exact h0 | plane1 => exact h1
  trans ((writePattern s.conf.testPattern s).plane p).read i
  · cases p <;> rfl
  rw [read_writePattern hp]
  generalize (s.conf.testPattern.filter _).getLast? = last
  match last with
  | none => rfl
  | some e => rfl

/-- Settles O23: the inversion and the frame of the framebuffer commands; and each writes a function of the
configuration, the planes and the rectangle. -/
theorem framebufferCommandsStayInTheFramebuffer : Obligations.FramebufferCommandsStayInTheFramebuffer := by
  intro i hi
  refine ⟨fun s => ?_, fun s s' t t' hcfg h0 h1 hd h h' => ?_⟩
  · obtain ⟨t, h⟩ := exec_answers i s
    refine ⟨t, h, framebuffer_frame hi h, fun hne => ?_⟩
    obtain rfl := (framebuffer_ok_or_raise hi h).resolve_left hne
    rfl
  · exact framebuffer_reads_framebuffer hi hcfg h0 h1 hd h h'

/-- Settles O14: the planes are empty lists, which read as 0 everywhere. -/
theorem clearZeroesThePlanes : Obligations.ClearZeroesThePlanes := by
  refine ⟨by decide, fun s => ⟨_, rfl, fun i => ⟨Memory.read_empty i, Memory.read_empty i⟩, getPixel_of_empty rfl rfl,
    fun hfull => ?_, fun hempty => ?_, framebuffer_frame (i := .clear) rfl rfl⟩⟩
  · have hdirty : Dirty.afterClear s.conf = Dirty.full s.conf.width s.conf.height := if_pos hfull
    simp only [complete_dirty, hdirty]
    exact full_corners s
  · exact if_neg (Bool.eq_false_iff.1 hempty)

/-- Settles O16: outside the geometry the answer is the raise, inside it `RESULT` is OK. -/
theorem setpixelOutsideRaisesOutOfBounds : Obligations.SetpixelOutsideRaisesOutOfBounds := by
  intro s x y c
  refine ⟨fun h => exec_setpixel_outside c ((not_inPanel_iff _ _ _).2 h), fun t h hraised => ?_⟩
  rcases exec_setpixel_cases h with ⟨-, rfl⟩ | ⟨hout, -⟩
  · cases hraised
  · exact (not_inPanel_iff _ _ _).1 hout

end Sys2Proof.Machine
end

section
/-!
The commands of the driver by their effects (spec/42_driver_ops.md R180 to R189), and what an instruction that has ended
leaves in `pstate` and `initialized`.
-/

namespace Sys2Proof.Machine

/-! ## Commands that complete (R180, R182, R187) -/

/-- RESETHW in an environment that completes its three `SLEEP`s. -/
theorem exec_resethw {s : State} (h : s.env.completes 3 = true) : exec .resethw s = .next { s with
    out := s.out ++ [.rst true, .sleep 10, .rst false, .sleep 10, .rst true, .sleep 10]
    pstate := .poweredDown
    initialized := false
    result := .ok
    seqPc := .idle
    env := s.env.after 3 0 } :=
  exec_completes (as := resethwActions) rfl h (Env.answers_zero _)

/-- A command that performs a sequence and then writes `RESULT`: the last write adds neither an event nor a wait. -/
theorem exec_completes_resultOk {i : Instr} {s : State} {as : List Action}
    (h : actionsOf i s = some (as ++ [.resultOk])) (hs : s.env.completes (sleepsOf as) = true)
    (hr : s.env.answers (repliesOf as) = true) :
    exec i s = .next { settled (writesOf as s) (s.out ++ eventsOf as) .idle
      (s.env.after (sleepsOf as) (repliesOf as)) with result := .ok } := by
  have hsleeps : sleepsOf (as ++ [.resultOk]) = sleepsOf as := sleepsOf_append as _
  have hreplies : repliesOf (as ++ [.resultOk]) = repliesOf as := repliesOf_append as _
  have hevents : eventsOf (as ++ [.resultOk]) = eventsOf as := (eventsOf_append as _).trans (List.append_nil _)
  rw [exec_completes h (hsleeps ▸ hs) (hreplies ▸ hr), hsleeps, hreplies, hevents, writesOf_append]
  rfl

/-- `powerDown` takes PoweredUp to PoweredDown and leaves every other `pstate`. -/
theorem afterPowerDown_eq (p : PState) : p.afterPowerDown = if p = .poweredUp then .poweredDown else p := by
  cases p <;> rfl

/-! ## The protocol state machine (R189) -/

/-- A command that has ended has run to its end: one that waits for ever is not Idle (R37, R270). -/
theorem runCommand_ended {cmd : Instr} {as : List Action} {s : State} (h : (runCommand cmd as s).seqPc = .idle) :
    runCommand cmd as s =
      settled (writesOf as s) (s.out ++ eventsOf as) .idle (s.env.after (sleepsOf as) (repliesOf as)) := by
  rcases runCommand_cases cmd as s with ⟨hdone, -⟩ | ⟨_, _, _, -, hwait, -⟩
  · exact hdone
  · rw [hwait] at h
    cases h

/-- What the writes of an instruction's actions leave in `pstate` and `initialized`. -/
theorem writesOf_protocol {i : Instr} {s : State} {as : List Action} (h : actionsOf i s = some as) :
    (writesOf as s).pstate = pstateAfter i s ∧ (writesOf as s).initialized = initializedAfter i s := by
  cases i <;> simp only [actionsOf, Option.some.injEq, reduceCtorEq] at h <;> subst h
  case refresh f => rw [writesOf_refresh]; exact ⟨rfl, rfl⟩
  case quickdraw => rw [writesOf_quickdraw]; exact ⟨rfl, rfl⟩
  case powerup => rw [writesOf_append, writesOf_powerUp]; exact ⟨rfl, rfl⟩
  case powerdown => rw [writesOf_append, writesOf_powerDown]; exact ⟨afterPowerDown_eq s.pstate, rfl⟩
  all_goals exact ⟨rfl, rfl⟩

/-- The commands that are done at once leave both as they are. -/
theorem protocol_of_at_once {i : Instr} {s : State} (h : actionsOf i s = none) :
    pstateAfter i s = s.pstate ∧ initializedAfter i s = s.initialized := by
  cases i with
  | clear | setpixel | testpat | setmode => exact ⟨rfl, rfl⟩
  | _ => cases h

/-- An instruction that has ended leaves `pstate` and `initialized` as the table says. -/
theorem exec_protocol {i : Instr} {s t : State} (h : exec i s = .next t) (hended : t.seqPc = .idle) :
    t.pstate = pstateAfter i s ∧ t.initialized = initializedAfter i s := by
  cases ha : actionsOf i s with
  | none =>
    obtain ⟨hp, hi⟩ := protocol_of_at_once ha
    rw [exec_at_once_frame ha h, hp, hi]
    exact ⟨rfl, rfl⟩
  | some as =>
    rw [exec_of_actions ha] at h
    cases h
    rw [runCommand_ended hended]
    exact writesOf_protocol ha

/-- The table enters DeepSleep from nowhere (R32). -/
theorem pstateAfter_ne_deepSleep (i : Instr) {s : State} (h : s.pstate ≠ .deepSleep) :
    pstateAfter i s ≠ .deepSleep := by
  cases i with
  | resethw | powerup => exact PState.noConfusion
  | refresh f => cases f <;> exact PState.noConfusion
  | quickdraw | powerdown =>
    exact iteInduction (motive := (· ≠ PState.deepSleep)) (fun _ => PState.noConfusion) fun _ => h
  | _ => exact h

end Sys2Proof.Machine
end

section
/-!
The statements about the commands of the driver (spec/42_driver_ops.md).
-/

namespace Sys2Proof.Machine

/-- Settles O26: `powerUp` waits for one `SLEEP` in every legal order, and its steps send what the table lists. -/
theorem powerupSendsTheStepsInOrder : Obligations.PowerupSendsTheStepsInOrder := by
  refine ⟨by decide, fun s h => ?_⟩
  have hrun := exec_completes_resultOk (i := .powerup) (s := s) rfl (sleepsOf_powerUp s ▸ h)
    (repliesOf_powerUp s ▸ Env.answers_zero _)
  rw [writesOf_powerUp, eventsOf_powerUp, sleepsOf_powerUp, repliesOf_powerUp] at hrun
  exact hrun

/-- Settles O49: an instruction that has ended has done all its writes, which are those of the table. -/
theorem protocolStateFollowsItsTable : Obligations.ProtocolStateFollowsItsTable := by
  refine ⟨fun c => ⟨construct_pstate c, construct_initialized c⟩,
    fun s code => ⟨raise_pstate code s, raise_initialized code s⟩, fun i s t h hended => ?_⟩
  obtain ⟨hp, hi⟩ := exec_protocol h hended
  exact ⟨hp, hi, fun hne => hp ▸ pstateAfter_ne_deepSleep i hne⟩

/-- Settles O24: a second RESETHW writes the values the first has left, and an environment that completes six `SLEEP`s
completes three after the first three. -/
theorem resethwPulsesTheResetLine : Obligations.ResethwPulsesTheResetLine := by
  refine ⟨by decide, fun s => exec_resethw, fun s h => ?_⟩
  have hfirst : s.env.completes 3 = true := Env.completes_mono (by decide) h
  have hsecond : (s.env.after 3 0).completes 3 = true := Env.completes_after h
  exact ⟨_, _, exec_resethw hfirst, exec_resethw hsecond, rfl⟩

/-- Settles O25: SETMODE is done at once, and ends as every command does. -/
theorem setmodeWritesTheMode : Obligations.SetmodeWritesTheMode :=
  ⟨by decide, by decide, fun _ _ => rfl⟩

/-- Settles O29: `powerDown` waits for nothing, so POWERDOWN ends in every state. -/
theorem powerdownRestoresDefaultsAndPowersOff : Obligations.PowerdownRestoresDefaultsAndPowersOff := by
  refine ⟨by decide, fun s => ?_⟩
  have hrun := exec_completes_resultOk (i := .powerdown) (s := s) rfl (sleepsOf_powerDown s ▸ Env.completes_zero _)
    (repliesOf_powerDown s ▸ Env.answers_zero _)
  rw [writesOf_powerDown, eventsOf_powerDown, sleepsOf_powerDown, repliesOf_powerDown, Env.after_zero,
    afterPowerDown_eq] at hrun
  exact hrun

/-- Settles O30: GETSTATUS waits for the one status byte that it latches. -/
theorem getstatusLatchesTheReturnedByte : Obligations.GetstatusLatchesTheReturnedByte :=
  ⟨by decide, fun s h =>
    exec_completes (as := getstatusActions (Config.freeStatusByte s.env.draws) s) rfl (Env.completes_zero _) h⟩

end Sys2Proof.Machine
end

section
/-!
The transmission commands by their effects (spec/43_refresh_ops.md R210 to R215): what REFRESH and QUICKDRAW leave, and
the transactions a reader of their stream finds.
-/

namespace Sys2Proof.Machine

/-! ## Commands that complete (R211, R212) -/

/-- REFRESH in an environment that completes its three `SLEEP`s. -/
theorem exec_refresh (f : Bool) {s : State} (h : s.env.completes 3 = true) : exec (.refresh f) s = .next { s with
    out := s.out ++ refreshEvents f s
    dirty := Dirty.empty
    pstate := if f then .poweredDown else .poweredUp
    initialized := true
    result := .ok
    seqPc := .idle
    env := s.env.after 3 0 } := by
  have hrun := exec_completes (i := .refresh f) (s := s) rfl (sleepsOf_refresh f s ▸ h)
    (repliesOf_refresh f s ▸ Env.answers_zero _)
  rw [writesOf_refresh, eventsOf_refresh, sleepsOf_refresh, repliesOf_refresh] at hrun
  exact hrun

/-- QUICKDRAW in an environment that completes its `SLEEP`s: one more with `powerUp` than without. -/
theorem exec_quickdraw {s : State} (h : s.env.completes (if s.conf.qdPowerup then 3 else 2) = true) :
    exec .quickdraw s = .next { s with
      out := s.out ++ quickdrawEvents s
      dirty := Dirty.empty
      pstate := if s.conf.qdPowerup then .poweredUp else s.pstate
      initialized := if s.conf.qdPowerup then true else s.initialized
      result := .ok
      seqPc := .idle
      env := s.env.after (if s.conf.qdPowerup then 3 else 2) 0 } := by
  have hrun := exec_completes (i := .quickdraw) (s := s) rfl (sleepsOf_quickdraw s ▸ h)
    (repliesOf_quickdraw s ▸ Env.answers_zero _)
  rw [writesOf_quickdraw, eventsOf_quickdraw, sleepsOf_quickdraw, repliesOf_quickdraw] at hrun
  exact hrun

/-! ## Whole transactions (R101) -/

/-- Whole transactions followed by whole transactions. -/
theorem scanFrom_outside_append {es fs : List Event} (he : scanFrom .outside es = some .outside)
    (hf : scanFrom .outside fs = some .outside) : scanFrom .outside (es ++ fs) = some .outside := by
  rw [scanFrom_append, he, Option.bind_some, hf]

/-- Whole transactions that are sent under a condition. -/
theorem scanFrom_outside_ite {c : Prop} [Decidable c] {es : List Event} (h : scanFrom .outside es = some .outside) :
    scanFrom .outside (if c then es else []) = some .outside :=
  iteInduction (motive := (scanFrom .outside · = some .outside)) (fun _ => h) fun _ => rfl

/-- Each step of `powerUp` sends whole transactions, or asks for its delay between them (R183). -/
theorem scanFrom_puStepEvents (s : State) (step : PuStep) :
    scanFrom .outside (puStepEvents s step) = some .outside := by
  cases step with
  | ponwait => rfl
  | pllctl => exact scanFrom_outside_ite (scanFrom_transaction _ _)
  | luts =>
    refine scanFrom_outside_ite ?_
    simp only [scanFrom_append, scanFrom_transaction, Option.bind_some]
  | _ => exact scanFrom_transaction _ _

theorem scanFrom_powerUpEvents (s : State) : scanFrom .outside (powerUpEvents s) = some .outside := by
  unfold powerUpEvents
  induction s.conf.puOrder with
  | nil => rfl
  | cons step rest ih => exact scanFrom_outside_append (scanFrom_puStepEvents s step) ih

/-! ## The planes on the wire (R210, R215) -/

@[simp] theorem planeList_length (s : State) (p : PlaneId) : (planeList s p).length = s.planeBytes := by
  simp [planeList]

theorem planeList_getElem? (s : State) (p : PlaneId) {j : Nat} (h : j < s.planeBytes) :
    (planeList s p)[j]? = some ((s.plane p).read j) := by
  simp [planeList, h]

theorem plane0Sent_of_grey4 {s : State} (h : s.screenMode = .grey4) : plane0Sent s = planeList s .plane0 := if_pos h

theorem plane0Sent_of_mono {s : State} (h : s.screenMode = .mono) :
    plane0Sent s = List.replicate s.planeBytes 0x00#8 := if_neg (h ▸ ScreenMode.noConfusion)

@[simp] theorem plane0Sent_length (s : State) : (plane0Sent s).length = s.planeBytes := by
  cases h : s.screenMode with
  | grey4 => rw [plane0Sent_of_grey4 h, planeList_length]
  | mono => rw [plane0Sent_of_mono h, List.length_replicate]

/-- The two transactions of `txPlanes`: the turnaround delay stands between them and belongs to neither (R210). -/
theorem transactionsOf_txPlanesEvents (s : State) (after : List Event) :
    transactionsOf (txPlanesEvents s ++ after) =
      [⟨s.conf.ops.plane0data, plane0Sent s⟩, ⟨s.conf.ops.plane1data, planeList s .plane1⟩] ++
        transactionsOf after := by
  unfold txPlanesEvents
  rw [List.append_assoc, List.append_assoc, transactionsOf_transaction]
  exact congrArg _ (transactionsOf_transaction _ _ _)

/-- Every transmission command that completes sends whole transactions, those of `powerUp` or none, then the planes,
then the rest. -/
theorem transmission_stream {i : Instr} {s : State} (hi : i = .quickdraw ∨ ∃ f, i = .refresh f)
    (h : s.env.completes 3 = true) :
    ∃ t before after, exec i s = .next t ∧ t.out = s.out ++ (before ++ (txPlanesEvents s ++ after)) ∧
      scanFrom .outside before = some .outside := by
  rcases hi with rfl | ⟨f, rfl⟩
  · have hsleeps : (if s.conf.qdPowerup then 3 else 2) ≤ 3 := by split <;> decide
    refine ⟨_, if s.conf.qdPowerup then powerUpEvents s else [],
      transaction s.conf.ops.datastop [] ++ [.sleep s.conf.tQd],
      exec_quickdraw (Env.completes_mono hsleeps h), ?_, scanFrom_outside_ite (scanFrom_powerUpEvents s)⟩
    simp only [quickdrawEvents, List.append_assoc]
  · refine ⟨_, powerUpEvents s, transaction s.conf.ops.refreshtrig [] ++
      ([.sleep (s.conf.tRefresh.get s.conf.rev)] ++ if f then powerDownEvents s else []),
      exec_refresh f h, ?_, scanFrom_powerUpEvents s⟩
    simp only [refreshEvents, List.append_assoc]

end Sys2Proof.Machine
end

section
/-!
The statements about the transmission commands (spec/43_refresh_ops.md).
-/

namespace Sys2Proof.Machine

/-- Settles O31: REFRESH waits for three `SLEEP`s with and without the full cycle, and `powerDown` takes the PoweredUp
that `powerUp` leaves to PoweredDown. -/
theorem refreshTransmitsAndTriggers : Obligations.RefreshTransmitsAndTriggers :=
  ⟨by decide, by decide, fun f _ h => exec_refresh f h⟩

/-- Settles O32: QUICKDRAW waits for the delay of `powerUp` only where it performs it. -/
theorem quickdrawTransmitsAndStops : Obligations.QuickdrawTransmitsAndStops :=
  ⟨by decide, fun _ h => exec_quickdraw h⟩

/-- Settles O33: what comes before the planes is whole transactions, so a reader finds the two of the planes as they
were sent. -/
theorem planeTransactionsCarryThePlanes : Obligations.PlaneTransactionsCarryThePlanes := by
  intro i s hi h
  obtain ⟨t, before, after, hexec, hout, hwhole⟩ := transmission_stream hi h
  refine ⟨t, _, transactionsOf before, plane0Sent s, planeList s .plane1, transactionsOf after, hexec, hout, ?_,
    plane0Sent_length s, planeList_length s .plane1, fun hgrey j hj => ?_, fun hmono b hb => ?_,
    fun j hj => planeList_getElem? s .plane1 hj⟩
  · rw [transactionsOf_append _ hwhole, transactionsOf_txPlanesEvents, ← List.append_assoc]
  · rw [plane0Sent_of_grey4 hgrey]
    exact planeList_getElem? s .plane0 hj
  · rw [plane0Sent_of_mono hmono] at hb
    exact List.eq_of_mem_replicate hb

end Sys2Proof.Machine
end

section
/-!
The delays an instruction requests (spec/70_reset_and_hazards.md R275), read off its list of actions: each of its
`SLEEP`s is a wait of the list, as what is emitted at once holds none.
-/

namespace Sys2Proof.Machine

/-! ## The delay a list of actions requests -/

/-- A stream without a `SLEEP` requests no delay. -/
theorem requestedDelay_eq_zero {es : List Event} (h : sleepsIn es = 0) : requestedDelay es = 0 := by
  induction es with
  | nil => rfl
  | cons e rest ih =>
    obtain ⟨he, hrest⟩ : sleepsIn [e] = 0 ∧ sleepsIn rest = 0 :=
      Nat.add_eq_zero_iff.mp ((sleepsIn_append [e] rest).symm.trans h)
    cases e with
    | sleep ms => cases he
    | _ => exact ih hrest

/-- The delay an action waits for, in milliseconds. -/
def Action.delay : Action → Nat
  | .sleep ms => ms
  | _ => 0

/-- The delays a list of actions waits for, added up. -/
def delaysOf (as : List Action) : Nat := (as.map Action.delay).sum

@[simp] theorem delaysOf_nil : delaysOf [] = 0 := rfl
@[simp] theorem delaysOf_cons (a : Action) (as : List Action) : delaysOf (a :: as) = a.delay + delaysOf as := by
  simp [delaysOf]
@[simp] theorem delaysOf_append (as bs : List Action) : delaysOf (as ++ bs) = delaysOf as + delaysOf bs := by
  simp [delaysOf]

/-- The order of the actions does not matter to the sum. -/
theorem delaysOf_perm {as bs : List Action} (h : as.Perm bs) : delaysOf as = delaysOf bs := (h.map Action.delay).sum_eq

/-- Where no list emitted at once holds a `SLEEP`, a list of actions requests the delays it waits for. -/
theorem requestedDelay_eventsOf {as : List Action} (h : ∀ es, Action.emit es ∈ as → sleepsIn es = 0) :
    requestedDelay (eventsOf as) = delaysOf as := by
  induction as with
  | nil => rfl
  | cons a rest ih =>
    have hrest := ih fun es he => h es (List.mem_cons_of_mem a he)
    have ha : requestedDelay a.events = a.delay := by
      cases a with
      | emit es => exact requestedDelay_eq_zero (h es List.mem_cons_self)
      | _ => rfl
    rw [eventsOf_cons, requestedDelay_append, ha, hrest, delaysOf_cons]

/-! ## The delay an instruction requests -/

/-- `powerUp` waits for the settle delay alone, in every legal order (R183, R186). -/
@[simp] theorem delaysOf_powerUp (s : State) : delaysOf (powerUpActions s) = s.conf.tPon.get s.conf.rev := by
  have horder := delaysOf_perm ((puOrder_perm s.cfg).flatMap_right (puStepActions s))
  have hlisted : delaysOf (listedPuOrder.flatMap (puStepActions s)) = s.conf.tPon.get s.conf.rev := by
    simp [listedPuOrder, puStepActions, lutsActions, Action.delay]
  rw [powerUpActions, delaysOf_append, State.conf, horder, hlisted]
  rfl

@[simp] theorem delaysOf_txPlanes (s : State) : delaysOf (txPlanesActions s) = 2 := rfl

/-- The actions of an instruction wait for the delay of the table of R275. -/
theorem delaysOf_actionsOf {i : Instr} {s : State} {as : List Action} (h : actionsOf i s = some as) :
    delaysOf as = delayOf i s := by
  cases i <;> simp only [actionsOf, Option.some.injEq, reduceCtorEq] at h <;> subst h
  case refresh f =>
    have hcycle : delaysOf (if f then powerDownActions s else []) = 0 := by cases f <;> rfl
    simp [refreshActions, hcycle, Action.delay, delayOf, Nat.add_assoc]
  case quickdraw =>
    have hpower : delaysOf (if s.conf.qdPowerup then powerUpActions s else []) =
        if s.conf.qdPowerup then s.conf.tPon.get s.conf.rev else 0 := by
      rw [apply_ite delaysOf, delaysOf_powerUp, delaysOf_nil]
    simp only [quickdrawActions, delaysOf_append, hpower, delaysOf_txPlanes, delaysOf_cons, delaysOf_nil, Action.delay,
      delayOf]
    omega
  case powerup =>
    rw [delaysOf_append, delaysOf_powerUp]
    rfl
  all_goals rfl

/-- The delays of a state (R264). -/
theorem State.delays (s : State) (r : Rev) :
    100 ≤ s.conf.tPon.get r ∧ s.conf.tPon.get r ≤ 200 ∧ 900 ≤ s.conf.tRefresh.get r ∧ s.conf.tRefresh.get r ≤ 1000 :=
  legal_delays s.cfg r

/-- The commands that are done at once request none. -/
theorem delayOf_at_once {i : Instr} {s : State} (h : actionsOf i s = none) : delayOf i s = 0 := by
  cases i with
  | clear | setpixel | testpat | setmode => rfl
  | _ => cases h

/-- An instruction that has ended has appended events that request the delay of the table. -/
theorem exec_requestedDelay {i : Instr} {s t : State} (h : exec i s = .next t) (hended : t.seqPc = .idle) :
    ∃ new, t.out = s.out ++ new ∧ requestedDelay new = delayOf i s := by
  cases ha : actionsOf i s with
  | none =>
    rw [exec_at_once_frame ha h]
    exact ⟨[], (List.append_nil _).symm, (delayOf_at_once ha).symm⟩
  | some as =>
    rw [exec_of_actions ha] at h
    cases h
    rw [runCommand_ended hended]
    have hwaited := requestedDelay_eventsOf fun es he => (actionsOf_emitted ha he).1
    exact ⟨eventsOf as, rfl, hwaited.trans (delaysOf_actionsOf ha)⟩

end Sys2Proof.Machine
end

section
/-!
The statement about the delays (spec/70_reset_and_hazards.md R275).
-/

namespace Sys2Proof.Machine

/-- Settles O53: a command that has ended has emitted all its `SLEEP`s, and the bounds are those a legal configuration
puts on `T_PON` and `T_REFRESH`. -/
theorem requestedDelaysAreThoseOfTheTable : Obligations.RequestedDelaysAreThoseOfTheTable := by
  refine ⟨fun i s t => exec_requestedDelay, fun f s => ?_⟩
  obtain ⟨hponMin, hponMax, hrefreshMin, hrefreshMax⟩ := s.delays s.conf.rev
  refine ⟨hponMin, hponMax, ?_, ?_⟩ <;> simp only [delayOf] <;> omega

end Sys2Proof.Machine
end

section
/-!
Decoding and encoding are inverse (spec/30_encoding.md R91 to R97, R107): a command word by the row of the table that
selects it, a wire command by the one entry of the list that has its command byte.
-/

namespace Sys2Proof

/-! ## Command words -/

/-- The code of every instruction belongs to its own row of the opcode table. -/
theorem encodesToItsRow : ∀ i : Instr, Laws.EncodesToItsRow.Statement i
  | .clear => Laws.EncodesToItsRow.clear
  | .setpixel x y c => Laws.EncodesToItsRow.setpixel x y c
  | .testpat => Laws.EncodesToItsRow.testpat
  | .setmode m => Laws.EncodesToItsRow.setmode m
  | .refresh f => Laws.EncodesToItsRow.refresh f
  | .quickdraw => Laws.EncodesToItsRow.quickdraw
  | .resethw => Laws.EncodesToItsRow.resethw
  | .powerup => Laws.EncodesToItsRow.powerup
  | .powerdown => Laws.EncodesToItsRow.powerdown
  | .getstatus => Laws.EncodesToItsRow.getstatus
  | .booster => Laws.EncodesToItsRow.booster
  | .powerset => Laws.EncodesToItsRow.powerset
  | .poweron => Laws.EncodesToItsRow.poweron
  | .panelset => Laws.EncodesToItsRow.panelset
  | .pllctl => Laws.EncodesToItsRow.pllctl
  | .resolution => Laws.EncodesToItsRow.resolution
  | .vcomdc u => Laws.EncodesToItsRow.vcomdc u
  | .interval u => Laws.EncodesToItsRow.interval u
  | .lutVcom => Laws.EncodesToItsRow.lutVcom
  | .lutW2w => Laws.EncodesToItsRow.lutW2w
  | .lutB2w => Laws.EncodesToItsRow.lutB2w
  | .lutW2b => Laws.EncodesToItsRow.lutW2b
  | .lutB2b => Laws.EncodesToItsRow.lutB2b
  | .plane0data => Laws.EncodesToItsRow.plane0data
  | .plane1data => Laws.EncodesToItsRow.plane1data
  | .refreshtrig => Laws.EncodesToItsRow.refreshtrig
  | .datastop => Laws.EncodesToItsRow.datastop
  | .poweroff => Laws.EncodesToItsRow.poweroff
  | .statusread => Laws.EncodesToItsRow.statusread

/-- A host command's word selects the row of its command. -/
theorem row_of_encode_host {c : Config} {i : Instr} {cw : Word} (h : encode c i = .host cw) :
    ∃ r ∈ hostRows, Laws.hostOpOf i = some r.op ∧ r.selects cw = true := by
  have hrow := encodesToItsRow i c
  rw [h] at hrow
  cases hop : Laws.hostOpOf i with
  | none => rw [hop] at hrow; exact hrow.elim
  | some op =>
    rw [hop] at hrow
    obtain ⟨r, hr, rfl, hsel⟩ := hrow
    exact ⟨r, hr, rfl, hsel⟩

/-- The operands taken from a host command's word are the operands it was built of (R93 to R96). -/
theorem build_encode {c : Config} {i : Instr} {cw : Word} {op : HostOp} (h : encode c i = .host cw)
    (hop : Laws.hostOpOf i = some op) : op.build cw = i := by
  cases i with
  | setpixel x y col => cases h; cases hop; simp [HostOp.build]
  | setmode m => cases h; cases hop; simp [HostOp.build]
  | refresh f => cases h; cases hop; simp [HostOp.build]
  | clear | testpat | quickdraw | resethw | powerup | powerdown | getstatus => cases hop; rfl
  | _ => cases h

/-- A host command's word decodes to it. -/
theorem decodeHost_of_encode {c : Config} {i : Instr} {cw : Word} (h : encode c i = .host cw) :
    decodeHost cw = .ok i := by
  obtain ⟨r, hr, hop, hsel⟩ := row_of_encode_host h
  rw [decodeHost_of_selects hr hsel, build_encode h hop]

/-- A word that decodes selects a row, and decodes to the row's command. -/
theorem row_of_decodeHost {cw : Word} {i : Instr} (h : decodeHost cw = .ok i) :
    ∃ r ∈ hostRows, r.selects cw = true ∧ r.op.build cw = i := by
  by_cases hsel : ∃ r ∈ hostRows, r.selects cw = true
  · obtain ⟨r, hr, hsel⟩ := hsel
    rw [decodeHost_of_selects hr hsel] at h
    exact ⟨r, hr, hsel, Except.ok.inj h⟩
  · push Not at hsel
    obtain ⟨e, he⟩ := (decodeHost_error_iff cw).2 hsel
    rw [he] at h
    cases h

/-- The number a command word is (R91). -/
theorem hostWord_toNat (opc : BitVec 4) (c : BitVec 2) (y : BitVec 16) (x : BitVec 8) : (hostWord opc c y x).toNat =
    opc.toNat * 2 ^ 28 + c.toNat * 2 ^ 24 + y.toNat * 2 ^ 8 + x.toNat := by
  simp only [hostWord, toNat_append_add, BitVec.toNat_ofNat]
  omega

theorem flagByte_toNat (f : Bool) : (flagByte f).toNat = f.toNat := by cases f <;> rfl

theorem flag_ofFlag (f : Bool) : (ScreenMode.ofFlag f).flag = f := by cases f <;> rfl

theorem flagField_toNat (cw : Word) : (flagField cw).toNat = cw.toNat % 2 := by
  rw [flagField_eq]
  rcases Nat.mod_two_eq_zero_or_one cw.toNat with h | h <;> rw [h] <;> rfl

/-- The word whose only operand is a flag. -/
theorem hostWord_flagField {cw : Word} {opc : BitVec 4} (h : cw.toNat / 2 = opc.toNat * 2 ^ 27) :
    hostWord opc 0#2 0#16 (flagByte (flagField cw)) = cw := by
  apply BitVec.eq_of_toNat_eq
  rw [hostWord_toNat, flagByte_toNat, flagField_toNat, BitVec.toNat_ofNat, BitVec.toNat_ofNat]
  omega

/-- The word of SETPIXEL is its fields. -/
theorem hostWord_fields {cw : Word} (h : cw.toNat / 2 ^ 26 = 8) :
    hostWord 0x2#4 (colorField cw) (yField cw) (xField cw) = cw := by
  apply BitVec.eq_of_toNat_eq
  rw [hostWord_toNat, colorField_toNat, yField_toNat, xField_toNat, BitVec.toNat_ofNat]
  omega

/-- The command of a row, built of a word that selects the row, is encoded as that word. -/
theorem encode_build {r : HostRow} (hr : r ∈ hostRows) {cw : Word} (hsel : r.selects cw = true) (c : Config) :
    encode c (r.op.build cw) = .host cw := by
  have hdiv := (selects_iff_div hr cw).1 hsel
  have hword : r.op.operandBits = 0 → cw = r.pattern := by
    intro hbits
    rw [hbits, pow_zero, Nat.div_one, Nat.div_one] at hdiv
    exact BitVec.eq_of_toNat_eq hdiv
  simp only [hostRows, List.mem_cons, List.not_mem_nil, or_false] at hr
  rcases hr with rfl | rfl | rfl | rfl | rfl | rfl | rfl | rfl | rfl | rfl
  case inr.inl => exact congrArg Code.host (hostWord_fields hdiv)
  case inr.inr.inr.inl =>
    refine congrArg Code.host ?_
    rw [flag_ofFlag]
    exact hostWord_flagField hdiv
  case inr.inr.inr.inr.inl => exact congrArg Code.host (hostWord_flagField hdiv)
  all_goals
    rw [hword rfl]
    rfl

/-! ## Wire commands -/

/-- The list of wire commands has the nineteen command bytes in the same order (R107). -/
theorem commandBytes_wireInstrs (c : Config) : wireInstrs.map (Instr.commandByte c) = c.ops.toList.map some := rfl

/-- The use an instruction asks for: only VCOMDC and INTERVAL can ask for the default values (R156, R157). -/
def Instr.use : Instr → RegUse
  | .vcomdc u => u
  | .interval u => u
  | _ => .settings

/-- A wire command's code is its command byte with its use (log entry 10). -/
theorem encode_of_commandByte {c : Config} {i : Instr} {b : Byte} (h : i.commandByte c = some b) :
    encode c i = .wire ⟨b, i.use⟩ := by
  cases i <;> cases h <;> rfl

/-- Asking for a use keeps the command byte. -/
theorem withUse_ok {c : Config} {i i₀ : Instr} {u : RegUse} (hmem : i₀ ∈ wireInstrs) (h : withUse i₀ u = .ok i) :
    i.commandByte c = i₀.commandByte c ∧ i.use = u := by
  have hsettings : ∀ j ∈ wireInstrs, j.use = .settings := by decide
  cases u with
  | settings =>
    cases h
    exact ⟨rfl, hsettings _ hmem⟩
  | defaults =>
    simp only [withUse] at h
    split at h
    · rename_i hi₀; cases h; rw [hi₀]; exact ⟨rfl, rfl⟩
    · split at h
      · rename_i hi₀; cases h; rw [hi₀]; exact ⟨rfl, rfl⟩
      · cases h

/-- The wire codes: the command byte of one of the nineteen, with a use that the command has (R107, log entry 10). -/
theorem encode_eq_wire_iff (c : Config) (i : Instr) (w : WireWord) : encode c i = .wire w ↔
    ∃ i₀ ∈ wireInstrs, i₀.commandByte c = some w.op ∧ withUse i₀ w.use = .ok i := by
  constructor
  · intro h
    cases i with
    | vcomdc u => cases h; cases u <;> exact ⟨.vcomdc .settings, by decide, rfl, rfl⟩
    | interval u => cases h; cases u <;> exact ⟨.interval .settings, by decide, rfl, rfl⟩
    | _ => cases h <;> exact ⟨_, by decide, rfl, rfl⟩
  · rintro ⟨i₀, hmem, hbyte, huse⟩
    obtain ⟨hsame, hu⟩ := withUse_ok (c := c) hmem huse
    rw [encode_of_commandByte (hsame.trans hbyte), hu]

/-- An element that is the only one of a list to have a property is the one found. -/
theorem find?_eq_some_of_countP_eq_one {α : Type} {p : α → Bool} {l : List α} {a : α} (hcount : l.countP p = 1)
    (ha : a ∈ l) (hp : p a = true) : l.find? p = some a := by
  obtain ⟨b, hb⟩ := List.length_eq_one_iff.1 (List.countP_eq_length_filter.symm.trans hcount)
  have hab : a ∈ l.filter p := List.mem_filter.2 ⟨ha, hp⟩
  rw [hb, List.mem_singleton] at hab
  rw [← List.head?_filter, hb, hab, List.head?_cons]

/-- A command byte that stands once among the nineteen is that of one wire command. -/
theorem countP_wireInstrs (c : Config) (b : Byte) :
    wireInstrs.countP (fun i => i.commandByte c == some b) = c.ops.toList.count b := by
  rw [← List.count_map_of_injective _ _ (Option.some_injective _), ← commandBytes_wireInstrs, List.count,
    List.countP_map]
  rfl

/-- A wire command decodes to the one entry of the list with its command byte. -/
theorem decodeWire_of_encode {c : Config} {i : Instr} {w : WireWord} (h : encode c i = .wire w)
    (hwf : i.wellFormed c = true) : decodeWire c w = .ok i := by
  obtain ⟨i₀, hmem, hbyte, huse⟩ := (encode_eq_wire_iff c i w).1 h
  have hcount : c.ops.toList.count w.op = 1 := by
    rw [Instr.wellFormed, (withUse_ok hmem huse).1, hbyte] at hwf
    exact of_decide_eq_true hwf
  have hfind := find?_eq_some_of_countP_eq_one ((countP_wireInstrs c w.op).trans hcount) hmem (beq_iff_eq.2 hbyte)
  rw [decodeWire, hfind]
  exact huse

/-- What a wire code decodes to has that code. -/
theorem encode_of_decodeWire {c : Config} {i : Instr} {w : WireWord} (h : decodeWire c w = .ok i) :
    encode c i = .wire w := by
  rw [decodeWire] at h
  split at h
  · rename_i i₀ hfind
    have hbyte := List.find?_some hfind
    exact (encode_eq_wire_iff c i w).2 ⟨i₀, List.mem_of_find?_eq_some hfind, beq_iff_eq.1 hbyte, h⟩
  · cases h

end Sys2Proof
end

section
/-!
The statements about encoding and decoding (spec/30_encoding.md).
-/

namespace Sys2Proof

/-- Settles O4: a host command's word selects the row it was built for; a wire command's byte stands once in the
list. -/
theorem decodeOfEncodeIsTheInstruction : Obligations.DecodeOfEncodeIsTheInstruction := by
  intro c i hwf
  cases h : encode c i with
  | host cw => exact decodeHost_of_encode h
  | wire w => exact decodeWire_of_encode h hwf

/-- Settles O5: the word is the one built of the fields decoded from it; the wire code holds the byte that was
found. -/
theorem encodeOfDecodedCodeIsTheCode : Obligations.EncodeOfDecodedCodeIsTheCode := by
  intro c code i h
  cases code with
  | host cw =>
    obtain ⟨r, hr, hsel, rfl⟩ := row_of_decodeHost h
    exact encode_build hr hsel c
  | wire w => exact encode_of_decodeWire h

/-- Settles O1: each word selects its row, and the operands are read off its fields. -/
theorem hostWordsDecodeAsWritten : Obligations.HostWordsDecodeAsWritten := by
  unfold Obligations.HostWordsDecodeAsWritten
  decide

end Sys2Proof
end

section
/-!
What an instruction has used of the environment (spec/10_state.md R37, spec/70_reset_and_hazards.md R270): the waits in
the events it has emitted are the answers it has used up, but for the one it is waiting for.
-/

namespace Sys2Proof.Machine

/-- The environment has answered exactly the waits of a list of events. -/
structure Answered (e e' : Env) (es : List Event) : Prop where
  completes : e.completes (sleepsIn es) = true
  answers : e.answers (receivedIn es) = true
  env : e' = e.after (sleepsIn es) (receivedIn es)

/-! ## The status read -/

/-- The actions of an instruction that wait for a status byte begin with the status read; what follows it neither emits
nor waits. -/
theorem actionsOf_statusread_or {i : Instr} {s : State} {as : List Action} (h : actionsOf i s = some as) :
    (repliesOf as = 0 ∧ i ≠ .getstatus ∧ i ≠ .statusread) ∨
    ∃ writes, as = statusreadActions s.env.nextReply s ++ writes ∧
      eventsOf writes = [] ∧ sleepsOf writes = 0 ∧ repliesOf writes = 0 := by
  cases i <;> simp only [actionsOf, Option.some.injEq, reduceCtorEq] at h <;> subst h
  case getstatus => exact .inr ⟨[.latchStatus s.env.nextReply, .resultOk], rfl, rfl, rfl, rfl⟩
  case statusread => exact .inr ⟨[], rfl, rfl, rfl, rfl⟩
  case refresh f => exact .inl ⟨repliesOf_refresh f s, nofun, nofun⟩
  case quickdraw => exact .inl ⟨repliesOf_quickdraw s, nofun, nofun⟩
  case powerup => exact .inl ⟨by rw [repliesOf_append, repliesOf_powerUp]; rfl, nofun, nofun⟩
  all_goals exact .inl ⟨rfl, nofun, nofun⟩

theorem Env.answers_one_or_silent (e : Env) : e.answers 1 = true ∨ e.replies = some 0 := by
  obtain ⟨sl, rp, dr⟩ := e
  rcases rp with _ | _ | n
  · exact .inl rfl
  · exact .inr rfl
  · exact .inl (decide_eq_true (Nat.le_add_left 1 n))

/-- A status read that gets no byte stands at its second event (R104, R270). -/
theorem runCommand_statusread_silent (cmd : Instr) (v : Byte) {s : State} (writes : List Action)
    (h : s.env.replies = some 0) : runCommand cmd (statusreadActions v s ++ writes) s =
      { s with out := s.out ++ [.ts, .c s.conf.ops.statusread], seqPc := .running cmd 2 } := by
  have hwait := takeReply_eq_none.2 h
  simp [runCommand, statusreadActions, runActions, Action.perform, statusreadRequest, State.emit, SeqPc.advance, hwait]

/-- RESETHW without a completed `SLEEP` stands at its first (R180, R270). -/
theorem runCommand_resethw_silent {s : State} (h : s.env.sleeps = some 0) : runCommand .resethw resethwActions s =
    { s with out := s.out ++ [.rst true, .sleep 10], seqPc := .running .resethw 2 } := by
  have hwait := takeSleep_eq_none.2 h
  simp [runCommand, resethwActions, runActions, Action.perform, State.emit, SeqPc.advance, tRst, hwait]

/-! ## Any instruction -/

/-- Actions whose waits are all answered and whose own events hold no wait. -/
theorem answered_eventsOf {as : List Action} {e : Env} (hreplies : repliesOf as = 0)
    (hemit : ∀ es, .emit es ∈ as → sleepsIn es = 0 ∧ receivedIn es = 0) (hs : e.completes (sleepsOf as) = true) :
    Answered e (e.after (sleepsOf as) (repliesOf as)) (eventsOf as) := by
  have hsleeps : sleepsIn (eventsOf as) = sleepsOf as := sleepsIn_eventsOf fun es he => (hemit es he).1
  have hreceived : receivedIn (eventsOf as) = 0 := receivedIn_eventsOf fun es he => (hemit es he).2
  exact ⟨hsleeps ▸ hs, hreceived ▸ Env.answers_zero e, by rw [hsleeps, hreceived, hreplies]⟩

/-- The state `t` an instruction leaves, having emitted `new`: it has ended with every wait of `new` answered, or it
stands, at the position of its last event, at one wait the environment does not answer. -/
def WaitsOf (i : Instr) (s t : State) (new : List Event) : Prop :=
  (t.seqPc = .idle ∧ Answered s.env t.env new) ∨
  (t.seqPc = .running i new.length ∧ ∃ passed, Answered s.env t.env passed ∧
    ((t.env.sleeps = some 0 ∧ ∃ ms, new = passed ++ [.sleep ms]) ∨
     (t.env.replies = some 0 ∧ new = passed ++ [.ts, .c s.conf.ops.statusread])))

/-- A command without a status read. -/
theorem runCommand_waits_of_no_read {i : Instr} {s : State} {as : List Action} (hreplies : repliesOf as = 0)
    (hemit : ∀ es, .emit es ∈ as → sleepsIn es = 0 ∧ receivedIn es = 0) :
    ∃ new, (runCommand i as s).out = s.out ++ new ∧ WaitsOf i s (runCommand i as s) new := by
  rcases runCommand_cases i as s with ⟨h, hs, -⟩ | ⟨before, a, after, rfl, h, ⟨hs, -⟩, hwait⟩ <;> rw [h]
  · exact ⟨eventsOf as, rfl, .inl ⟨rfl, answered_eventsOf hreplies hemit hs⟩⟩
  · simp only [repliesOf_append, repliesOf_cons, Nat.add_eq_zero_iff] at hreplies
    obtain ⟨hbefore, ha, -⟩ := hreplies
    have hpassed := answered_eventsOf hbefore (fun es he => hemit es (List.mem_append_left _ he)) hs
    rcases hwait with ⟨⟨ms, rfl⟩, hz⟩ | ⟨rfl, -⟩
    · exact ⟨_, rfl, .inr ⟨rfl, eventsOf before, hpassed, .inl ⟨hz, ms, rfl⟩⟩⟩
    · cases ha

/-- A command that is a status read. -/
theorem runCommand_waits_of_read {i : Instr} {s : State} {writes : List Action} (hevents : eventsOf writes = [])
    (hsleeps : sleepsOf writes = 0) (hreplies : repliesOf writes = 0) :
    ∃ new, (runCommand i (statusreadActions s.env.nextReply s ++ writes) s).out = s.out ++ new ∧
      WaitsOf i s (runCommand i (statusreadActions s.env.nextReply s ++ writes) s) new := by
  have hs : sleepsOf (statusreadActions s.env.nextReply s ++ writes) = 0 := by rw [sleepsOf_append, hsleeps]; rfl
  have hr : repliesOf (statusreadActions s.env.nextReply s ++ writes) = 1 := by rw [repliesOf_append, hreplies]; rfl
  rcases s.env.answers_one_or_silent with h | h
  · rw [runCommand_completes _ _ _ (hs ▸ Env.completes_zero _) (hr ▸ h), eventsOf_append, hevents, hs, hr]
    exact ⟨_, rfl, .inl ⟨rfl, Env.completes_zero _, h, rfl⟩⟩
  · rw [runCommand_statusread_silent i _ _ h]
    exact ⟨_, rfl, .inr ⟨rfl, [], ⟨Env.completes_zero _, Env.answers_zero _, (Env.after_zero _).symm⟩, .inr ⟨h, rfl⟩⟩⟩

/-- No instruction passes a wait that is not answered, and it waits for nothing else (R270). -/
theorem exec_waits {i : Instr} {s t : State} (h : exec i s = .next t) :
    ∃ new, t.out = s.out ++ new ∧ WaitsOf i s t new := by
  cases ha : actionsOf i s with
  | none =>
    rw [exec_at_once_frame ha h]
    exact ⟨[], (List.append_nil _).symm,
      .inl ⟨rfl, Env.completes_zero _, Env.answers_zero _, (Env.after_zero _).symm⟩⟩
  | some as =>
    rw [exec_of_actions ha] at h
    cases h
    rcases actionsOf_statusread_or ha with ⟨hreplies, hget, hread⟩ | ⟨writes, rfl, hevents, hsleeps, hreplies⟩
    · refine runCommand_waits_of_no_read hreplies fun es he => ?_
      obtain ⟨hsleeps, hreceived⟩ := actionsOf_emitted ha he
      exact ⟨hsleeps, hreceived.resolve_right fun hi => hi.1.elim hget hread⟩
    · exact runCommand_waits_of_read hevents hsleeps hreplies

/-- An instruction whose waits are all answered ends (R190). -/
theorem exec_ends (i : Instr) {s : State} (hs : s.env.completes 3 = true) (hr : s.env.answers 1 = true) :
    ∃ t, exec i s = .next t ∧ t.seqPc = .idle := by
  cases ha : actionsOf i s with
  | none =>
    obtain ⟨t, h⟩ := exec_answers i s
    exact ⟨t, h, congrArg State.seqPc (exec_at_once_frame ha h)⟩
  | some as =>
    obtain ⟨hsleeps, hreplies⟩ := actionsOf_waits ha
    exact ⟨_, exec_completes ha (Env.completes_mono hsleeps hs) (Env.answers_mono hreplies hr), rfl⟩

end Sys2Proof.Machine
end

section
/-!
The statements about waiting on the environment (spec/42_driver_ops.md R190, spec/70_reset_and_hazards.md R270).
-/

namespace Sys2Proof.Machine

/-- Settles O46: an environment that answers no more has given exactly the answers that were used up; the two silent
environments are run. -/
theorem unansweredWaitsAreNotPassed : Obligations.UnansweredWaitsAreNotPassed := by
  refine ⟨fun i s t h => ?_, fun s t hpc h => ?_, fun s => ⟨fun hz => ?_, fun hz => ?_⟩⟩
  · obtain ⟨new, hout, ⟨hidle, ha⟩ | ⟨hrun, passed, ha, hwait⟩⟩ := exec_waits h
    · exact ⟨new, hout, fun _ => ⟨ha.completes, ha.answers, ha.env⟩, fun hne => absurd hidle hne⟩
    · refine ⟨new, hout, fun hidle => ?_, fun _ => ?_⟩
      · rw [hrun] at hidle
        cases hidle
      · rcases hwait with ⟨hz, ms, hnew⟩ | ⟨hz, hnew⟩ <;> rw [ha.env] at hz
        · exact .inl ⟨passed, ms, hnew, Env.sleeps_of_after ha.completes hz, ha.answers, ha.env⟩
        · exact .inr ⟨passed, hnew, Env.replies_of_after ha.answers hz, ha.completes, ha.env⟩
  · rcases step_cases h with rfl | ⟨hidle, -⟩ | ⟨hidle, -⟩ | ⟨hidle, -⟩ | ⟨hidle, -⟩
    · rfl
    all_goals exact absurd hidle hpc
  · exact congrArg Host.Outcome.next (runCommand_resethw_silent hz)
  · exact congrArg Host.Outcome.next (runCommand_statusread_silent .getstatus _ _ hz)

/-- Settles O47: the last event of an instruction that is still running is the wait it stands at. -/
theorem instructionsWaitOnlyOnTheEnvironment : Obligations.InstructionsWaitOnlyOnTheEnvironment := by
  intro i cmd k s t h hrun
  obtain ⟨new, hout, ⟨hidle, -⟩ | ⟨hpc, passed, -, hwait⟩⟩ := exec_waits h
  · rw [hidle] at hrun
    cases hrun
  · rw [hpc] at hrun
    cases hrun
    refine ⟨rfl, new, hout, rfl, ?_⟩
    rcases hwait with ⟨hz, ms, rfl⟩ | ⟨hz, rfl⟩
    · exact .inl ⟨hz, ms, by simp⟩
    · exact .inr ⟨hz, by simp⟩

/-- Settles O48: no instruction waits for more than three `SLEEP`s and one status byte. -/
theorem everyInstructionEndsWhenTheEnvironmentAnswers : Obligations.EveryInstructionEndsWhenTheEnvironmentAnswers :=
  fun i _ hs hr => exec_ends i hs hr

end Sys2Proof.Machine
end

section
/-!
The invariant of the block: each of its parts over the state writes of a list of actions, over the commands that are
done at once, and at reset.
-/

namespace Sys2Proof.Machine

/-! ## The planes (R22, R61) -/

/-- The invariant of the planes speaks of the configuration and the planes. -/
theorem planesOk_congr {s t : State} (h : planesOk s) (hcfg : t.cfg = s.cfg) (h0 : t.p0 = s.p0) (h1 : t.p1 = s.p1) :
    planesOk t := by
  simp only [planesOk, State.planeBytes, State.conf, hcfg, h0, h1]
  exact h

theorem planesOk_of_empty {s : State} (h0 : s.p0 = []) (h1 : s.p1 = []) : planesOk s := by
  rw [planesOk, h0, h1]
  exact ⟨rfl, rfl, rfl, rfl⟩

/-- A pixel of the panel lies in the planes. -/
theorem planesOk_writePixel {s : State} (h : planesOk s) {x y : Nat} (hx : x < s.conf.width) (hy : y < s.conf.height)
    (c : BitVec 2) : planesOk (s.writePixel x y c) := by
  obtain ⟨wf0, wf1, within0, within1⟩ := h
  have hbyte : byteIndex (pixelOffset s.conf.width x y) < s.conf.planeBytes := byteIndex_lt (pixelOffset_lt hx hy)
  exact ⟨Memory.wf_setBits wf0 _ _ _, Memory.wf_setBits wf1 _ _ _, Memory.within_setBits within0 hbyte _ _,
    Memory.within_setBits within1 hbyte _ _⟩

/-- So does every byte of the pattern (R134). -/
theorem planesOk_writePattern {s : State} (h : planesOk s) {l : List PatternByte}
    (hl : ∀ e ∈ l, e.index < s.planeBytes) : planesOk (writePattern l s) := by
  induction l generalizing s with
  | nil => exact h
  | cons e l ih =>
    obtain ⟨he, hl⟩ := List.forall_mem_cons.1 hl
    have hbytes : (s.writePlane e.plane e.index e.value.toByte).planeBytes = s.planeBytes := by
      rw [State.planeBytes, State.conf, writePlane_cfg]
      rfl
    refine ih (s := s.writePlane e.plane e.index e.value.toByte) ?_ (hbytes ▸ hl)
    rw [planesOk, hbytes]
    exact writePlane_planes e.plane he _ h

/-! ## The dirty rectangle (R26 to R28, R132) -/

theorem dirtyOk_congr {s t : State} (h : dirtyOk s) (hcfg : t.cfg = s.cfg) (hd : t.dirty = s.dirty) : dirtyOk t := by
  simp only [dirtyOk, State.conf, hcfg, hd]
  exact h

theorem dirtyOk_of_full {s : State} (h : s.dirty = Dirty.full s.conf.width s.conf.height) : dirtyOk s := by
  obtain ⟨hw, -, hh, -⟩ := s.geometry
  obtain ⟨minX, maxX, minY, maxY⟩ := full_corners s
  right
  rw [h]
  omega

theorem dirtyOk_of_afterClear {s : State} (h : s.dirty = Dirty.afterClear s.conf) : dirtyOk s := by
  rw [Dirty.afterClear] at h
  split at h
  · exact dirtyOk_of_full h
  · exact .inl h

/-- Touching a pixel of the panel gives a rectangle that covers its cell and stays inside `FULL`. -/
theorem dirtyOk_of_touch {s t : State} (h : dirtyOk s) {x : BitVec 8} {y : Nat} (hx : x.toNat < s.conf.width)
    (hy : y < s.conf.height) (hcfg : t.cfg = s.cfg) (hd : t.dirty = s.dirty.touch x.toNat y) : dirtyOk t := by
  obtain ⟨minX, maxX, minY, maxY⟩ := touch_toNat s.dirty x (row_lt hy)
  have hconf : t.conf = s.conf := congrArg LegalConfig.raw hcfg
  right
  rw [hconf, hd, minX, maxX, minY, maxY]
  rcases h with hempty | hbox
  · rw [hempty]
    simp only [Dirty.empty, BitVec.toNat_ofNat]
    omega
  · omega

/-! ## A list of actions -/

/-- What a command has written: the writes of the actions it has done. -/
theorem runCommand_writes (cmd : Instr) (as : List Action) (s : State) :
    ∃ done, done <+: as ∧ ∃ o pc e, runCommand cmd as s = settled (writesOf done s) o pc e := by
  rcases runCommand_cases cmd as s with ⟨h, -⟩ | ⟨before, a, after, rfl, h, -⟩
  · exact ⟨as, List.prefix_rfl, _, _, _, h⟩
  · exact ⟨before, List.prefix_append _ _, _, _, _, h⟩

/-- The sequencer only ever empties the dirty rectangle (R213). -/
theorem writesOf_dirty (as : List Action) (s : State) :
    (writesOf as s).dirty = s.dirty ∨ (writesOf as s).dirty = Dirty.empty := by
  induction as generalizing s with
  | nil => exact .inl rfl
  | cons a rest ih =>
    cases a with
    | dirtyEmpty => exact .inr ((ih _).elim id id)
    | _ => exact ih _

/-- No write enters DeepSleep (R32). -/
theorem writesOf_ne_deepSleep (as : List Action) {s : State} (h : s.pstate ≠ .deepSleep) :
    (writesOf as s).pstate ≠ .deepSleep := by
  induction as generalizing s with
  | nil => exact h
  | cons a rest ih =>
    apply ih
    cases a with
    | poweredUp | hardwareReset => exact PState.noConfusion
    | poweredDown =>
      show s.pstate.afterPowerDown ≠ .deepSleep
      rw [afterPowerDown_eq]
      split
      · exact PState.noConfusion
      · exact h
    | _ => exact h

/-! ## The stream (R101) -/

theorem scanFrom_txPlanesEvents (s : State) : scanFrom .outside (txPlanesEvents s) = some .outside :=
  scanFrom_outside_append (scanFrom_outside_append (scanFrom_transaction _ _) rfl) (scanFrom_transaction _ _)

theorem scanFrom_powerDownEvents (s : State) : scanFrom .outside (powerDownEvents s) = some .outside :=
  scanFrom_outside_append (scanFrom_outside_append (scanFrom_transaction _ _) (scanFrom_transaction _ _))
    (scanFrom_transaction _ _)

theorem scanFrom_refreshEvents (f : Bool) (s : State) : scanFrom .outside (refreshEvents f s) = some .outside := by
  have hplanes := scanFrom_outside_append (scanFrom_powerUpEvents s) (scanFrom_txPlanesEvents s)
  have htrigger := scanFrom_outside_append hplanes (scanFrom_transaction s.conf.ops.refreshtrig [])
  exact scanFrom_outside_append (scanFrom_outside_append htrigger rfl)
    (scanFrom_outside_ite (scanFrom_powerDownEvents s))

theorem scanFrom_quickdrawEvents (s : State) : scanFrom .outside (quickdrawEvents s) = some .outside := by
  have hpower := scanFrom_outside_ite (c := s.conf.qdPowerup = true) (scanFrom_powerUpEvents s)
  have hplanes := scanFrom_outside_append hpower (scanFrom_txPlanesEvents s)
  exact scanFrom_outside_append (scanFrom_outside_append hplanes (scanFrom_transaction s.conf.ops.datastop [])) rfl

/-- What an instruction sends is whole transactions, with levels and delays between them. -/
theorem scanFrom_actionsOf {i : Instr} {s : State} {as : List Action} (h : actionsOf i s = some as) :
    scanFrom .outside (eventsOf as) = some .outside := by
  cases i <;> simp only [actionsOf, Option.some.injEq, reduceCtorEq] at h <;> subst h
  case refresh f => rw [eventsOf_refresh]; exact scanFrom_refreshEvents f s
  case quickdraw => rw [eventsOf_quickdraw]; exact scanFrom_quickdrawEvents s
  case powerup =>
    rw [eventsOf_append, eventsOf_powerUp]
    exact scanFrom_outside_append (scanFrom_powerUpEvents s) rfl
  case powerdown =>
    rw [eventsOf_append, eventsOf_powerDown]
    exact scanFrom_outside_append (scanFrom_powerDownEvents s) rfl
  case resethw | getstatus | statusread => rfl
  all_goals
    rw [eventsOf_cons, eventsOf_nil, List.append_nil]
  case pllctl | lutVcom | lutW2w | lutB2w | lutW2b | lutB2b => exact scanFrom_outside_ite (scanFrom_transaction _ _)
  all_goals exact scanFrom_transaction _ _

theorem streamOk_of_idle {s : State} (hpc : s.seqPc = .idle) (h : scanFrom .outside s.out = some .outside) :
    streamOk s := by
  rw [streamOk, hpc]
  exact h

theorem scanFrom_of_streamOk {s : State} (h : streamOk s) (hpc : s.seqPc = .idle) :
    scanFrom .outside s.out = some .outside := by
  rw [streamOk, hpc] at h
  exact h

/-- Whole transactions after whole transactions, or a part of them while the command waits. -/
theorem streamOk_runCommand {s : State} (hs : scanFrom .outside s.out = some .outside) {as : List Action}
    (has : scanFrom .outside (eventsOf as) = some .outside) (cmd : Instr) : streamOk (runCommand cmd as s) := by
  have hall := scanFrom_outside_append hs has
  cases hpc : (runCommand cmd as s).seqPc with
  | idle =>
    refine streamOk_of_idle hpc ?_
    rw [runCommand_ended hpc]
    exact hall
  | running c k =>
    obtain ⟨new, hnew, hout⟩ := runCommand_out cmd as s
    rw [streamOk, hpc, hout]
    exact scanFrom_isSome_of_prefix ((List.prefix_append_right_inj _).2 hnew) (hall ▸ rfl)

/-! ## The waits (R270) -/

theorem waitsOnEnvironment_of_exec {i : Instr} {s t : State} (h : exec i s = .next t) : waitsOnEnvironment t := by
  obtain ⟨new, -, ⟨hpc, -⟩ | ⟨hpc, passed, -, hwait⟩⟩ := exec_waits h <;> rw [waitsOnEnvironment, hpc]
  · trivial
  · exact hwait.imp And.left And.left

/-! ## An instruction keeps the invariant -/

/-- The commands that are done at once keep the planes (R130, R131, R134). -/
theorem planesOk_of_at_once {i : Instr} {s t : State} (hs : planesOk s) (ha : actionsOf i s = none)
    (h : exec i s = .next t) : planesOk t := by
  cases i with
  | clear => cases h; exact planesOk_of_empty rfl rfl
  | setmode m => cases h; exact hs
  | testpat => cases h; exact planesOk_writePattern hs fun e => legal_pattern s.cfg
  | setpixel x y c =>
    rcases exec_setpixel_cases h with ⟨hin, rfl⟩ | ⟨-, rfl⟩
    · obtain ⟨hx, hy⟩ := (inPanel_iff _ _ _).1 hin
      exact planesOk_writePixel hs hx hy c
    · exact hs
  | _ => cases ha

/-- And the dirty rectangle (R130, R132, R134). -/
theorem dirtyOk_of_at_once {i : Instr} {s t : State} (hs : dirtyOk s) (ha : actionsOf i s = none)
    (h : exec i s = .next t) : dirtyOk t := by
  cases i with
  | clear => cases h; exact dirtyOk_of_afterClear rfl
  | setmode m => cases h; exact hs
  | testpat =>
    have hcfg := (exec_keeps h).1
    cases h
    exact dirtyOk_of_full (congrArg (fun c : LegalConfig => Dirty.full c.raw.width c.raw.height) hcfg.symm)
  | setpixel x y c =>
    rcases exec_setpixel_cases h with ⟨hin, rfl⟩ | ⟨-, rfl⟩
    · obtain ⟨hx, hy⟩ := (inPanel_iff _ _ _).1 hin
      exact dirtyOk_of_touch hs hx hy rfl rfl
    · exact hs
  | _ => cases ha

/-- Every instruction an Idle block runs keeps the invariant. -/
theorem inv_of_exec {i : Instr} {s t : State} (hs : Inv s) (hpc : s.seqPc = .idle) (h : exec i s = .next t) :
    Inv t := by
  have hscan := scanFrom_of_streamOk hs.stream hpc
  have hwaits := waitsOnEnvironment_of_exec h
  cases ha : actionsOf i s with
  | none =>
    have hplanes := planesOk_of_at_once hs.planes ha h
    have hdirty := dirtyOk_of_at_once hs.dirty ha h
    have hframe := exec_at_once_frame ha h
    refine ⟨hplanes, hdirty, ?_, hwaits, ?_⟩ <;> rw [hframe]
    · exact hscan
    · exact hs.noDeepSleep
  | some as =>
    rw [exec_of_actions ha] at h
    cases h
    have hsame := runCommand_sameBlock i as s
    obtain ⟨done, -, o, pc, e, hrun⟩ := runCommand_writes i as s
    refine ⟨planesOk_congr hs.planes hsame.cfg hsame.p0 hsame.p1, ?_,
      streamOk_runCommand hscan (scanFrom_actionsOf ha) i, hwaits, ?_⟩
    · rcases writesOf_dirty done s with hd | hd
      · exact dirtyOk_congr hs.dirty hsame.cfg (hrun ▸ hd)
      · exact .inl (hrun ▸ hd)
    · rw [hrun]
      exact writesOf_ne_deepSleep done hs.noDeepSleep

/-! ## Reset -/

/-- The reset values meet the invariant, whatever the model's own fields hold (R45). -/
theorem inv_of_reset_values {s : State} (h0 : s.p0 = []) (h1 : s.p1 = []) (hd : s.dirty = Dirty.afterClear s.conf)
    (hp : s.pstate = .uninitialized) (hpc : s.seqPc = .idle) (hout : s.out = []) : Inv s where
  planes := planesOk_of_empty h0 h1
  dirty := dirtyOk_of_afterClear hd
  stream := streamOk_of_idle hpc (hout ▸ rfl)
  waits := by rw [waitsOnEnvironment, hpc]; trivial
  noDeepSleep := hp ▸ PState.noConfusion

theorem inv_construct (c : LegalConfig) : Inv (State.construct c) := inv_of_reset_values rfl rfl rfl rfl rfl rfl

theorem inv_resetBlock (s : State) : Inv (resetBlock s) := inv_of_reset_values rfl rfl rfl rfl rfl rfl

/-- The invariant says nothing of the host's requests and responses, of a wire command to be run alone, or of
`RESULT`. -/
theorem inv_of_same {s t : State} (hs : Inv s)
    (h : t = { s with requests := t.requests, responses := t.responses, wireFetch := t.wireFetch,
                      result := t.result }) : Inv t := by
  rw [h]
  exact ⟨hs.planes, hs.dirty, hs.stream, hs.waits, hs.noDeepSleep⟩

end Sys2Proof.Machine
end

section
/-!
The statements about the invariant.
-/

namespace Sys2Proof.Machine

/-- Settles O58: one case for each thing a step can do; an instruction is only run in an Idle block, whose stream is
whole transactions. -/
theorem stepKeepsTheInvariant : Obligations.StepKeepsTheInvariant := by
  intro s t hs h
  rcases step_cases h with
    rfl | ⟨hpc, i, u, hexec, hu⟩ | ⟨hpc, rest, rfl⟩ | ⟨hpc, rest, v, rfl⟩ | ⟨-, rest, -, rfl⟩
  · exact hs
  · have hinv : Inv u ∧ u.seqPc = .idle := by
      rcases hu with ⟨rest, rfl⟩ | rfl <;> exact ⟨inv_of_same hs rfl, hpc⟩
    exact inv_of_exec hinv.1 hinv.2 hexec
  · refine inv_of_same hs ?_
    rw [raise_of_idle (s := { s with requests := rest }) _ hpc]
  · exact inv_of_same hs rfl
  · exact inv_resetBlock _

/-- Settles O57: the reset values of every legal configuration, the device's among them. -/
theorem resetMeetsTheInvariant : Obligations.ResetMeetsTheInvariant :=
  ⟨inv_construct, inv_construct LegalConfig.device⟩

end Sys2Proof.Machine
end

section
/-!
Which instruction writes what (spec/10_state.md R46, R47), read off its list of actions: the writes of an action are its
own, and no action reads a record to decide what it emits.
-/

namespace Sys2Proof.Machine

/-! ## The writers of the dirty rectangle and of PANEL_STATUS (R46) -/

/-- `powerUp` emits, waits, and does its one state write (R183). -/
theorem mem_powerUpActions {s : State} {a : Action} (h : a ∈ powerUpActions s) :
    (∃ es, a = .emit es) ∨ (∃ ms, a = .sleep ms) ∨ a = .poweredUp := by
  simp only [powerUpActions, List.mem_append, List.mem_flatMap, List.mem_singleton] at h
  rcases h with ⟨step, -, h⟩ | rfl
  · cases step <;> simp only [puStepActions, lutsActions, List.mem_cons, List.not_mem_nil, or_false] at h
    case ponwait => exact .inr (.inl ⟨_, h⟩)
    case luts => rcases h with rfl | rfl | rfl | rfl | rfl <;> exact .inl ⟨_, rfl⟩
    all_goals exact .inl ⟨_, h⟩
  · exact .inr (.inr rfl)

/-- Neither of the two writes is `powerUp`'s. -/
theorem powerUp_writes_protocol_only {s : State} :
    .dirtyEmpty ∉ powerUpActions s ∧ ∀ v, .latchStatus v ∉ powerUpActions s := by
  constructor
  · intro h
    rcases mem_powerUpActions h with ⟨_, h⟩ | ⟨_, h⟩ | h <;> cases h
  · intro v h
    rcases mem_powerUpActions h with ⟨_, h⟩ | ⟨_, h⟩ | h <;> cases h

/-- Only a transmission command empties the dirty rectangle (R213). -/
theorem transmission_of_dirtyEmpty {i : Instr} {s : State} {as : List Action} (h : actionsOf i s = some as)
    (hmem : .dirtyEmpty ∈ as) : i = .quickdraw ∨ ∃ f, i = .refresh f := by
  cases i <;> simp only [actionsOf, Option.some.injEq, reduceCtorEq] at h <;> subst h
  case refresh f => exact .inr ⟨f, rfl⟩
  case quickdraw => exact .inl rfl
  case powerup => simp [powerUp_writes_protocol_only] at hmem
  case powerdown => simp [powerDownActions] at hmem
  case resethw => simp [resethwActions] at hmem
  case getstatus => simp [getstatusActions, statusreadActions] at hmem
  case statusread => simp [statusreadActions] at hmem
  all_goals simp at hmem

/-- Only GETSTATUS latches a status byte (R36). -/
theorem getstatus_of_latchStatus {i : Instr} {s : State} {as : List Action} (h : actionsOf i s = some as) {v : Byte}
    (hmem : .latchStatus v ∈ as) : i = .getstatus := by
  cases i <;> simp only [actionsOf, Option.some.injEq, reduceCtorEq] at h <;> subst h
  case getstatus => rfl
  case refresh f =>
    cases f <;> simp [refreshActions, txPlanesActions, powerDownActions, powerUp_writes_protocol_only] at hmem
  case quickdraw =>
    simp only [quickdrawActions, List.mem_append] at hmem
    split at hmem <;> simp [txPlanesActions, powerUp_writes_protocol_only] at hmem
  case powerup => simp [powerUp_writes_protocol_only] at hmem
  case powerdown => simp [powerDownActions] at hmem
  case resethw => simp [resethwActions] at hmem
  case statusread => simp [statusreadActions] at hmem
  all_goals simp at hmem

theorem writesOf_dirty_of_not_mem {as : List Action} (h : .dirtyEmpty ∉ as) (s : State) :
    (writesOf as s).dirty = s.dirty := by
  induction as generalizing s with
  | nil => rfl
  | cons a rest ih =>
    rw [List.mem_cons, not_or] at h
    rw [writesOf_cons, ih h.2]
    cases a with
    | dirtyEmpty => exact absurd rfl h.1
    | _ => rfl

theorem writesOf_panelStatus_of_not_mem {as : List Action} (h : ∀ v, .latchStatus v ∉ as) (s : State) :
    (writesOf as s).panelStatus = s.panelStatus := by
  induction as generalizing s with
  | nil => rfl
  | cons a rest ih =>
    simp only [List.mem_cons, not_or] at h
    rw [writesOf_cons, ih fun v => (h v).2]
    cases a with
    | latchStatus v => exact absurd rfl (h v).1
    | _ => rfl

/-- An instruction the sequencer runs writes the dirty rectangle and `PANEL_STATUS` only by the actions for it, ended or
waiting. -/
theorem runCommand_writers {i : Instr} {s : State} {as : List Action} (ha : actionsOf i s = some as) :
    (i ≠ .quickdraw → (∀ f, i ≠ .refresh f) → (runCommand i as s).dirty = s.dirty) ∧
    (i ≠ .getstatus → (runCommand i as s).panelStatus = s.panelStatus) := by
  obtain ⟨done, hdone, o, pc, e, hrun⟩ := runCommand_writes i as s
  rw [hrun]
  constructor
  · intro hq hr
    refine writesOf_dirty_of_not_mem (fun hmem => ?_) s
    rcases transmission_of_dirtyEmpty ha (hdone.subset hmem) with rfl | ⟨f, rfl⟩
    · exact hq rfl
    · exact hr f rfl
  · intro hg
    exact writesOf_panelStatus_of_not_mem (fun v hmem => hg (getstatus_of_latchStatus ha (hdone.subset hmem))) s

/-- SETMODE is the one command done at once that is not a framebuffer command. -/
theorem exec_at_once_cases {i : Instr} {s t : State} (ha : actionsOf i s = none) (h : exec i s = .next t) :
    (∃ m, i = .setmode m ∧ t = { s with screenMode := m }.complete) ∨
    (isFramebufferCommand i = true ∧
      t = { s with p0 := t.p0, p1 := t.p1, dirty := t.dirty, result := t.result, seqPc := .idle }) := by
  rcases exec_at_once ha with ⟨m, rfl⟩ | hfb
  · cases h
    exact .inl ⟨m, rfl, rfl⟩
  · exact .inr ⟨hfb, framebuffer_frame hfb h⟩

/-! ## RESULT (R236, R237) -/

/-- The actions of a host command end with `RESULT <- OK`; a wire command writes no `RESULT` (log entry 9). -/
theorem writesOf_result {i : Instr} {s : State} {as : List Action} (h : actionsOf i s = some as) :
    (writesOf as s).result = if isHostCommand i = true then .ok else s.result := by
  cases i <;> simp only [actionsOf, Option.some.injEq, reduceCtorEq] at h <;> subst h
  case refresh f => rw [writesOf_refresh]; rfl
  case quickdraw => rw [writesOf_quickdraw]; rfl
  case powerup | powerdown => rw [writesOf_append]; rfl
  all_goals rfl

/-- `RESULT` after an instruction that has ended. -/
theorem exec_result {i : Instr} {s t : State} (h : exec i s = .next t) (hended : t.seqPc = .idle) :
    (∃ x y c, i = .setpixel x y c ∧ (s.conf.width ≤ x.toNat ∨ s.conf.height ≤ y.toNat) ∧ t.result = .outOfBounds) ∨
    ((∀ x y c, i = .setpixel x y c → x.toNat < s.conf.width ∧ y.toNat < s.conf.height) ∧
      t.result = if isHostCommand i = true then .ok else s.result) := by
  cases ha : actionsOf i s with
  | none =>
    cases i with
    | setpixel x y c =>
      rcases exec_setpixel_cases h with ⟨hin, rfl⟩ | ⟨hout, rfl⟩
      · refine .inr ⟨fun x' y' c' he => ?_, rfl⟩
        cases he
        exact (inPanel_iff _ _ _).1 hin
      · exact .inl ⟨x, y, c, rfl, (not_inPanel_iff _ _ _).1 hout, rfl⟩
    | clear | testpat | setmode => cases h; exact .inr ⟨nofun, rfl⟩
    | _ => cases ha
  | some as =>
    rw [exec_of_actions ha] at h
    cases h
    refine .inr ⟨?_, ?_⟩
    · rintro x y c rfl
      cases ha
    · rw [runCommand_ended hended]
      exact writesOf_result ha

/-! ## The records and the stream (R47) -/

/-- Two states in which the same events have been emitted, at the same step position, with the same environment. -/
structure SameStream (s s' : State) : Prop where
  out : s.out = s'.out
  seqPc : s.seqPc = s'.seqPc
  env : s.env = s'.env

/-- Two ends of an action: both done or both waiting, with the same stream. -/
inductive SameProgress : Progress → Progress → Prop where
  | done {t t' : State} (h : SameStream t t') : SameProgress (.done t) (.done t')
  | waiting {t t' : State} (h : SameStream t t') : SameProgress (.waiting t) (.waiting t')

theorem SameStream.emit {s s' : State} (h : SameStream s s') (es : List Event) :
    SameStream (s.emit es) (s'.emit es) :=
  ⟨congrArg (· ++ es) h.out, congrArg (SeqPc.advance · es.length) h.seqPc, h.env⟩

/-- What an action emits, and whether it waits, depends on the stream and the environment alone. -/
theorem perform_sameStream (a : Action) {s s' : State} (h : SameStream s s') :
    SameProgress (a.perform s) (a.perform s') := by
  cases a with
  | emit es => exact .done (h.emit es)
  | sleep ms =>
    have hemit := h.emit [.sleep ms]
    simp only [Action.perform, h.env]
    cases s'.env.takeSleep with
    | none => exact .waiting hemit
    | some e => exact .done ⟨hemit.out, hemit.seqPc, rfl⟩
  | awaitReply =>
    simp only [Action.perform, h.env]
    cases s'.env.takeReply with
    | none => exact .waiting h
    | some e => exact .done ⟨h.out, h.seqPc, rfl⟩
  | _ => exact .done ⟨h.out, h.seqPc, h.env⟩

theorem runActions_sameStream (as : List Action) {s s' : State} (h : SameStream s s') :
    SameStream (runActions as s) (runActions as s') := by
  induction as generalizing s s' with
  | nil => exact ⟨h.out, rfl, h.env⟩
  | cons a rest ih =>
    have hp := perform_sameStream a h
    simp only [runActions]
    generalize a.perform s = q, a.perform s' = q' at hp
    cases hp with
    | done hdone => exact ih hdone
    | waiting hwait => exact hwait

/-- The records of the block: what no command reads to decide what it emits. -/
def withRecords (s : State) (p : PState) (b : Bool) (r : ResultCode) (v : Byte) (d : Dirty) : State :=
  { s with pstate := p, initialized := b, result := r, panelStatus := v, dirty := d }

theorem actionsOf_withRecords (i : Instr) (s : State) (p : PState) (b : Bool) (r : ResultCode) (v : Byte) (d : Dirty) :
    actionsOf i (withRecords s p b r v d) = actionsOf i s := by
  cases i <;> rfl

/-- An instruction leaves the same stream in two states that differ in the records. -/
theorem exec_sameStream {i : Instr} {s t u : State} {p : PState} {b : Bool} {r : ResultCode} {v : Byte} {d : Dirty}
    (ht : exec i s = .next t) (hu : exec i (withRecords s p b r v d) = .next u) : SameStream t u := by
  have hsame := actionsOf_withRecords i s p b r v d
  cases ha : actionsOf i s with
  | none =>
    rw [exec_at_once_frame ha ht, exec_at_once_frame (hsame.trans ha) hu]
    exact ⟨rfl, rfl, rfl⟩
  | some as =>
    rw [exec_of_actions ha] at ht
    rw [exec_of_actions (hsame.trans ha)] at hu
    cases ht
    cases hu
    exact runActions_sameStream as ⟨rfl, rfl, rfl⟩

end Sys2Proof.Machine
end

section
/-!
The statements about all instructions (spec/10_state.md R46, R47, spec/60_exceptions.md R236, R237).
-/

namespace Sys2Proof.Machine

/-- Settles O50: the actions of the sequencer write neither planes nor mode; SETMODE and the framebuffer commands by
their frames. -/
theorem eachStateHasItsWriters : Obligations.EachStateHasItsWriters := by
  intro i s t h
  cases ha : actionsOf i s with
  | none =>
    rcases exec_at_once_cases ha h with ⟨m, rfl, rfl⟩ | ⟨hfb, hframe⟩
    · exact ⟨fun _ => ⟨rfl, rfl⟩, fun _ _ _ => rfl, fun hm => absurd rfl (hm m), fun _ => rfl, rfl, rfl, rfl, rfl⟩
    · have hnot : isFramebufferCommand i ≠ false := by rw [hfb]; exact Bool.noConfusion
      rw [hframe]
      exact ⟨fun hi => absurd hi hnot, fun hi => absurd hi hnot, fun _ => rfl, fun _ => rfl, rfl, rfl, rfl, rfl⟩
  | some as =>
    rw [exec_of_actions ha] at h
    cases h
    have hsame := runCommand_sameBlock i as s
    obtain ⟨hdirty, hstatus⟩ := runCommand_writers ha
    exact ⟨fun _ => ⟨hsame.p0, hsame.p1⟩, fun _ => hdirty, fun _ => hsame.screenMode, hstatus, hsame.cfg,
      hsame.requests, hsame.responses, hsame.wireFetch⟩

/-- Settles O51: the last write of every host command is `RESULT`, and a SETPIXEL outside the geometry raises. -/
theorem resultIsThatOfTheLastCommand : Obligations.ResultIsThatOfTheLastCommand := by
  intro i s t h hended
  rcases exec_result h hended with ⟨x, y, c, rfl, hout, hres⟩ | ⟨hin, hres⟩
  · exact ⟨fun _ => .inr ⟨hres, x, y, c, rfl, hout⟩, nofun⟩
  · refine ⟨fun hi => .inl ⟨?_, hin⟩, fun hi => ?_⟩
    · rw [hres, if_pos hi]
    · rw [hres, hi]
      rfl

/-- Settles O54: the actions are the same, and neither their events nor their waits read a record. -/
theorem recordsNeverChangeTheStream : Obligations.RecordsNeverChangeTheStream := by
  intro i s p b r v d
  obtain ⟨t, ht⟩ := exec_answers i s
  obtain ⟨u, hu⟩ := exec_answers i (withRecords s p b r v d)
  have hsame := exec_sameStream ht hu
  obtain ⟨new, hout⟩ := (exec_keeps ht).2
  exact ⟨t, u, new, ht, hu, hout.symm, (hout.trans hsame.out).symm, hsame.seqPc⟩

end Sys2Proof.Machine
end

section
/-!
The statements about one step of the block (spec/10_state.md R37, spec/20_memory.md R72, spec/70_reset_and_hazards.md
R260, R270): what it serves, by what the block is asked.
-/

namespace Sys2Proof.Machine

/-- A word that decodes is run (R91). -/
theorem runDecoded_ok {s : State} {cw : Word} {rest : List Request} {i : Instr} (h : decodeHost cw = .ok i) :
    runDecoded (takeCommand cw rest s) = exec i { s with requests := rest } := by
  rw [takeCommand, h, runDecoded]

theorem runWire_ok {s : State} {w : WireWord} {i : Instr} (h : decodeWire s.conf w = .ok i) :
    runWire w s = exec i { s with wireFetch := none } := by
  rw [runWire, h]

theorem runWire_error {s : State} {w : WireWord} {r : Reject} (h : decodeWire s.conf w = .error r) :
    runWire w s = .refused .unknownWireCommand := by
  rw [runWire, h]

/-- Whatever is asked of a busy block but a reset waits (U10). -/
theorem stepBusy_waits {s : State} (h : ∀ rest, s.requests ≠ .reset :: rest) : stepBusy s = .next s := by
  unfold stepBusy
  split
  · rename_i rest hreset
    exact absurd hreset (h rest)
  · rfl

theorem stepBusy_reset {s : State} {rest : List Request} (h : s.requests = .reset :: rest) :
    stepBusy s = .refused .resetWhileBusy := by
  rw [stepBusy, h]

/-- Settles O7: an Idle block serves the word it is asked to run. -/
theorem stepRunsTheDecodedCommand : Obligations.StepRunsTheDecodedCommand := by
  intro s cw rest i hpc hw hr hd
  rw [step_command hpc hw hr, runDecoded_ok hd]

/-- Settles O8: a wire command to be run alone comes before the host's requests. -/
theorem stepRunsTheWireCommand : Obligations.StepRunsTheWireCommand :=
  ⟨fun _ _ _ hpc hw hd => (step_wire hpc hw).trans (runWire_ok hd),
    fun _ _ _ hpc hw hd => (step_wire hpc hw).trans (runWire_error hd)⟩

/-- Settles O10: there is nothing to serve. -/
theorem idleBlockWithoutRequestStays : Obligations.IdleBlockWithoutRequestStays := by
  intro s hpc hw hr
  rw [step_request hpc hw, serveRequest, hr]

/-- Settles O11: the block is constructed again of its configuration. -/
theorem secondResetIsTheSameAsTheFirst : Obligations.SecondResetIsTheSameAsTheFirst := by
  intro s rest hpc hw hr
  rw [step_request hpc hw, serveRequest, hr]
  rfl

/-- Settles O12: the two cases of a busy step. -/
theorem busyBlockAcceptsNothing : Obligations.BusyBlockAcceptsNothing :=
  ⟨fun _ _ _ hpc h => (step_busy hpc).trans (stepBusy_waits h),
    fun _ _ _ _ hpc h => (step_busy hpc).trans (stepBusy_reset h)⟩

end Sys2Proof.Machine
end

section
/-!
The statements about the wire commands run alone (spec/41_wire_commands.md R150 to R168, log entry 9): each is one
emitted list of events.
-/

namespace Sys2Proof.Machine

/-- A transaction that is sent only in Grey4 (R158 to R162, R185). -/
theorem grey4Only_of_grey4 {s : State} (h : s.screenMode = .grey4) (es : List Event) : grey4Only s es = es := if_pos h

theorem grey4Only_of_mono {s : State} (h : s.screenMode = .mono) (es : List Event) : grey4Only s es = [] :=
  if_neg (h ▸ ScreenMode.noConfusion)

/-- A wire command that sends nothing in the present mode changes nothing (R154, R185). -/
theorem exec_emit_nothing {i : Instr} {s : State} {es : List Event} (h : actionsOf i s = some [.emit es])
    (hes : es = []) : exec i s = .next { s with seqPc := .idle } := by
  rw [exec_emit h, hes, List.append_nil]

/-- A LUT command in Grey4. -/
theorem exec_lut_grey4 {i : Instr} {s : State} {es : List Event} (h : actionsOf i s = some [.emit (grey4Only s es)])
    (hmode : s.screenMode = .grey4) : exec i s = .next { s with seqPc := .idle, out := s.out ++ es } := by
  rw [exec_emit h, grey4Only_of_grey4 hmode]

/-- The height is its two bytes (R108). -/
theorem resolutionBytes_toNat (s : State) : (BitVec.ofNat 8 s.conf.width).toNat = s.conf.width ∧
    256 * (BitVec.ofNat 8 (s.conf.height >>> 8)).toNat + (BitVec.ofNat 8 (s.conf.height &&& 0xFF)).toNat =
      s.conf.height := by
  obtain ⟨-, hw, -, hh⟩ := s.geometry
  have hlow : s.conf.height &&& 0xFF = s.conf.height % 256 := Nat.and_two_pow_sub_one_eq_mod s.conf.height 8
  rw [hlow, Nat.shiftRight_eq_div_pow]
  simp only [BitVec.toNat_ofNat]
  omega

/-- Settles O38: the one transaction each emits, with the argument list of the revision and the mode. -/
theorem settingsCommandsSendTheirArguments : Obligations.SettingsCommandsSendTheirArguments :=
  fun _ => ⟨exec_emit rfl, exec_emit rfl, exec_emit rfl⟩

/-- Settles O39: the use selects the list, and each use is one transaction. -/
theorem vcomdcAndIntervalHaveTwoUses : Obligations.VcomdcAndIntervalHaveTwoUses :=
  fun _ => ⟨exec_emit rfl, exec_emit rfl, exec_emit rfl, exec_emit rfl⟩

/-- Settles O40: a transaction without data bytes is three events. -/
theorem parameterlessCommandsSendOneByte : Obligations.ParameterlessCommandsSendOneByte :=
  fun _ => ⟨exec_emit rfl, exec_emit rfl, exec_emit rfl, exec_emit rfl⟩

/-- Settles O41: the policy is what `pllSent` computes. -/
theorem pllctlIsSentByPolicy : Obligations.PllctlIsSentByPolicy := by
  intro s
  rw [← pllSent_iff]
  refine ⟨fun h => ?_, fun h => exec_emit_nothing rfl (if_neg h)⟩
  rw [exec_emit (i := .pllctl) rfl, pllctlEvents, if_pos h]
  rfl

/-- Settles O42: a legal width fits one byte, and a legal height two. -/
theorem resolutionSendsTheGeometry : Obligations.ResolutionSendsTheGeometry := by
  intro s
  obtain ⟨hwidth, hheight⟩ := resolutionBytes_toNat s
  exact ⟨_, _, _, hwidth, hheight, exec_emit rfl⟩

/-- Settles O43: the mode decides between the whole transaction and nothing. -/
theorem lutCommandsSendTheirTablesInGrey4 : Obligations.LutCommandsSendTheirTablesInGrey4 := by
  intro s
  refine ⟨fun h => ⟨exec_lut_grey4 rfl h, exec_lut_grey4 rfl h, exec_lut_grey4 rfl h, exec_lut_grey4 rfl h,
    exec_lut_grey4 rfl h⟩, fun h => ?_⟩
  have hnothing := grey4Only_of_mono h
  simp only [List.forall_mem_cons]
  exact ⟨exec_emit_nothing rfl (hnothing _), exec_emit_nothing rfl (hnothing _), exec_emit_nothing rfl (hnothing _),
    exec_emit_nothing rfl (hnothing _), exec_emit_nothing rfl (hnothing _), nofun⟩

/-- Settles O44: the data bytes of plane 0 depend on the mode, those of plane 1 do not. -/
theorem planeCommandsSendThePlanes : Obligations.PlaneCommandsSendThePlanes := by
  intro s
  refine ⟨fun h => ?_, fun h => ?_, exec_emit rfl⟩ <;>
    rw [exec_emit (i := .plane0data) rfl, plane0dataEvents, plane0Payload, h]
  rfl

/-- Settles O45: STATUSREAD waits for one byte and writes nothing. -/
theorem statusreadReceivesOneByte : Obligations.StatusreadReceivesOneByte :=
  fun s h => exec_completes (i := .statusread) (as := statusreadActions s.env.nextReply s) rfl (Env.completes_zero _) h

end Sys2Proof.Machine
end

section
/-!
What the commands send, as a reader of the stream finds it (spec/41_wire_commands.md R170, spec/42_driver_ops.md R186),
and on the lines (spec/30_encoding.md R106).
-/

namespace Sys2Proof.Machine

/-! ## Command bytes of a stream (R102, R170) -/

/-- The command bytes of the transactions of a stream, in order. -/
def opsOf (es : List Event) : List Byte := (transactionsOf es).map Transaction.op

@[simp] theorem opsOf_nil : opsOf [] = [] := rfl

@[simp] theorem opsOf_transaction (op : Byte) (bs : List Byte) : opsOf (transaction op bs) = [op] := by
  rw [opsOf, transactionsOf_transaction_nil]
  rfl

@[simp] theorem opsOf_sleep (ms : Nat) : opsOf [.sleep ms] = [] := rfl

/-- Whole transactions, then others. -/
theorem opsOf_append {es : List Event} (fs : List Event) (h : scanFrom .outside es = some .outside) :
    opsOf (es ++ fs) = opsOf es ++ opsOf fs := by
  rw [opsOf, transactionsOf_append fs h, List.map_append]
  rfl

/-- One transaction, then others. -/
theorem opsOf_transaction_append (op : Byte) (bs : List Byte) (fs : List Event) :
    opsOf (transaction op bs ++ fs) = op :: opsOf fs := by
  rw [opsOf_append _ (scanFrom_transaction op bs), opsOf_transaction]
  rfl

theorem opsOf_ite {c : Prop} [Decidable c] (es : List Event) :
    opsOf (if c then es else []) = if c then opsOf es else [] := apply_ite opsOf c es []

/-- The bytes in command framing are the command bytes of the transactions. -/
theorem c_mem_iff {b : Byte} {es : List Event} : .c b ∈ es ↔ b ∈ opsOf es := by
  induction es with
  | nil => simp
  | cons e rest ih => cases e <;> simp_all [opsOf, transactionsOf]

theorem opsOf_puStepEvents (s : State) (step : PuStep) : opsOf (puStepEvents s step) = puStepOps s step := by
  cases step with
  | ponwait => rfl
  | pllctl => simp only [puStepEvents, puStepOps, opsOf_ite, opsOf_transaction]
  | luts =>
    simp only [puStepEvents, puStepOps, opsOf_ite, List.append_assoc, opsOf_transaction_append, opsOf_transaction]
  | _ => exact opsOf_transaction _ _

theorem opsOf_powerUpEvents (s : State) : opsOf (powerUpEvents s) = powerUpOps s := by
  unfold powerUpEvents powerUpOps
  induction s.conf.puOrder with
  | nil => rfl
  | cons step rest ih =>
    rw [List.flatMap_cons, List.flatMap_cons, opsOf_append _ (scanFrom_puStepEvents s step), opsOf_puStepEvents, ih]

theorem opsOf_txPlanes_append (s : State) (fs : List Event) :
    opsOf (txPlanesEvents s ++ fs) = [s.conf.ops.plane0data, s.conf.ops.plane1data] ++ opsOf fs := by
  rw [opsOf, transactionsOf_txPlanesEvents, List.map_append]
  rfl

theorem opsOf_powerDownEvents (s : State) :
    opsOf (powerDownEvents s) = [s.conf.ops.interval, s.conf.ops.vcomdc, s.conf.ops.poweroff] := by
  simp only [powerDownEvents, List.append_assoc, opsOf_transaction_append, opsOf_transaction]

theorem opsOf_refreshEvents (f : Bool) (s : State) : opsOf (refreshEvents f s) =
    powerUpOps s ++ [s.conf.ops.plane0data, s.conf.ops.plane1data, s.conf.ops.refreshtrig] ++
      (if f then [s.conf.ops.interval, s.conf.ops.vcomdc, s.conf.ops.poweroff] else []) := by
  simp only [refreshEvents, List.append_assoc]
  rw [opsOf_append _ (scanFrom_powerUpEvents s), opsOf_powerUpEvents, opsOf_txPlanes_append, opsOf_transaction_append,
    opsOf_append (es := [.sleep _]) _ rfl, opsOf_sleep, opsOf_ite, opsOf_powerDownEvents]
  rfl

theorem opsOf_quickdrawEvents (s : State) : opsOf (quickdrawEvents s) =
    (if s.conf.qdPowerup then powerUpOps s else []) ++
      [s.conf.ops.plane0data, s.conf.ops.plane1data, s.conf.ops.datastop] := by
  simp only [quickdrawEvents, List.append_assoc]
  rw [opsOf_append _ (scanFrom_outside_ite (scanFrom_powerUpEvents s)), opsOf_ite, opsOf_powerUpEvents,
    opsOf_txPlanes_append, opsOf_transaction_append, opsOf_sleep]
  rfl

/-! ## QUICKDRAW (R165, R212) -/

/-- The command bytes of the commands of `powerUp` (R183, R185). -/
def powerUpBytes (o : OpBytes) : List Byte :=
  [o.booster, o.powerset, o.poweron, o.panelset, o.pllctl, o.resolution, o.vcomdc, o.interval] ++
  [o.lutVcom, o.lutW2w, o.lutB2w, o.lutW2b, o.lutB2b]

theorem powerUpOps_subset (s : State) : powerUpOps s ⊆ powerUpBytes s.conf.ops := by
  intro b hb
  obtain ⟨step, -, hb⟩ := List.mem_flatMap.1 hb
  simp only [powerUpBytes, List.mem_append, List.mem_cons, List.not_mem_nil, or_false]
  cases step <;> simp only [puStepOps] at hb
  case pllctl | luts => split at hb <;> simp_all
  all_goals simp_all

/-- QUICKDRAW sends commands of `powerUp`, the planes and DATASTOP. -/
theorem opsOf_quickdrawEvents_subset (s : State) : opsOf (quickdrawEvents s) ⊆
    powerUpBytes s.conf.ops ++ [s.conf.ops.plane0data, s.conf.ops.plane1data, s.conf.ops.datastop] := by
  rw [opsOf_quickdrawEvents]
  refine List.append_subset.2 ⟨fun b hb => List.mem_append_left _ ?_, List.subset_append_right _ _⟩
  split at hb
  · exact powerUpOps_subset s hb
  · cases hb

/-- Where the nineteen command bytes differ, three of them are not among those QUICKDRAW sends. -/
theorem quickdraw_ops_disjoint {o : OpBytes} (h : o.toList.Nodup) : List.Disjoint
    (powerUpBytes o ++ [o.plane0data, o.plane1data, o.datastop]) [o.refreshtrig, o.poweroff, o.statusread] := by
  have horder : o.toList.Perm
      ((powerUpBytes o ++ [o.plane0data, o.plane1data, o.datastop]) ++ [o.refreshtrig, o.poweroff, o.statusread]) := by
    rw [List.append_assoc]
    exact List.Perm.append_left _ (.cons _ (.cons _ (.swap _ _ _)))
  exact List.disjoint_of_nodup_append (horder.nodup_iff.1 h)

/-- QUICKDRAW, ended or waiting, has emitted no command byte but those. -/
theorem quickdraw_emits {s t : State} (h : exec .quickdraw s = .next t) : ∃ new, t.out = s.out ++ new ∧
    ∀ b, .c b ∈ new → b ∈ opsOf (quickdrawEvents s) := by
  cases h
  obtain ⟨new, hnew, hout⟩ := runCommand_out .quickdraw (quickdrawActions s) s
  rw [eventsOf_quickdraw] at hnew
  exact ⟨new, hout, fun b hb => c_mem_iff.1 (hnew.subset hb)⟩

/-! ## The settle delay of `powerUp` (R186, R266) -/

/-- Actions that wait for nothing are done, whatever comes after them. -/
theorem runActions_append_of_no_waits {as : List Action} (rest : List Action) (s : State) (hs : sleepsOf as = 0)
    (hr : repliesOf as = 0) : ∃ u, runActions (as ++ rest) s = runActions rest u ∧ u.out = s.out ++ eventsOf as := by
  induction as generalizing s with
  | nil => exact ⟨s, rfl, (List.append_nil _).symm⟩
  | cons a as ih =>
    simp only [sleepsOf_cons, repliesOf_cons, Nat.add_eq_zero_iff] at hs hr
    have hd := perform_done (a := a) (s := s) (hs.1 ▸ Env.completes_zero _) (hr.1 ▸ Env.answers_zero _)
    obtain ⟨u, hrun, hout⟩ := ih _ hs.2 hr.2
    refine ⟨u, (runActions_done hd).trans hrun, ?_⟩
    rw [hout, settled_out, eventsOf_cons, List.append_assoc]

theorem runActions_out (as : List Action) (s : State) : ∃ new, (runActions as s).out = s.out ++ new := by
  rcases runActions_cases as s with ⟨h, -⟩ | ⟨before, a, after, -, h, -⟩ <;> exact ⟨_, congrArg State.out h⟩

/-- A `SLEEP` stands in `OUT` whether or not it is completed (log entry 5). -/
theorem runActions_sleep_out (ms : Nat) (rest : List Action) (s : State) :
    ∃ after, (runActions (.sleep ms :: rest) s).out = s.out ++ ([Event.sleep ms] ++ after) := by
  rcases perform_cases (.sleep ms) s with ⟨h, -⟩ | h
  · exact ⟨[], congrArg State.out (runActions_waiting h)⟩
  · obtain ⟨new, hnew⟩ := runActions_out rest { s.emit [.sleep ms] with env := s.env.after 1 0 }
    refine ⟨new, (congrArg State.out (runActions_done h)).trans (hnew.trans ?_)⟩
    exact List.append_assoc s.out [.sleep ms] new

/-- What comes before the first `SLEEP` of a command is emitted, and the `SLEEP` after it. -/
theorem runCommand_first_sleep {pre rest : List Action} (hs : sleepsOf pre = 0) (hr : repliesOf pre = 0) (cmd : Instr)
    (ms : Nat) (s : State) :
    ∃ after, (runCommand cmd (pre ++ .sleep ms :: rest) s).out = s.out ++ (eventsOf pre ++ [.sleep ms] ++ after) := by
  obtain ⟨u, hrun, hu⟩ := runActions_append_of_no_waits (.sleep ms :: rest) { s with seqPc := .running cmd 0 } hs hr
  obtain ⟨after, hout⟩ := runActions_sleep_out ms rest u
  refine ⟨after, (congrArg State.out hrun).trans (hout.trans ?_)⟩
  rw [hu, List.append_assoc, List.append_assoc]

/-- In `powerUp` the settle delay is the first wait, and comes directly after the power-on transaction. -/
theorem powerUpActions_split (s : State) : ∃ pre post,
    powerUpActions s = (pre ++ [Action.emit (poweronEvents s)]) ++ .sleep (s.conf.tPon.get s.conf.rev) :: post ∧
      sleepsOf (pre ++ [Action.emit (poweronEvents s)]) = 0 ∧
      repliesOf (pre ++ [Action.emit (poweronEvents s)]) = 0 := by
  obtain ⟨before, after, horder⟩ := puOrder_split s.cfg
  refine ⟨before.flatMap (puStepActions s), after.flatMap (puStepActions s) ++ [.poweredUp], ?_, ?_, ?_⟩
  · simp [powerUpActions, State.conf, horder, puStepActions]
  · have hsum := ((puOrder_perm s.cfg).map puStepSleeps).sum_eq
    have hlisted : (listedPuOrder.map puStepSleeps).sum = 1 := rfl
    have hwait : puStepSleeps .ponwait = 1 := rfl
    rw [horder, hlisted] at hsum
    simp only [List.map_append, List.map_cons, List.sum_append, List.sum_cons, hwait] at hsum
    rw [sleepsOf_append, sleepsOf_steps]
    show _ + 0 = 0
    omega
  · rw [repliesOf_append, repliesOf_steps]
    rfl

/-- The commands that perform `powerUp` begin with it (R182, R211, R212). -/
theorem actionsOf_begins_with_powerUp {i : Instr} {s : State}
    (h : i = .powerup ∨ (∃ f, i = .refresh f) ∨ (i = .quickdraw ∧ s.conf.qdPowerup = true)) :
    ∃ rest, actionsOf i s = some (powerUpActions s ++ rest) := by
  rcases h with rfl | ⟨f, rfl⟩ | ⟨rfl, hqd⟩
  · exact ⟨_, rfl⟩
  · simp only [actionsOf, refreshActions, List.append_assoc]
    exact ⟨_, rfl⟩
  · simp only [actionsOf, quickdrawActions, if_pos hqd, List.append_assoc]
    exact ⟨_, rfl⟩

/-- A command that performs `powerUp` emits its settle delay directly after the power-on transaction. -/
theorem exec_poweron_then_sleep {i : Instr} {s : State}
    (h : i = .powerup ∨ (∃ f, i = .refresh f) ∨ (i = .quickdraw ∧ s.conf.qdPowerup = true)) :
    ∃ t before after, exec i s = .next t ∧ t.out = s.out ++
      (before ++ [Event.ts, .c s.conf.ops.poweron, .te, .sleep (s.conf.tPon.get s.conf.rev)] ++ after) := by
  obtain ⟨rest, ha⟩ := actionsOf_begins_with_powerUp h
  obtain ⟨pre, post, hsplit, hs, hr⟩ := powerUpActions_split s
  rw [hsplit, List.append_assoc, List.cons_append] at ha
  obtain ⟨after, hout⟩ := runCommand_first_sleep (rest := post ++ rest) hs hr i (s.conf.tPon.get s.conf.rev) s
  refine ⟨_, eventsOf pre, after, exec_of_actions ha, hout.trans ?_⟩
  simp [Action.events, poweronEvents, transaction]

/-! ## The lines (R106) -/

/-- Data bytes on an active `DATA` line. -/
theorem linesFrom_data (bs : List Byte) (rest : List Event) :
    linesFrom true (bs.map Event.d ++ rest) = bs.map LineAction.send ++ linesFrom true rest := by
  induction bs with
  | nil => rfl
  | cons b bs ih => simp [linesFrom, enterData, ih]

/-- A transaction on the lines: `DATA` is set active before the first data byte, where there is one. -/
theorem linesFrom_transaction (active : Bool) (op : Byte) (bs : List Byte) (rest : List Event) :
    linesFrom active (transaction op bs ++ rest) =
      [LineAction.setData false, .setSelect true, .send op] ++ (if bs = [] then [] else [LineAction.setData true]) ++
      bs.map LineAction.send ++ [LineAction.setSelect false] ++ linesFrom (decide (bs ≠ [])) rest := by
  cases bs with
  | nil => rfl
  | cons b bs => simp [transaction, linesFrom, enterData, linesFrom_data]

end Sys2Proof.Machine
end

section
/-!
The statements about what the commands send (spec/30_encoding.md R101 to R106, spec/41_wire_commands.md R170,
spec/42_driver_ops.md R186).
-/

namespace Sys2Proof.Machine

/-- Settles O34: the transactions of each sub-sequence, in the order in which the command performs them. -/
theorem hostCommandsSendTheirWireCommands : Obligations.HostCommandsSendTheirWireCommands := by
  intro i s hi hs hr
  cases ha : actionsOf i s with
  | none =>
    obtain ⟨t, h⟩ := exec_answers i s
    refine ⟨t, [], h, (congrArg State.out (exec_at_once_frame ha h)).trans (List.append_nil _).symm, ?_⟩
    cases i with
    | clear | setpixel | testpat | setmode => rfl
    | _ => cases ha
  | some as =>
    obtain ⟨hsleeps, hreplies⟩ := actionsOf_waits ha
    refine ⟨_, eventsOf as, exec_completes ha (Env.completes_mono hsleeps hs) (Env.answers_mono hreplies hr), rfl, ?_⟩
    show opsOf (eventsOf as) = _
    cases i <;> simp only [actionsOf, Option.some.injEq, reduceCtorEq] at ha <;> subst ha
    case refresh f => rw [eventsOf_refresh, opsOf_refreshEvents]
    case quickdraw => rw [eventsOf_quickdraw, opsOf_quickdrawEvents]
    case resethw | getstatus => rfl
    case powerup =>
      rw [eventsOf_append, eventsOf_powerUp, opsOf_append _ (scanFrom_powerUpEvents s), opsOf_powerUpEvents]
      exact List.append_nil _
    case powerdown =>
      rw [eventsOf_append, eventsOf_powerDown, opsOf_append _ (scanFrom_powerDownEvents s), opsOf_powerDownEvents]
      rfl
    all_goals cases hi

/-- Settles O35: what QUICKDRAW emits begins what it sends when it completes, and none of that is one of the two. -/
theorem quickdrawNeverTriggersARefresh : Obligations.QuickdrawNeverTriggersARefresh := by
  intro s t hdistinct h
  obtain ⟨new, hout, hsent⟩ := quickdraw_emits h
  have hnever := fun b hb => quickdraw_ops_disjoint hdistinct (opsOf_quickdrawEvents_subset s (hsent b hb))
  exact ⟨new, hout, fun hb => hnever _ hb (by simp), fun hb => hnever _ hb (by simp)⟩

/-- Settles O28: the delay is the first wait of `powerUp`, so the command reaches it in every environment. -/
theorem powerOnIsFollowedByItsSettleDelay : Obligations.PowerOnIsFollowedByItsSettleDelay := by
  intro s
  obtain ⟨hmin, hmax, -⟩ := s.delays s.conf.rev
  refine ⟨puOrder_perm s.cfg, puOrder_split s.cfg, fun hrev => ?_, hmin, hmax, fun i => exec_poweron_then_sleep⟩
  rw [Config.puOrder, hrev]
  rfl

/-- Settles O27: the listed order, with the steps that the mode leaves out. -/
theorem powerUpStreamOfRevisionA : Obligations.PowerUpStreamOfRevisionA := by
  intro s hrev hpll hs
  refine ⟨_, powerupSendsTheStepsInOrder.2 s hs, rfl, fun hmode => ?_, fun hmode => ?_⟩ <;>
    simp [powerUpEvents, Config.puOrder, listedPuOrder, puStepEvents, PerRev.get, PerMode.get, hrev, hpll, hmode]

/-- Settles O36: a transaction is whole, and is the one a reader finds. -/
theorem cmdExpandsToItsEvents : Obligations.CmdExpandsToItsEvents := by
  intro op bs
  refine ⟨rfl, by simp [transaction], rfl, ?_, transactionsOf_transaction_nil op bs⟩
  rw [traceWf, scanFrom_transaction]
  rfl

/-- Settles O37: event by event; the lines of RESETHW do not depend on the level of `DATA` before it. -/
theorem cmdDrivesTheLines : Obligations.CmdDrivesTheLines := by
  refine ⟨linesFrom_transaction, fun _ _ _ _ => rfl, fun _ _ _ _ => ⟨rfl, rfl⟩, fun s h => ⟨_, exec_resethw h, ?_⟩⟩
  obtain ⟨level, hlines⟩ := linesFrom_append false s.out
    [.rst true, .sleep 10, .rst false, .sleep 10, .rst true, .sleep 10]
  exact hlines

end Sys2Proof.Machine
end

section
/-!
The check of a configuration in the spec's own words (spec/70_reset_and_hazards.md R264), and the statements about it
and about the pad bits (spec/10_state.md R25).
-/

namespace Sys2Proof

/-! ## The conditions of R264 -/

theorem geometryOk_iff (c : Config) : c.geometryOk = true ↔
    1 ≤ c.width ∧ c.width ≤ 255 ∧ 1 ≤ c.height ∧ c.height ≤ 65535 := by
  simp only [Config.geometryOk, Bool.and_eq_true, decide_eq_true_eq, and_assoc]

theorem forall_rev {p : Rev → Prop} : (∀ r, p r) ↔ p .revisionA ∧ p .revisionB :=
  ⟨fun h => ⟨h _, h _⟩, fun h r => by cases r with | revisionA => exact h.1 | revisionB => exact h.2⟩

theorem exists_rev {p : Rev → Prop} : (∃ r, p r) ↔ p .revisionA ∨ p .revisionB := by
  rw [← not_iff_not, not_exists, forall_rev, not_or]

/-- The bounds on the delays, of each revision (R12, log entry 14). -/
theorem delaysOk_iff (c : Config) : c.delaysOk = true ↔
    ∀ r, 100 ≤ c.tPon.get r ∧ c.tPon.get r ≤ 200 ∧ 900 ≤ c.tRefresh.get r ∧ c.tRefresh.get r ≤ 1000 := by
  simp only [forall_rev, PerRev.get, Config.delaysOk, Bool.and_eq_true, decide_eq_true_eq]
  tauto

/-- Where the power-on command stands once, the settle delay is asked for directly after it (R186). -/
theorem waitFollowsPoweron_append {before after : List PuStep} (h : .poweron ∉ before) :
    waitFollowsPoweron (before ++ [PuStep.poweron, .ponwait] ++ after) = true := by
  induction before with
  | nil => rfl
  | cons a rest ih =>
    rw [List.mem_cons, not_or] at h
    cases rest with
    | nil => simp [waitFollowsPoweron, Ne.symm h.1]
    | cons b rest => simpa [waitFollowsPoweron, Ne.symm h.1] using ih h.2

/-- The legal orders (R186): in a permutation of the ten steps the power-on command stands once. -/
theorem legalPuOrder_iff (l : List PuStep) : legalPuOrder l = true ↔
    l.Perm listedPuOrder ∧ ∃ before after, l = before ++ [PuStep.poweron, .ponwait] ++ after := by
  rw [legalPuOrder, Bool.and_eq_true, List.isPerm_iff]
  refine and_congr_right fun hperm => ⟨Machine.waitFollowsPoweron_split, ?_⟩
  rintro ⟨before, after, rfl⟩
  have hnodup := hperm.nodup_iff.2 (by decide)
  rw [List.append_assoc] at hnodup
  exact waitFollowsPoweron_append fun h => List.disjoint_of_nodup_append hnodup h List.mem_cons_self

/-- Exactly one revision has the Grey4-only policy (R11). -/
theorem pllOk_iff (c : Config) : c.pllOk = true ↔
    ∃ r, c.pllPolicy.get r = .grey4Only ∧ ∀ r', c.pllPolicy.get r' = .grey4Only → r' = r := by
  simp only [exists_rev, forall_rev, PerRev.get, Config.pllOk]
  by_cases hA : c.pllPolicy.revA = .grey4Only <;> by_cases hB : c.pllPolicy.revB = .grey4Only <;> simp [hA, hB]

/-- An index below `N` is one whose byte begins inside the panel (R134). -/
theorem patternOk_iff (c : Config) : c.patternOk = true ↔ ∀ e ∈ c.testPattern, 8 * e.index < c.width * c.height := by
  have hindex : ∀ n, n < c.planeBytes ↔ 8 * n < c.width * c.height := fun n => by
    unfold Config.planeBytes ceilDiv
    omega
  simp only [Config.patternOk, List.all_eq_true, decide_eq_true_eq, hindex]

/-- The check of a configuration (R264). -/
theorem config_wf_iff (c : Config) : c.wf = true ↔
    (1 ≤ c.width ∧ c.width ≤ 255 ∧ 1 ≤ c.height ∧ c.height ≤ 65535) ∧
    (∀ r, 100 ≤ c.tPon.get r ∧ c.tPon.get r ≤ 200 ∧ 900 ≤ c.tRefresh.get r ∧ c.tRefresh.get r ≤ 1000) ∧
    (c.puOrderB.Perm listedPuOrder ∧ ∃ before after, c.puOrderB = before ++ [PuStep.poweron, .ponwait] ++ after) ∧
    (∃ r, c.pllPolicy.get r = .grey4Only ∧ ∀ r', c.pllPolicy.get r' = .grey4Only → r' = r) ∧
    (∀ e ∈ c.testPattern, 8 * e.index < c.width * c.height) := by
  rw [Config.wf, Bool.and_eq_true, Bool.and_eq_true, Bool.and_eq_true, Bool.and_eq_true, geometryOk_iff, delaysOk_iff,
    legalPuOrder_iff, pllOk_iff, patternOk_iff]
  simp only [and_assoc]

/-! ## Construction -/

theorem constructFrom_isSome_iff (c : Config) : (Machine.State.constructFrom c).isSome = true ↔ c.wf = true := by
  rw [Machine.State.constructFrom, Option.isSome_map, Config.check]
  split <;> simp_all

theorem constructFrom_eq_some {c : Config} {s : Machine.State} (h : Machine.State.constructFrom c = some s) :
    s.conf = c ∧ s = Machine.State.construct s.cfg := by
  rw [Machine.State.constructFrom, Config.check] at h
  split at h
  · cases h
    exact ⟨rfl, rfl⟩
  · cases h

/-- Settles O56: each condition of the check in the spec's words, and a configuration that fails one has no proof. -/
theorem malformedConfigurationsAreRefused : Obligations.MalformedConfigurationsAreRefused := by
  refine fun c => ⟨?_, fun s => constructFrom_eq_some⟩
  rw [constructFrom_isSome_iff, config_wf_iff]
  simp only [and_assoc]
  exact Iff.rfl

end Sys2Proof

namespace Sys2Proof.Machine

/-- Settles O18: the offset of a pixel of the panel lies below `W*H`, and SETPIXEL writes that bit alone. -/
theorem setpixelWritesNoPadBit : Obligations.SetpixelWritesNoPadBit := by
  intro s t x y c o h0 h1 h hpad
  rcases exec_setpixel_cases h with ⟨hin, rfl⟩ | ⟨-, rfl⟩
  · obtain ⟨hx, hy⟩ := (inPanel_iff _ _ _).1 hin
    have hne : o ≠ pixelOffset s.conf.width x.toNat y.toNat := ((pixelOffset_lt hx hy).trans_le hpad).ne'
    exact ⟨(bitAt_setBits h0 _ _ _ _).trans (if_neg hne), (bitAt_setBits h1 _ _ _ _).trans (if_neg hne)⟩
  · exact ⟨rfl, rfl⟩

end Sys2Proof.Machine
end
